-- ==== Sys2Proof/Word.lean ====
section
/-! DEFINITION. The widths of the values the core holds and computes (00_scope.md R6, R13). Every value is unsigned. -/

namespace Sys2Proof

/-- A host register or command word, `REG_W` = 32 bits (R6). -/
abbrev Word := BitVec 32

/-- A byte, the LZW input unit (R11). -/
abbrev Byte := BitVec 8

/-- A Huffman Symbol, `SYM_W` = 16 bits (R6, R11). -/
abbrev Symbol := BitVec 16

/-- An LZW code, `CODE_W` = 16 bits (R6). -/
abbrev LzwCode := BitVec 16

/-- The payload of a stream beat, `BEAT_W` = 16 bits (R6). -/
abbrev Payload := BitVec 16

/-- The id of a tree node, `NODE_W` = 17 bits (R6). -/
abbrev NodeId := BitVec 17

/-- The frequency of a tree node, `NFREQ_W` = 48 bits (R6). -/
abbrev NodeFreq := BitVec 48

/-- The byte offset of a host access within the register window: `addr[5:0]` (20_memory.md R71). -/
abbrev Offset := BitVec 6

/-- The number of a word of the register window: `off[5:2]` (20_memory.md R72). -/
abbrev RegIndex := BitVec 4

end Sys2Proof
end

