-- ==== Sys2Proof/Config.lean ====
section
/-! DEFINITION. The implementation parameters of 00_scope.md R6: the values this hardware fixes, and the two open FIFO depths. -/

namespace Sys2Proof.Config

/-- The identity constant of register ID (10_state.md R22). -/
def idValue : Word := 0x4C5A4801#32

/-- `BASE`, the size of the LZW base alphabet: codes 0 to 255 (R6). -/
def baseCodes : Nat := 256

/-- `DICT_CAP`, the capacity of the LZW dictionary (R6). -/
def dictCap : Nat := 65536

/-- `NODE_MAX`, the size of the tree arena (R6). -/
def nodeMax : Nat := 131071

/-- `CODE_MAXLEN`, the longest Huffman code in bits (R6). -/
def codeMaxLen : Nat := 65535

/-- The two OPEN parameters of R6, `IN_DEPTH` and `OUT_DEPTH`, both at least 1.
A depth is held as the beats beyond the first, so that a depth of 0 cannot be written.
They decide only when a push or a DRAIN is enabled, never a value (log entry 4). -/
structure Params where
  inBeyondFirst : Nat
  outBeyondFirst : Nat
deriving DecidableEq, Repr

/-- `IN_DEPTH`, the depth of the input FIFO in beats (R6). -/
def Params.inDepth (p : Params) : Nat := p.inBeyondFirst + 1

/-- `OUT_DEPTH`, the depth of the output FIFO in beats (R6). -/
def Params.outDepth (p : Params) : Nat := p.outBeyondFirst + 1

/-- DESIGN CHOICE: both depths 64, as the programs of 95_test_vectors.md L3 take them (log entry 4). -/
def Params.sixtyFour : Params := { inBeyondFirst := 63, outBeyondFirst := 63 }

end Sys2Proof.Config
end

