-- ==== Sys2Proof/Syntax.lean ====
section
/-! DEFINITION. The commands (one constructor per row of spec/opcode_table.json), the stream beats, the host's actions and the lines of the host assembly. -/

namespace Sys2Proof

/-- The 16 commands of 30_encoding.md R103. A format S command carries its 16-bit immediate, a Symbol or an LZW code (R102). -/
inductive Instr where
  | nop
  | srst
  | clrerr
  | abort
  | hclr
  | hset (sym : Symbol)
  | hget (sym : Symbol)
  | hbuild
  | hgen
  | hcode (sym : Symbol)
  | hnode
  | enc
  | dec
  | pack
  | unpack
  | dlook (code : LzwCode)
deriving DecidableEq, Repr

/-- The two command formats of R101. -/
inductive Format where
  | n
  | s
deriving DecidableEq, Repr

/-- A beat of the input port (20_memory.md R75). `rsv` is the reserved kind 3, whatever its payload. -/
inductive InBeat where
  | data (v : Payload)
  | fin
  | err
  | rsv
deriving DecidableEq, Repr

/-- A beat of the output port (20_memory.md R76). Kind 3 is never sent, so it has no constructor. -/
inductive OutBeat where
  | data (v : Payload)
  | fin
  | aborted
deriving DecidableEq, Repr

/-- One action of the HOST (00_scope.md R12, 20_memory.md R72 to R79).
The last two are the loops of the pseudo-instructions WAITCMD and POPALL (30_encoding.md R108, log entry 12). -/
inductive HostAct where
  /-- `MemRead(off, 4)`, R72. -/
  | read (off : Offset)
  /-- `MemWrite(off, 4, v)`, R73. -/
  | write (off : Offset) (v : Word)
  /-- push a beat into INQ, R75. -/
  | push (b : InBeat)
  /-- pop a beat from OUTQ, R76. -/
  | pop
  /-- assert SINK_ERR, R78. -/
  | sinkError
  /-- assert RST, R79. -/
  | reset
  /-- repeat `MemRead(off, 4)` until the bits of `mask` read as those of `want`. -/
  | readUntil (off : Offset) (mask want : Word)
  /-- repeat pop until the beat popped is END or ABORTED. -/
  | popAll
deriving DecidableEq, Repr

/-- What the host observes: the value of a register read, or a popped beat. -/
inductive Obs where
  | value (off : Offset) (v : Word)
  | beat (b : OutBeat)
deriving DecidableEq, Repr

/-- Which step is tried next: one of the core's three (45_sequencer.md R242) or the host's next action (R243). -/
inductive Turn where
  | exec
  | beat
  | drain
  | host
deriving DecidableEq, Repr

/-- The registers of the window, in the order of their offsets (10_state.md R21). -/
inductive Reg where
  | id | ctrl | status | cmd | arg | res0 | res1 | res2 | res3
  | dsize | nsym | troot | tnodes | incnt | outcnt | errinfo
deriving DecidableEq, Repr

/-- The mnemonics of the commands, as the host assembly writes them (30_encoding.md R103, R108). -/
inductive Mnemonic where
  | nop | srst | clrerr | abort | hclr | hset | hget | hbuild | hgen | hcode | hnode
  | enc | dec | pack | unpack | dlook
deriving DecidableEq, Repr

/-- A line of host assembly (30_encoding.md R107) or a pseudo-instruction (R108). Numbers are as written in the text, so a line can be ill formed. -/
inductive Line where
  | wr (r : Reg) (v : Nat)
  | rd (r : Reg)
  | push (v : Nat)
  | pushEnd
  | pushErr
  | pop
  | sinkErr
  | reset
  | cmd (m : Mnemonic) (imm : Option Nat)
  | waitCmd
  | hsetf (sym f : Nat)
  | pushs (text : List Char)
  | pushb (bytes : List Nat)
  | popAll
deriving DecidableEq, Repr

end Sys2Proof
end

