-- ==== Sys2Proof/Machine/State.lean ====
section
/-! DEFINITION. The state of the core (10_state.md R20), the reasons a step can stop, and the state after reset (10_state.md R50, 70_reset_and_hazards.md R290). -/

namespace Sys2Proof.Machine

/-- STATE, where the sequencer is (10_state.md R24). The 3-bit values 5 and 6 are never held, so they have no constructor (log entry 9). -/
inductive SeqState where
  | idle
  | enc
  | dec
  | pack
  | unpack
  | error
deriving DecidableEq, Repr

/-- ERRCODE, the recorded error (60_exceptions.md R260). The values 11 to 15 are never produced, so they have no constructor (log entry 9). -/
inductive ErrCode where
  | none
  | badOp
  | illState
  | empty
  | noTree
  | noTable
  | desync
  | dictOvf
  | io
  | trunc
  | cmdOvr
deriving DecidableEq, Repr

/-- An entry of the tree arena NODE (10_state.md R37): `sym` is 0 for a Node, `left` and `right` are 0 for a Leaf. -/
structure Node where
  leaf : Bool
  sym : Symbol
  left : NodeId
  right : NodeId
  freq : NodeFreq
  minsym : Symbol
deriving DecidableEq, Repr

/-- An entry of the code table CT (10_state.md R40): `val` is a value of `len` bits, and bit `len - 1` is the bit taken at the root. -/
structure Code where
  len : BitVec 16
  val : Nat
deriving DecidableEq, Repr

/-- An assigned entry of the LZW dictionary: DPRE and DSUF of one code (10_state.md R41). -/
structure DictEntry where
  pre : LzwCode
  suf : Byte
deriving DecidableEq, Repr

/-- A table over all 65536 Symbols, held as the list of the entries that are not the default, the Symbols strictly rising (log entry 6). -/
abbrev Table (α : Type) := List (Symbol × α)

/-- The model's own fields about the agents: the host's remaining actions, the order in which steps are tried, and what the host has observed, oldest first (log entries 1 and 2). -/
structure Env where
  script : List HostAct
  turns : List Turn
  log : List Obs
deriving DecidableEq, Repr

/-- The state of the core (10_state.md R20), then the model's own fields `params` and `env`. -/
structure State where
  /-- CTRL[3:0]: STRICT, IE_DONE, IE_ERR, IE_OVF from bit 0 up. Bits [31:4] read 0 (R25). -/
  ctrl : BitVec 4
  /-- ARG (R27). -/
  arg : Word
  /-- RES0 (R28). -/
  res0 : Word
  /-- RES1 (R28). -/
  res1 : Word
  /-- RES2 (R28). -/
  res2 : Word
  /-- RES3 (R28). -/
  res3 : Word
  /-- STATE (R24). -/
  st : SeqState
  /-- CMDP, a command is pending (R26). -/
  cmdp : Bool
  /-- PCMD, the command word latched last (R26). -/
  pcmd : Word
  /-- DONE (R23). -/
  done : Bool
  /-- OVF (R23). -/
  ovf : Bool
  /-- ERRCODE (R23). -/
  errcode : ErrCode
  /-- ERRINFO (R33). -/
  errinfo : Word
  /-- FT: the present symbols with their frequencies (R36). -/
  ft : Table Word
  /-- NODE: the entries with id below TNODES, by id. TNODES is the length (R37, R39, log entry 5). -/
  nodes : List Node
  /-- TROOT, the id of the root (R39). -/
  troot : NodeId
  /-- TVALID (R39). -/
  tvalid : Bool
  /-- CT: the entries other than (len 0, val 0) (R40). -/
  ct : Table Code
  /-- CVALID (R40). -/
  cvalid : Bool
  /-- DPRE and DSUF of the assigned codes, THE NEWEST FIRST: the head is code NEXT - 1 and the last is code 256. NEXT is 256 plus the length (R41, log entry 5). -/
  dict : List DictEntry
  /-- CUR, the code of the encoder's current match (R43). -/
  cur : LzwCode
  /-- HASCUR, the current match is not empty (R43). -/
  hascur : Bool
  /-- PREV, the code the decoder processed last (R44). -/
  prev : LzwCode
  /-- HASPREV, a first code has been processed (R44). -/
  hasprev : Bool
  /-- LO, the first byte of a code whose second byte has not arrived (R45). -/
  lo : Byte
  /-- HAVELO, LO holds a byte (R45). -/
  havelo : Bool
  /-- STRICT_L, the strict mode of the session (R46). -/
  strictL : Bool
  /-- INCNT (R32). -/
  incnt : Word
  /-- OUTCNT (R32). -/
  outcnt : Word
  /-- INQ, the next beat first (R47). -/
  inq : List InBeat
  /-- EMIT, the oldest beat first (R47). -/
  emit : List OutBeat
  /-- OUTQ, the next beat to pop first (R47). -/
  outq : List OutBeat
  /-- The model's own: IN_DEPTH and OUT_DEPTH (00_scope.md R6, log entry 4). -/
  params : Config.Params
  /-- The model's own: the host and the order of steps (log entries 1 and 2). -/
  env : Env
deriving DecidableEq, Repr

/-- Why a step stops with a fault. No run from reset reaches one: both are safe. The errors of 60_exceptions.md are NOT faults, they are recorded in a next state. -/
inductive Fault where
  /-- Raised by HGEN when the arena is no tree in the sense of 10_state.md R38, where the walk of 42_huffman_code.md R160 would read outside the arena or not end. Safe (log entry 7). -/
  | brokenTree
  /-- Raised by DLOOK and by a DEC beat when a code's chain of DPRE does not fall to a base code, where `seq` of 10_state.md R42 would not be defined. Safe (log entry 8). -/
  | brokenDictionary
deriving DecidableEq, Repr

/-- Why a step refuses. -/
inductive Refusal where
  /-- Raised by `exec` for a command that has no meaning yet. Safe. Every command has its meaning, so no arm raises it. -/
  | notModelled (mnemonic : String)
deriving DecidableEq, Repr

/-- What a meaning answers. -/
abbrev Answer := Host.Outcome State Fault Refusal

/-- The host with nothing to do, the default order of steps and nothing observed (log entries 1 and 2). -/
def Env.silent : Env := { script := [], turns := [], log := [] }

/-- The state after reset (10_state.md R50). NODE, DPRE and DSUF are unobservable then, so nothing is held of them. -/
def State.reset : State where
  ctrl := 0#4
  arg := 0#32
  res0 := 0#32
  res1 := 0#32
  res2 := 0#32
  res3 := 0#32
  st := .idle
  cmdp := false
  pcmd := 0#32
  done := false
  ovf := false
  errcode := .none
  errinfo := 0#32
  ft := []
  nodes := []
  troot := 0#17
  tvalid := false
  ct := []
  cvalid := false
  dict := []
  cur := 0#16
  hascur := false
  prev := 0#16
  hasprev := false
  lo := 0#8
  havelo := false
  strictL := false
  incnt := 0#32
  outcnt := 0#32
  inq := []
  emit := []
  outq := []
  params := Config.Params.sixtyFour
  env := Env.silent

end Sys2Proof.Machine
end

