-- ==== Sys2Proof/Machine/Ops.lean ====
section
/-! DEFINITION. The shared operations over the tables, the dictionary, the queues and the registers, error entry (60_exceptions.md R262) and the return from it (45_sequencer.md R252), and the reset event (70_reset_and_hazards.md R290). -/

namespace Sys2Proof.Machine

/-! ### Tables over the Symbols (FT and CT) -/

/-- Read an entry of a table: none is the default entry. -/
def Table.read {α : Type} : Table α → Symbol → Option α
  | [], _ => none
  | (k, v) :: rest, s => if k = s then some v else Table.read rest s

/-- Write `some v`, or with `none` the default entry, which is not listed. The Symbols stay strictly rising. -/
def Table.write {α : Type} : Table α → Symbol → Option α → Table α
  | [], s, some v => [(s, v)]
  | [], _, none => []
  | (k, w) :: rest, s, o =>
    if k < s then (k, w) :: Table.write rest s o
    else if k = s then
      match o with
      | some v => (s, v) :: rest
      | none => rest
    else
      match o with
      | some v => (s, v) :: (k, w) :: rest
      | none => (k, w) :: rest

/-- The canonical form: the Symbols strictly rising. -/
def Table.wf {α : Type} : Table α → Bool
  | [] => true
  | [_] => true
  | (k, _) :: (k', w) :: rest => decide (k < k') && Table.wf ((k', w) :: rest)

/-- The entry (len 0, val 0) of CT is the one that is not listed (10_state.md R40). -/
def Code.listed (c : Code) : Option Code := if c = ⟨0#16, 0⟩ then none else some c

/-- An entry of CT (10_state.md R40). -/
def ctEntry (ct : Table Code) (s : Symbol) : Code := (ct.read s).getD ⟨0#16, 0⟩

/-- `CT[s] <- c`. -/
def ctWrite (ct : Table Code) (s : Symbol) (c : Code) : Table Code := ct.write s c.listed

/-! ### The LZW dictionary (10_state.md R41, R42, 43_lzw.md R183, R185) -/

/-- NEXT of a dictionary: the number of entries and the next unused code (R41). -/
def Dict.next (d : List DictEntry) : Nat := Config.baseCodes + d.length

/-- DPRE and DSUF of an assigned code; none for a base code and at or above NEXT. -/
def Dict.entry : List DictEntry → Nat → Option DictEntry
  | [], _ => none
  | e :: older, c => if c = Dict.next older then some e else Dict.entry older c

/-- `seq(c)` of R42: none at or above NEXT, and where the chain of DPRE does not fall. -/
def Dict.seq : List DictEntry → Nat → Option (List Byte)
  | [], c => if c < Config.baseCodes then some [BitVec.ofNat 8 c] else none
  | e :: older, c =>
    if c = Dict.next older then
      match Dict.seq older e.pre.toNat with
      | some bytes => some (bytes ++ [e.suf])
      | none => none
    else Dict.seq older c

/-- `Lookup(p, b)` of 43_lzw.md R183: the least assigned code with this prefix code and suffix byte. -/
def Dict.lookup : List DictEntry → LzwCode → Byte → Option LzwCode
  | [], _, _ => none
  | e :: older, p, b =>
    match Dict.lookup older p b with
    | some c => some c
    | none => if e.pre = p ∧ e.suf = b then some (BitVec.ofNat 16 (Dict.next older)) else none

/-- The chains of DPRE fall: `DPRE[c] < c` for every assigned `c` (R41). -/
def Dict.wf : List DictEntry → Bool
  | [] => true
  | e :: older => decide (e.pre.toNat < Dict.next older) && Dict.wf older

/-- NEXT (10_state.md R29, R41). -/
def State.next (s : State) : Nat := Dict.next s.dict

/-- The dictionary is full and frozen: NEXT = 65536 (10_state.md R41). NEXT is never above 65536, so this is also "not NEXT < 65536". -/
def State.full (s : State) : Bool := decide (Config.dictCap ≤ s.next)

/-- `Insert(p, b)` of 43_lzw.md R185, used only when NEXT < 65536. -/
def State.insert (s : State) (p : LzwCode) (b : Byte) : State := { s with dict := ⟨p, b⟩ :: s.dict }

/-! ### Views of the Huffman tables -/

/-- TNODES, the number of nodes in the arena (10_state.md R31, R39). -/
def State.tnodes (s : State) : Nat := s.nodes.length

/-- NSYM, the number of present symbols (10_state.md R30). -/
def State.nsym (s : State) : Nat := s.ft.length

/-! ### Sequencer and queues -/

/-- A session state is ENC, DEC, PACK or UNPACK (45_sequencer.md R241). -/
def SeqState.inSession : SeqState → Bool
  | .idle => false
  | .enc => true
  | .dec => true
  | .pack => true
  | .unpack => true
  | .error => false

/-- `STATE <- x` (00_scope.md R8). -/
def State.enter (s : State) (x : SeqState) : State := { s with st := x }

/-- `Emit(b)` (20_memory.md R80): append to EMIT, and count a DATA beat in OUTCNT. -/
def State.emitBeat (s : State) (b : OutBeat) : State :=
  match b with
  | .data _ => { s with emit := s.emit ++ [b], outcnt := s.outcnt + 1#32 }
  | .fin => { s with emit := s.emit ++ [b] }
  | .aborted => { s with emit := s.emit ++ [b] }

/-- Emit a sequence of bytes as DATA beats, in order (43_lzw.md R201). -/
def State.emitBytes (s : State) : List Byte → State
  | [] => s
  | x :: rest => (s.emitBeat (.data (x.setWidth 16))).emitBytes rest

/-- `INCNT <- (INCNT + 1) mod 2^32` (10_state.md R32). -/
def State.countIn (s : State) : State := { s with incnt := s.incnt + 1#32 }

/-- A session start clears both beat counters (10_state.md R32). -/
def State.clearCounts (s : State) : State := { s with incnt := 0#32, outcnt := 0#32 }

/-- `HASCUR <- 0; HASPREV <- 0; HAVELO <- 0` (45_sequencer.md R252, R253). -/
def State.clearSession (s : State) : State := { s with hascur := false, hasprev := false, havelo := false }

/-- EXEC clears CMDP (45_sequencer.md R244). -/
def State.clearCmdp (s : State) : State := { s with cmdp := false }

/-- A CMD write latches the word (10_state.md R26). -/
def State.latch (s : State) (v : Word) : State := { s with pcmd := v, cmdp := true }

/-! ### Error entry, return and reset -/

/-- `ErrorEntry(code, info)` of 60_exceptions.md R262: the core's only exception. The first error is kept. -/
def State.errorEntry (s : State) (code : ErrCode) (info : Word) : State :=
  if s.st = .error then s
  else
    let marked := if s.st.inSession then s.emitBeat .aborted else s
    { marked with st := .error, errcode := code, errinfo := info }

/-- `raise E_X(info)`: error entry, and the raising action stops (00_scope.md R8). -/
def raise (code : ErrCode) (info : Word) (s : State) : Answer := .next (s.errorEntry code info)

/-- A command that is legal in IDLE only (45_sequencer.md R241): E_ILLSTATE in a session state, discarded in ERROR. -/
def idleOnly (s : State) (body : Answer) : Answer :=
  match s.st with
  | .idle => body
  | .error => .next s
  | .enc => raise .illState s.pcmd s
  | .dec => raise .illState s.pcmd s
  | .pack => raise .illState s.pcmd s
  | .unpack => raise .illState s.pcmd s

/-- A command that is legal in IDLE and in a session, and discarded in ERROR (45_sequencer.md R241). -/
def unlessError (s : State) (body : Answer) : Answer := if s.st = .error then .next s else body

/-- The return from ERROR to IDLE (45_sequencer.md R252, 60_exceptions.md R272), without the DONE that CLRERR adds. -/
def State.errorReturn (s : State) : State :=
  { s with st := .idle, errcode := .none, errinfo := 0#32, inq := [], hascur := false, hasprev := false, havelo := false }

/-- `Reset()` of 70_reset_and_hazards.md R290: every element of the core takes its reset value.
The parameters and the host are no elements of the core and stay (log entry 14). -/
def State.resetCore (s : State) : State := { State.reset with params := s.params, env := s.env }

end Sys2Proof.Machine
end

