-- ==== Sys2Proof/Machine/Operands.lean ====
section
/-! DEFINITION. The operands of a command (30_encoding.md R102) and its results (10_state.md R28). The immediate is in the decoded command; ARG and CTRL.STRICT are read when EXEC runs (20_memory.md R89). -/

namespace Sys2Proof.Machine

/-- ARG as the frequency of HSET (R102). -/
def State.argFrequency (s : State) : Word := s.arg

/-- ARG as the word index of HCODE (R102). -/
def State.argWordIndex (s : State) : Nat := s.arg.toNat

/-- ARG as the node id of HNODE: ids at or above TNODES are out of range, not illegal (R102). -/
def State.argNodeId (s : State) : Nat := s.arg.toNat

/-- CTRL.STRICT, sampled when ENC or DEC starts (10_state.md R25, R46). -/
def State.strictBit (s : State) : Bool := s.ctrl.getLsbD 0

/-- Write all four result registers (10_state.md R28). -/
def State.setRes (s : State) (r0 r1 r2 r3 : Word) : State := { s with res0 := r0, res1 := r1, res2 := r2, res3 := r3 }

/-- The byte of a DATA beat in the byte-input modes: `v[7:0]` (20_memory.md R77). -/
def payloadByte (v : Payload) : Byte := v.extractLsb' 0 8

/-- The code of two bytes of the stream, the first one low (20_memory.md R81, 44_serializer.md R223). -/
def pairCode (second first : Byte) : LzwCode := second ++ first

/-- Bits [32k+31 : 32k] of a code's value (42_huffman_code.md R168): `floor(val / 2^(32k)) mod 2^32`, the division written as a right shift. -/
def codeWord (val k : Nat) : Word := BitVec.ofNat 32 (val >>> (32 * k))

end Sys2Proof.Machine
end

