-- ==== Sys2Proof/Machine/Flags.lean ====
section
/-! DEFINITION. The status flags (10_state.md R35), STATUS (R23) and the interrupt output (R48). -/

namespace Sys2Proof.Machine

/-- `done()` (45_sequencer.md R249). -/
def State.setDone (s : State) : State := { s with done := true }

/-- A skipped insertion sets OVF (10_state.md R35). -/
def State.setOvf (s : State) : State := { s with ovf := true }

/-- HCLR and HSET make the tree and the code table stale (10_state.md R39, R40). -/
def State.staleTables (s : State) : State := { s with tvalid := false, cvalid := false }

/-- The encoding of STATE in STATUS[2:0] (10_state.md R23). -/
def SeqState.bits : SeqState → BitVec 3
  | .idle => 0#3
  | .enc => 1#3
  | .dec => 2#3
  | .pack => 3#3
  | .unpack => 4#3
  | .error => 7#3

/-- The encoding of ERRCODE in STATUS[11:8] (60_exceptions.md R260). -/
def ErrCode.bits : ErrCode → BitVec 4
  | .none => 0#4
  | .badOp => 1#4
  | .illState => 2#4
  | .empty => 3#4
  | .noTree => 4#4
  | .noTable => 5#4
  | .desync => 6#4
  | .dictOvf => 7#4
  | .io => 8#4
  | .trunc => 9#4
  | .cmdOvr => 10#4

/-- CTRL.IE_DONE (10_state.md R25). -/
def State.ieDone (s : State) : Bool := s.ctrl.getLsbD 1

/-- CTRL.IE_ERR (10_state.md R25). -/
def State.ieErr (s : State) : Bool := s.ctrl.getLsbD 2

/-- CTRL.IE_OVF (10_state.md R25). -/
def State.ieOvf (s : State) : Bool := s.ctrl.getLsbD 3

/-- The interrupt output IRQ, a level (10_state.md R48, 60_exceptions.md R274). -/
def State.irq (s : State) : Bool :=
  (s.done && s.ieDone) || (decide (s.st = .error) && s.ieErr) || (s.ovf && s.ieOvf)

/-- EMITP: EMIT is not empty (10_state.md R23). -/
def State.emitp (s : State) : Bool := !s.emit.isEmpty

/-- INNE: INQ is not empty (10_state.md R23). -/
def State.inne (s : State) : Bool := !s.inq.isEmpty

/-- STATUS as it reads (10_state.md R23), from bit 31 down: reserved, DFULL, INNE, EMITP, IRQ, ERRCODE, CVALID, TVALID, OVF, DONE, CMDP, STATE. -/
def State.status (s : State) : Word :=
  0#16 ++ BitVec.ofBool s.full ++ BitVec.ofBool s.inne ++ BitVec.ofBool s.emitp ++ BitVec.ofBool s.irq
    ++ s.errcode.bits ++ BitVec.ofBool s.cvalid ++ BitVec.ofBool s.tvalid ++ BitVec.ofBool s.ovf
    ++ BitVec.ofBool s.done ++ BitVec.ofBool s.cmdp ++ s.st.bits

/-- A write of `v` to STATUS clears DONE by `v[4]` and OVF by `v[5]`, and changes nothing else (10_state.md R23). -/
def State.writeStatus (s : State) (v : Word) : State :=
  { s with done := s.done && !v.getLsbD 4, ovf := s.ovf && !v.getLsbD 5 }

end Sys2Proof.Machine
end

