-- ==== Sys2Proof/Machine/Control.lean ====
section
/-! DEFINITION. The control commands NOP, SRST, CLRERR and ABORT (45_sequencer.md R250 to R253). -/

namespace Sys2Proof.Machine

/-- NOP (R250): legal in every state, sets DONE. -/
def execNop (s : State) : Answer := .next s.setDone

/-- SRST (R251): legal in every state, the reset event of 70_reset_and_hazards.md R290. -/
def execSrst (s : State) : Answer := .next s.resetCore

/-- CLRERR (R252): leaves ERROR; elsewhere it only sets DONE. -/
def execClrerr (s : State) : Answer :=
  if s.st = .error then .next s.errorReturn.setDone else .next s.setDone

/-- The session's end by ABORT (R253): the pending input is dropped and ABORTED is emitted. -/
def State.abortSession (s : State) : State :=
  (({ s with inq := [] } : State).emitBeat .aborted).clearSession.enter .idle

/-- ABORT (R253): ends a session; in IDLE it only sets DONE; discarded in ERROR (R241). -/
def execAbort (s : State) : Answer :=
  unlessError s (if s.st.inSession then .next s.abortSession.setDone else .next s.setDone)

end Sys2Proof.Machine
end

