-- ==== Sys2Proof/Machine/HuffTree.lean ====
section
/-! DEFINITION. The frequency table and the tree builder: HCLR, HSET, HGET, HBUILD and HNODE (41_huffman_tree.md). -/

namespace Sys2Proof.Machine

/-- HCLR (R130): clear the frequency table, the tree and the code table. -/
def execHclr (s : State) : Answer :=
  idleOnly s (.next { s.staleTables.setDone with ft := [], ct := [], nodes := [], troot := 0#17 })

/-- HSET (R131): put the symbol into the table with the frequency in ARG. -/
def execHset (sym : Symbol) (s : State) : Answer :=
  idleOnly s (.next { s.staleTables.setDone with ft := s.ft.write sym (some s.argFrequency) })

/-- HGET (R132): read one entry of the frequency table. -/
def execHget (sym : Symbol) (s : State) : Answer :=
  idleOnly s <|
    match s.ft.read sym with
    | some f => .next (s.setRes 1#32 f 0#32 0#32).setDone
    | none => .next (s.setRes 0#32 0#32 0#32 0#32).setDone

/-! ### The tree builder (R133 to R137) -/

/-- An id of the forest Q with its entry in the arena. -/
structure Ranked where
  id : Nat
  node : Node
deriving DecidableEq, Repr

/-- The priority order of R133: `(freq, minsym)`, compared lexicographically. -/
def Node.before (a b : Node) : Bool :=
  decide (a.freq < b.freq) || (decide (a.freq = b.freq) && decide (a.minsym < b.minsym))

/-- The id in Q with the least key, and Q without it (R134). -/
def takeLeast : List Ranked → Option (Ranked × List Ranked)
  | [] => none
  | x :: rest =>
    match takeLeast rest with
    | none => some (x, [])
    | some (m, others) => if x.node.before m.node then some (x, m :: others) else some (m, x :: others)

/-- The Leaf of a present symbol (R134). -/
def leafNode (sym : Symbol) (f : Word) : Node :=
  { leaf := true, sym := sym, left := 0#17, right := 0#17, freq := f.setWidth 48, minsym := sym }

/-- The Node that joins two trees, the first one extracted on the left (R134). -/
def joinNode (a b : Ranked) : Node :=
  { leaf := false
    sym := 0#16
    left := BitVec.ofNat 17 a.id
    right := BitVec.ofNat 17 b.id
    freq := a.node.freq + b.node.freq
    minsym := if a.node.minsym < b.node.minsym then a.node.minsym else b.node.minsym }

/-- The loop of R134: while two trees remain, take the two with the least keys and join them.
Answers the arena and the id of the last tree. The first argument is how often the loop may still look at Q; as many times as Q has trees is enough. -/
def joinAll : Nat → List Ranked → List Node → List Node × Nat
  | 0, _, arena => (arena, 0)
  | fuel + 1, q, arena =>
    match takeLeast q with
    | none => (arena, 0)
    | some (a, q1) =>
      match takeLeast q1 with
      | none => (arena, a.id)
      | some (b, q2) => joinAll fuel (⟨arena.length, joinNode a b⟩ :: q2) (arena ++ [joinNode a b])

/-- The leaves, in ascending order of Symbol (R134, R139). -/
def leavesOf (ft : Table Word) : List Node := ft.map fun e => leafNode e.1 e.2

/-- The forest Q of the leaves with their ids (R134). -/
def forestOf (leaves : List Node) : List Ranked := leaves.zipIdx.map fun e => ⟨e.2, e.1⟩

/-- The tree of a frequency table (R134): the arena and the id of the root. -/
def buildTree (ft : Table Word) : List Node × Nat :=
  joinAll ft.length (forestOf (leavesOf ft)) (leavesOf ft)

/-- HBUILD (R134): build the tree from the frequency table; E_EMPTY with no symbol present (R138). -/
def execHbuild (s : State) : Answer :=
  idleOnly s <|
    if s.nsym = 0 then raise .empty 0#32 s
    else
      let built := buildTree s.ft
      let planted : State :=
        { s with nodes := built.1, troot := BitVec.ofNat 17 built.2, tvalid := true, cvalid := false }
      .next (planted.setRes (BitVec.ofNat 32 built.2) (BitVec.ofNat 32 s.nsym) (BitVec.ofNat 32 built.1.length) 0#32).setDone

/-- RES0 of HNODE (R140): bit 31 says the id is a node, bit 30 that it is a leaf, bits [16:0] hold the symbol or the left child. -/
def nodeWord0 (n : Node) : Word :=
  1#1 ++ BitVec.ofBool n.leaf ++ 0#13 ++ (if n.leaf then n.sym.setWidth 17 else n.left)

/-- RES3 of HNODE (R140): minsym, then the high 16 bits of the frequency. -/
def nodeWord3 (n : Node) : Word := n.minsym ++ n.freq.extractLsb' 32 16

/-- HNODE (R140): read the node whose id is in ARG; E_NOTREE without a valid tree. -/
def execHnode (s : State) : Answer :=
  idleOnly s <|
    if s.tvalid then
      match s.nodes[s.argNodeId]? with
      | some n => .next (s.setRes (nodeWord0 n) (n.right.setWidth 32) (n.freq.extractLsb' 0 32) (nodeWord3 n)).setDone
      | none => .next (s.setRes 0#32 0#32 0#32 0#32).setDone
    else raise .noTree s.pcmd s

end Sys2Proof.Machine
end

