-- ==== Sys2Proof/Machine/HuffCode.lean ====
section
/-! DEFINITION. The code-table generator: HGEN and HCODE (42_huffman_code.md). -/

namespace Sys2Proof.Machine

/-- `walk(i, l, v)` of R160: the codes of the leaves below node `i`, reached at depth `l` by the path bits `v`, '0' to the left and '1' to the right.
The second argument bounds the depth; as much as TNODES is enough, because a child has a smaller id than its parent (R139). None where the arena is no tree (log entry 7). -/
def walk (nodes : List Node) : Nat → Nat → Nat → Nat → Option (List (Symbol × Code))
  | 0, _, _, _ => none
  | fuel + 1, i, l, v =>
    match nodes[i]? with
    | none => none
    | some n =>
      if n.leaf then some [(n.sym, ⟨BitVec.ofNat 16 l, v⟩)]
      else
        match walk nodes fuel n.left.toNat (l + 1) (2 * v), walk nodes fuel n.right.toNat (l + 1) (2 * v + 1) with
        | some below0, some below1 => some (below0 ++ below1)
        | some _, none => none
        | none, _ => none

/-- The codes HGEN records (R160): the one-bit code "0" when the root is a leaf (R162), else those of the walk from the root. -/
def leafCodes (nodes : List Node) (root : Nat) : Option (List (Symbol × Code)) :=
  match nodes[root]? with
  | none => none
  | some n => if n.leaf then some [(n.sym, ⟨1#16, 0⟩)] else walk nodes nodes.length root 0 0

/-- CT filled from the cleared table (R160). -/
def tableOf (codes : List (Symbol × Code)) : Table Code := codes.foldl (fun ct e => ctWrite ct e.1 e.2) []

/-- The code table of a tree; none where the arena is no tree. -/
def codeTable (nodes : List Node) (root : Nat) : Option (Table Code) :=
  match leafCodes nodes root with
  | some codes => some (tableOf codes)
  | none => none

/-- The leaves of the arena, by id. -/
def arenaLeaves (nodes : List Node) : List Node := nodes.filter fun n => n.leaf

/-- MAXLEN (R160): the longest code of a leaf. -/
def maxLen (nodes : List Node) (ct : Table Code) : Nat :=
  (arenaLeaves nodes).foldl (fun m n => max m (ctEntry ct n.sym).len.toNat) 0

/-- WSUM (R160): the exact weighted length, which fits 64 bits (R163). -/
def weightedSum (nodes : List Node) (ct : Table Code) : Nat :=
  (arenaLeaves nodes).foldl (fun w n => w + n.freq.toNat * (ctEntry ct n.sym).len.toNat) 0

/-- HGEN (R160): fill the code table from the tree; E_NOTREE without a valid tree. -/
def execHgen (s : State) : Answer :=
  idleOnly s <|
    if s.tvalid then
      match codeTable s.nodes s.troot.toNat with
      | none => .fault .brokenTree
      | some ct =>
        let wsum : BitVec 64 := BitVec.ofNat 64 (weightedSum s.nodes ct)
        .next
          (({ s with ct := ct, cvalid := true } : State).setRes (BitVec.ofNat 32 (maxLen s.nodes ct))
            (BitVec.ofNat 32 (arenaLeaves s.nodes).length) (wsum.extractLsb' 0 32) (wsum.extractLsb' 32 32)).setDone
    else raise .noTree s.pcmd s

/-- HCODE (R168): read 32 bits of a symbol's code, at the word index in ARG; E_NOTABLE without a valid table. -/
def execHcode (sym : Symbol) (s : State) : Answer :=
  idleOnly s <|
    if s.cvalid then
      let e := ctEntry s.ct sym
      .next (s.setRes (e.len.setWidth 32) (codeWord e.val s.argWordIndex) 0#32 0#32).setDone
    else raise .noTable s.pcmd s

end Sys2Proof.Machine
end

