-- ==== Sys2Proof/Machine/Serializer.lean ====
section
/-! DEFINITION. The code-stream serializer: PACK, UNPACK, their beats, and the primitives the LZW coder shares (44_serializer.md). -/

namespace Sys2Proof.Machine

/-- PACK (R220): start a serializer-write session. -/
def execPack (s : State) : Answer := idleOnly s (.next (s.clearCounts.enter .pack))

/-- UNPACK (R221): start a serializer-read session. -/
def execUnpack (s : State) : Answer :=
  idleOnly s (.next (({ s with lo := 0#8, havelo := false } : State).clearCounts.enter .unpack))

/-- `SerWrite(c)` (R222): the low byte, then the high byte. -/
def State.serWrite (s : State) (c : LzwCode) : State :=
  (s.emitBeat (.data ((c.extractLsb' 0 8).setWidth 16))).emitBeat (.data ((c.extractLsb' 8 8).setWidth 16))

/-- The end of a session by its END beat: END is emitted, STATE <- IDLE, done() (R225, R228, 43_lzw.md R196, R205). -/
def State.finish (s : State) : State := ((s.emitBeat .fin).enter .idle).setDone

/-- An ERR or RSV beat in a session: E_IO(1) or E_IO(3) (R229, 43_lzw.md R197, R206, 60_exceptions.md R266). -/
def sourceError (s : State) : Answer := raise .io 1#32 s

/-- The RSV beat (60_exceptions.md R266). -/
def reservedBeat (s : State) : Answer := raise .io 3#32 s

/-- PACK, beat DATA (R224): serialize one code. -/
def packData (v : Payload) (s : State) : Answer := .next (s.countIn.serWrite v)

/-- PACK, beat END (R225). -/
def packEnd (s : State) : Answer := .next s.finish

/-- UNPACK, beat DATA (R227): pair the bytes of the stream into codes. -/
def unpackData (v : Payload) (s : State) : Answer :=
  if s.havelo then
    .next (({ s.countIn with havelo := false } : State).emitBeat (.data (pairCode (payloadByte v) s.lo)))
  else .next { s.countIn with lo := payloadByte v, havelo := true }

/-- An END beat with a half-received code: E_TRUNC with the odd byte (R226). -/
def truncated (s : State) : Answer := raise .trunc (s.lo.setWidth 32) s

/-- UNPACK, beat END (R228). -/
def unpackEnd (s : State) : Answer := if s.havelo then truncated s else .next s.finish

end Sys2Proof.Machine
end

