-- ==== Sys2Proof/Machine/Lzw.lean ====
section
/-! DEFINITION. The LZW coder: ENC, DEC, DLOOK and the beats of the ENC and DEC sessions (43_lzw.md). -/

namespace Sys2Proof.Machine

/-- ENC (R180): start an encode session with the base dictionary and an empty match. -/
def execEnc (s : State) : Answer :=
  idleOnly s
    (.next (({ s with dict := [], cur := 0#16, hascur := false, strictL := s.strictBit } : State).clearCounts.enter .enc))

/-- DEC (R181): start a decode session with the base dictionary. -/
def execDec (s : State) : Answer :=
  idleOnly s
    (.next
      (({ s with dict := [], prev := 0#16, hasprev := false, lo := 0#8, havelo := false, strictL := s.strictBit } :
          State).clearCounts.enter .dec))

/-- RES0 of DLOOK (R182): bit 31 says the code is assigned, bit 30 that it is a base code, bits [15:0] hold DPRE. -/
def lookWord0 (d : List DictEntry) (c : LzwCode) : Word :=
  match Dict.entry d c.toNat with
  | some e => 1#1 ++ 0#1 ++ 0#14 ++ e.pre
  | none => 1#1 ++ 1#1 ++ 0#14 ++ 0#16

/-- DSUF of an assigned code, the code itself for a base code (R182). -/
def lookSuffix (d : List DictEntry) (c : LzwCode) : Byte :=
  match Dict.entry d c.toNat with
  | some e => e.suf
  | none => c.extractLsb' 0 8

/-- RES1 of DLOOK (R182): the first byte of the sequence, then the suffix byte. -/
def lookWord1 (first suffix : Byte) : Word := 0#16 ++ first ++ suffix

/-- DLOOK (R182): read one dictionary entry. -/
def execDlook (code : LzwCode) (s : State) : Answer :=
  idleOnly s <|
    if s.next ≤ code.toNat then .next (s.setRes 0#32 0#32 0#32 0#32).setDone
    else
      match Dict.seq s.dict code.toNat with
      | some (first :: rest) =>
        .next
          (s.setRes (lookWord0 s.dict code) (lookWord1 first (lookSuffix s.dict code))
            (BitVec.ofNat 32 (first :: rest).length) 0#32).setDone
      | some [] => .fault .brokenDictionary
      | none => .fault .brokenDictionary

/-! ### Encoder beats -/

/-- The current match restarts as `[b]`, the base code of `b` (R190, R191). -/
def State.restartMatch (s : State) (b : Byte) : State := { s with cur := b.setWidth 16, hascur := true }

/-- A byte that extends a non-empty match (R190): hit (R192), miss with room (R193), miss when full (R194, R195). -/
def encExtend (b : Byte) (s : State) : Answer :=
  match Dict.lookup s.dict s.cur b with
  | some c => .next { s with cur := c }
  | none =>
    if s.full then
      if s.strictL then raise .dictOvf (b.setWidth 32) s
      else .next ((s.serWrite s.cur).setOvf.restartMatch b)
    else .next (((s.serWrite s.cur).insert s.cur b).restartMatch b)

/-- ENC, beat DATA (R190): encode one byte. -/
def encData (v : Payload) (s : State) : Answer :=
  if s.hascur then encExtend (payloadByte v) s.countIn else .next (s.countIn.restartMatch (payloadByte v))

/-- ENC, beat END (R196): emit the code of a non-empty match, then END. -/
def encEnd (s : State) : Answer :=
  let flushed := if s.hascur then s.serWrite s.cur else s
  .next ({ flushed with hascur := false } : State).finish

/-! ### Decoder beats -/

/-- The sequence of a code that has an entry, or is the next one to be assigned (R201, R207): none where `seq` is not defined. -/
def expansion (s : State) (c : LzwCode) : Option (List Byte) :=
  if c.toNat < s.next then Dict.seq s.dict c.toNat
  else
    match Dict.seq s.dict s.prev.toNat with
    | some (first :: rest) => some (first :: rest ++ [first])
    | some [] => none
    | none => none

/-- The insertion after a code but the first (R203): frozen when the dictionary is full. -/
def State.growDecoder (s : State) (first : Byte) : State :=
  if s.full then s.setOvf else s.insert s.prev first

/-- A code after the first, by R201 from `if NEXT = 65536 and STRICT_L = 1` on. -/
def decodeLater (c : LzwCode) (s : State) : Answer :=
  if s.full && s.strictL then raise .dictOvf (c.setWidth 32) s
  else if s.next < c.toNat then raise .desync (c.setWidth 32) s
  else
    match expansion s c with
    | some (first :: rest) => .next { (s.emitBytes (first :: rest)).growDecoder first with prev := c }
    | some [] => .fault .brokenDictionary
    | none => .fault .brokenDictionary

/-- `Decode(c)` of R201. -/
def decodeCode (c : LzwCode) (s : State) : Answer :=
  if s.hasprev then decodeLater c s
  else if Config.baseCodes ≤ c.toNat then raise .desync (c.setWidth 32) s
  else .next { s.emitBeat (.data c) with prev := c, hasprev := true }

/-- DEC, beat DATA (R200): pair the bytes into codes and decode them. -/
def decData (v : Payload) (s : State) : Answer :=
  if s.havelo then decodeCode (pairCode (payloadByte v) s.lo) { s.countIn with havelo := false }
  else .next { s.countIn with lo := payloadByte v, havelo := true }

/-- DEC, beat END (R205): E_TRUNC with a half-received code. -/
def decEnd (s : State) : Answer :=
  if s.havelo then truncated s else .next ({ s with hasprev := false } : State).finish

end Sys2Proof.Machine
end

