-- ==== Sys2Proof/Machine/Dispatch.lean ====
section
/-! DEFINITION. `execute(w)` of 45_sequencer.md R244: one arm per command, one meaning per arm. -/

namespace Sys2Proof.Machine

def exec (i : Instr) (s : State) : Host.Outcome State Fault Refusal :=
  match i with
  | .nop => Sys2Proof.Machine.execNop s
  | .srst => Sys2Proof.Machine.execSrst s
  | .clrerr => Sys2Proof.Machine.execClrerr s
  | .abort => Sys2Proof.Machine.execAbort s
  | .hclr => Sys2Proof.Machine.execHclr s
  | .hset sym => Sys2Proof.Machine.execHset sym s
  | .hget sym => Sys2Proof.Machine.execHget sym s
  | .hbuild => Sys2Proof.Machine.execHbuild s
  | .hgen => Sys2Proof.Machine.execHgen s
  | .hcode sym => Sys2Proof.Machine.execHcode sym s
  | .hnode => Sys2Proof.Machine.execHnode s
  | .enc => Sys2Proof.Machine.execEnc s
  | .dec => Sys2Proof.Machine.execDec s
  | .pack => Sys2Proof.Machine.execPack s
  | .unpack => Sys2Proof.Machine.execUnpack s
  | .dlook code => Sys2Proof.Machine.execDlook code s

end Sys2Proof.Machine
end

