-- ==== Sys2Proof/WellFormed.lean ====
section
/-! DEFINITION. Well-formed command words (30_encoding.md R104), commands and host assembly lines (R107, R108).

A term of `Instr` carries its immediate in its own width, so no term of `Instr` is ill formed.
What can be ill formed is a command WORD and a LINE of host assembly, and both have their check here. -/

namespace Sys2Proof

/-- The opcodes of 30_encoding.md R103. -/
def opcodes : List (BitVec 8) :=
  [0x00#8, 0x01#8, 0x02#8, 0x03#8, 0x10#8, 0x11#8, 0x12#8, 0x13#8, 0x14#8, 0x15#8, 0x16#8,
   0x20#8, 0x21#8, 0x22#8, 0x23#8, 0x24#8]

/-- The opcodes of format S (R104). -/
def opcodesS : List (BitVec 8) := [0x11#8, 0x12#8, 0x15#8, 0x24#8]

/-- `wellformed(w)`, the three conditions of R104. -/
def wordWellFormed (w : Word) : Bool :=
  let op := w.extractLsb' 24 8
  opcodes.contains op && w.extractLsb' 16 8 == 0#8
    && (opcodesS.contains op || w.extractLsb' 0 16 == 0#16)

/-- The format of a command (R103). -/
def Mnemonic.format : Mnemonic → Format
  | .hset => .s
  | .hget => .s
  | .hcode => .s
  | .dlook => .s
  | .nop => .n
  | .srst => .n
  | .clrerr => .n
  | .abort => .n
  | .hclr => .n
  | .hbuild => .n
  | .hgen => .n
  | .hnode => .n
  | .enc => .n
  | .dec => .n
  | .pack => .n
  | .unpack => .n

/-- A `CMD` line gives an immediate of at most 0xFFFF to a format S command and none to a format N command (R108). -/
def cmdOperandWellFormed (m : Mnemonic) (imm : Option Nat) : Bool :=
  match m.format, imm with
  | .n, none => true
  | .s, some k => decide (k < 2 ^ 16)
  | .n, some _ => false
  | .s, none => false

/-- A line of host assembly whose numbers fit the widths they are written to (R107, R108). -/
def Line.wellFormed : Line → Bool
  | .wr _ v => decide (v < 2 ^ 32)
  | .rd _ => true
  | .push v => decide (v < 2 ^ 16)
  | .pushEnd => true
  | .pushErr => true
  | .pop => true
  | .sinkErr => true
  | .reset => true
  | .cmd m imm => cmdOperandWellFormed m imm
  | .waitCmd => true
  | .hsetf sym f => decide (sym < 2 ^ 16) && decide (f < 2 ^ 32)
  | .pushs text => text.all fun c => decide (c.toNat < 128)
  | .pushb bytes => bytes.all fun b => decide (b < 256)
  | .popAll => true

end Sys2Proof
end

