-- ==== Sys2Proof/Decode.lean ====
section
/-! DEFINITION. The decoder of command words, total and rejecting by name (30_encoding.md R100 to R105), the encoder, the beat kinds of the stream ports (R106) and the offsets of the registers (10_state.md R21). -/

namespace Sys2Proof

/-- Why a word is not a command: the three conditions of R104, in their order. -/
inductive Reject where
  /-- the opcode is reserved: 0x04 to 0x0F, 0x17 to 0x1F, 0x25 to 0xFF. -/
  | reservedOpcode (op : BitVec 8)
  /-- bits [23:16] are not 0. -/
  | reservedBits
  /-- a format N command with bits [15:0] not 0. -/
  | immediateInFormatN
deriving DecidableEq, Repr

/-- Bits [31:24], OP (R100). -/
def opField (w : Word) : BitVec 8 := w.extractLsb' 24 8

/-- Bits [23:16], RSV (R100). -/
def rsvField (w : Word) : BitVec 8 := w.extractLsb' 16 8

/-- Bits [15:0], IMM (R100, R102). -/
def immField (w : Word) : BitVec 16 := w.extractLsb' 0 16

/-- The command of an opcode of R103 with its immediate. A format N command drops the immediate, which `decode` has checked. -/
def commandOf (op : BitVec 8) (imm : BitVec 16) : Option (Format × Instr) :=
  match op.toNat with
  | 0x00 => some (.n, .nop)
  | 0x01 => some (.n, .srst)
  | 0x02 => some (.n, .clrerr)
  | 0x03 => some (.n, .abort)
  | 0x10 => some (.n, .hclr)
  | 0x11 => some (.s, .hset imm)
  | 0x12 => some (.s, .hget imm)
  | 0x13 => some (.n, .hbuild)
  | 0x14 => some (.n, .hgen)
  | 0x15 => some (.s, .hcode imm)
  | 0x16 => some (.n, .hnode)
  | 0x20 => some (.n, .enc)
  | 0x21 => some (.n, .dec)
  | 0x22 => some (.n, .pack)
  | 0x23 => some (.n, .unpack)
  | 0x24 => some (.s, .dlook imm)
  | _ => none

/-- Decode a command word by the conditions of R104, in their order. -/
def decode (w : Word) : Except Reject Instr :=
  match commandOf (opField w) (immField w) with
  | none => .error (.reservedOpcode (opField w))
  | some (fmt, i) =>
    if rsvField w ≠ 0#8 then .error .reservedBits
    else match fmt with
      | .s => .ok i
      | .n => if immField w ≠ 0#16 then .error .immediateInFormatN else .ok i

/-- The opcode of a command (R103). -/
def opcodeOf : Instr → BitVec 8
  | .nop => 0x00#8
  | .srst => 0x01#8
  | .clrerr => 0x02#8
  | .abort => 0x03#8
  | .hclr => 0x10#8
  | .hset _ => 0x11#8
  | .hget _ => 0x12#8
  | .hbuild => 0x13#8
  | .hgen => 0x14#8
  | .hcode _ => 0x15#8
  | .hnode => 0x16#8
  | .enc => 0x20#8
  | .dec => 0x21#8
  | .pack => 0x22#8
  | .unpack => 0x23#8
  | .dlook _ => 0x24#8

/-- The immediate of a command: 0 for format N (R100). -/
def immOf : Instr → BitVec 16
  | .nop => 0#16
  | .srst => 0#16
  | .clrerr => 0#16
  | .abort => 0#16
  | .hclr => 0#16
  | .hset sym => sym
  | .hget sym => sym
  | .hbuild => 0#16
  | .hgen => 0#16
  | .hcode sym => sym
  | .hnode => 0#16
  | .enc => 0#16
  | .dec => 0#16
  | .pack => 0#16
  | .unpack => 0#16
  | .dlook code => code

/-- Encode a command as `OP | 0x00 | IMM` (R101). -/
def encode (i : Instr) : Word := opcodeOf i ++ 0#8 ++ immOf i

/-- The instruction the decoder reads from a table word: one 32-bit command word (R105), the bits above `nbits` zero. -/
def decodeTableWord (nbits w : Nat) : Option Instr :=
  match decode (BitVec.ofNat 32 (w % 2 ^ nbits)) with
  | .ok i => some i
  | .error _ => none

/-- The beat the input port carries as a 2-bit kind and a 16-bit payload (20_memory.md R75, R106). -/
def InBeat.ofPort (kind : BitVec 2) (v : Payload) : InBeat :=
  match kind.toNat with
  | 0 => .data v
  | 1 => .fin
  | 2 => .err
  | _ => .rsv

/-- The kind of an output beat: 0 DATA, 1 END, 2 ABORTED (20_memory.md R76, R106). -/
def OutBeat.kind : OutBeat → BitVec 2
  | .data _ => 0#2
  | .fin => 1#2
  | .aborted => 2#2

/-- A beat that ends a session's output: END or ABORTED (30_encoding.md R108, POPALL). -/
def OutBeat.ends : OutBeat → Bool
  | .data _ => false
  | .fin => true
  | .aborted => true

/-- The register at a word of the window, word `w` at offset `4*w` (10_state.md R21, 20_memory.md R72). -/
def Reg.ofIndex (w : RegIndex) : Reg :=
  match w.toNat with
  | 0 => .id
  | 1 => .ctrl
  | 2 => .status
  | 3 => .cmd
  | 4 => .arg
  | 5 => .res0
  | 6 => .res1
  | 7 => .res2
  | 8 => .res3
  | 9 => .dsize
  | 10 => .nsym
  | 11 => .troot
  | 12 => .tnodes
  | 13 => .incnt
  | 14 => .outcnt
  | _ => .errinfo

/-- The register a byte offset reaches: bits [1:0] are ignored (20_memory.md R72). -/
def Reg.ofOffset (off : Offset) : Reg := Reg.ofIndex (off.extractLsb' 2 4)

/-- The offset of a register (10_state.md R21). -/
def Reg.offset : Reg → Offset
  | .id => 0x00#6
  | .ctrl => 0x04#6
  | .status => 0x08#6
  | .cmd => 0x0C#6
  | .arg => 0x10#6
  | .res0 => 0x14#6
  | .res1 => 0x18#6
  | .res2 => 0x1C#6
  | .res3 => 0x20#6
  | .dsize => 0x24#6
  | .nsym => 0x28#6
  | .troot => 0x2C#6
  | .tnodes => 0x30#6
  | .incnt => 0x34#6
  | .outcnt => 0x38#6
  | .errinfo => 0x3C#6

/-- The opcode a mnemonic names (30_encoding.md R103). -/
def Mnemonic.opcode : Mnemonic → BitVec 8
  | .nop => 0x00#8
  | .srst => 0x01#8
  | .clrerr => 0x02#8
  | .abort => 0x03#8
  | .hclr => 0x10#8
  | .hset => 0x11#8
  | .hget => 0x12#8
  | .hbuild => 0x13#8
  | .hgen => 0x14#8
  | .hcode => 0x15#8
  | .hnode => 0x16#8
  | .enc => 0x20#8
  | .dec => 0x21#8
  | .pack => 0x22#8
  | .unpack => 0x23#8
  | .dlook => 0x24#8

end Sys2Proof
end

