-- ==== Sys2Proof/Machine/HostPort.lean ====
section
/-! DEFINITION. What the host does to the core: register reads and writes, push, pop, SINK_ERR and RST (20_memory.md R72 to R79). -/

namespace Sys2Proof.Machine

/-- `MemRead(off, 4)` (R72): the register the offset reaches (10_state.md R21). -/
def State.readReg (s : State) (off : Offset) : Word :=
  match Reg.ofOffset off with
  | .id => Config.idValue
  | .ctrl => s.ctrl.setWidth 32
  | .status => s.status
  | .cmd => 0#32
  | .arg => s.arg
  | .res0 => s.res0
  | .res1 => s.res1
  | .res2 => s.res2
  | .res3 => s.res3
  | .dsize => BitVec.ofNat 32 s.next
  | .nsym => BitVec.ofNat 32 s.nsym
  | .troot => s.troot.setWidth 32
  | .tnodes => BitVec.ofNat 32 s.tnodes
  | .incnt => s.incnt
  | .outcnt => s.outcnt
  | .errinfo => s.errinfo

/-- A write to CMD (R73): latch the word, or with one pending raise E_CMDOVR (60_exceptions.md R268). -/
def State.writeCmd (s : State) (v : Word) : State :=
  if s.cmdp then s.errorEntry .cmdOvr v else s.latch v

/-- `MemWrite(off, 4, v)` (R73). -/
def State.writeReg (s : State) (off : Offset) (v : Word) : State :=
  match Reg.ofOffset off with
  | .ctrl => { s with ctrl := v.extractLsb' 0 4 }
  | .status => s.writeStatus v
  | .cmd => s.writeCmd v
  | .arg => { s with arg := v }
  | .id => s
  | .res0 => s
  | .res1 => s
  | .res2 => s
  | .res3 => s
  | .dsize => s
  | .nsym => s
  | .troot => s
  | .tnodes => s
  | .incnt => s
  | .outcnt => s
  | .errinfo => s

/-- push is enabled when INQ has room (R75). -/
def State.canPush (s : State) : Bool := decide (s.inq.length < s.params.inDepth)

/-- push a beat (R75). -/
def State.pushBeat (s : State) (b : InBeat) : State := { s with inq := s.inq ++ [b] }

/-- SINK_ERR (R78): E_IO(2) in a session state, no effect elsewhere. -/
def State.sinkError (s : State) : State := if s.st.inSession then s.errorEntry .io 2#32 else s

/-- Record what the host observed. -/
def State.observe (s : State) (o : Obs) : State := { s with env := { s.env with log := s.env.log ++ [o] } }

/-- The beats the host has popped, in order: with the state, the outcome of a run (45_sequencer.md R254). -/
def State.popped (s : State) : List OutBeat :=
  s.env.log.filterMap fun o =>
    match o with
    | .beat b => some b
    | .value _ _ => none

/-- The host goes on to the rest of its actions. -/
def State.withScript (s : State) (rest : List HostAct) : State := { s with env := { s.env with script := rest } }

/-- The masked bits of a polled register are as wanted (30_encoding.md R108, WAITCMD). -/
def pollMet (v mask want : Word) : Bool := decide (v &&& mask = want &&& mask)

/-- Perform the host action `a`, after which the host goes on with `rest`.
An action that is not enabled (push on a full INQ, pop on an empty OUTQ) waits: the state is unchanged and the action stays next. -/
def performHost (a : HostAct) (rest : List HostAct) (s : State) : State :=
  match a with
  | .read off => (s.observe (.value off (s.readReg off))).withScript rest
  | .write off v => (s.writeReg off v).withScript rest
  | .push b => if s.canPush then (s.pushBeat b).withScript rest else s
  | .pop =>
    match s.outq with
    | [] => s
    | b :: others => (({ s with outq := others } : State).observe (.beat b)).withScript rest
  | .sinkError => s.sinkError.withScript rest
  | .reset => s.resetCore.withScript rest
  | .readUntil off mask want =>
    let seen := s.observe (.value off (s.readReg off))
    if pollMet (s.readReg off) mask want then seen.withScript rest else seen
  | .popAll =>
    match s.outq with
    | [] => s
    | b :: others =>
      let popped := ({ s with outq := others } : State).observe (.beat b)
      if b.ends then popped.withScript rest else popped

/-- The host's next action, if it has one left (45_sequencer.md R243). -/
def hostStep (s : State) : State :=
  match s.env.script with
  | [] => s
  | a :: rest => performHost a rest s

end Sys2Proof.Machine
end

