-- ==== Sys2Proof/Machine/Sequencer.lean ====
section
/-! DEFINITION. The datapath multiplexer and the core's three steps EXEC, BEAT and DRAIN (45_sequencer.md R240, R242 to R247), and how the agents' steps follow each other (R243, log entry 2). -/

namespace Sys2Proof.Machine

/-- The command word that runs even while EMIT is not empty: SRST (R244). -/
def srstWord : Word := 0x01000000#32

/-- EXEC is enabled when a command is pending and EMIT is empty, or the command is SRST (R244). -/
def State.execEnabled (s : State) : Bool := s.cmdp && (s.emit.isEmpty || decide (s.pcmd = srstWord))

/-- BEAT is enabled in a session with no command pending, EMIT empty and input waiting (R246). -/
def State.beatEnabled (s : State) : Bool := s.st.inSession && !s.cmdp && s.emit.isEmpty && !s.inq.isEmpty

/-- DRAIN is enabled when EMIT is not empty and OUTQ has room (R247). -/
def State.drainEnabled (s : State) : Bool := !s.emit.isEmpty && decide (s.outq.length < s.params.outDepth)

/-- The core is quiescent, by the conditions R254 lists: no command pending, EMIT empty, and no session or no input.
A core whose OUTQ is full while EMIT is not empty is stuck, not quiescent (log entry 16). -/
def State.quiescent (s : State) : Bool := !s.cmdp && s.emit.isEmpty && (!s.st.inSession || s.inq.isEmpty)

/-- A host program's run has ended: the host has no action left and the core is quiescent (R254). -/
def State.runEnded (s : State) : Bool := s.env.script.isEmpty && s.quiescent

/-- A word that is not well formed: E_BADOP, or discarded in ERROR, which error entry does (30_encoding.md R104, R244). -/
def malformedCommand (s : State) : Answer := raise .badOp s.pcmd s

/-- EXEC (R244): clear CMDP, decode PCMD, and execute it. The legality of the command in STATE is checked by its meaning (log entry 15). -/
def execStep (execute : Instr → State → Answer) (s : State) : Answer :=
  match decode s.pcmd with
  | .ok i => execute i s.clearCmdp
  | .error _ => malformedCommand s.clearCmdp

/-- What an input beat does in STATE (R246). In IDLE and ERROR the core takes no beat. -/
def consume (b : InBeat) (s : State) : Answer :=
  match s.st, b with
  | .enc, .data v => encData v s
  | .enc, .fin => encEnd s
  | .enc, .err => sourceError s
  | .enc, .rsv => reservedBeat s
  | .dec, .data v => decData v s
  | .dec, .fin => decEnd s
  | .dec, .err => sourceError s
  | .dec, .rsv => reservedBeat s
  | .pack, .data v => packData v s
  | .pack, .fin => packEnd s
  | .pack, .err => sourceError s
  | .pack, .rsv => reservedBeat s
  | .unpack, .data v => unpackData v s
  | .unpack, .fin => unpackEnd s
  | .unpack, .err => sourceError s
  | .unpack, .rsv => reservedBeat s
  | .idle, _ => .next s
  | .error, _ => .next s

/-- BEAT (R246): remove the next input beat and process it. -/
def beatStep (s : State) : Answer :=
  match s.inq with
  | [] => .next s
  | b :: rest => consume b { s with inq := rest }

/-- DRAIN (R247): move one beat from EMIT to OUTQ. -/
def drainStep (s : State) : State :=
  match s.emit with
  | [] => s
  | b :: rest => { s with emit := rest, outq := s.outq ++ [b] }

/-- The default order when `turns` is empty: EXEC, BEAT, DRAIN, whichever is enabled first, else the host (log entry 2). -/
def State.defaultTurn (s : State) : Turn :=
  if s.execEnabled then .exec
  else if s.beatEnabled then .beat
  else if s.drainEnabled then .drain
  else .host

/-- The next turn and the turns after it. -/
def State.popTurn (s : State) : Turn × State :=
  match s.env.turns with
  | [] => (s.defaultTurn, s)
  | t :: rest => (t, { s with env := { s.env with turns := rest } })

/-- Take one turn. A step that is not enabled is not taken, and the state is unchanged. -/
def takeTurn (execute : Instr → State → Answer) (t : Turn) (s : State) : Answer :=
  match t with
  | .exec => if s.execEnabled then execStep execute s else .next s
  | .beat => if s.beatEnabled then beatStep s else .next s
  | .drain => if s.drainEnabled then .next (drainStep s) else .next s
  | .host => .next (hostStep s)

/-- One step of the whole machine: the next turn is taken. With no step enabled and no host action left the state stays as it is (R254, 60_exceptions.md R280, log entry 3). -/
def advance (execute : Instr → State → Answer) (s : State) : Answer :=
  takeTurn execute s.popTurn.1 s.popTurn.2

end Sys2Proof.Machine
end

