-- ==== Sys2Proof/Machine/Step.lean ====
section
/-! DEFINITION. The step of the machine, and the placing of a command word where the next step executes it. -/

namespace Sys2Proof.Machine

/-- One step: the next turn of the core or of the host (45_sequencer.md R242, R243; `Sequencer.advance`). -/
def step (s : State) : Host.Outcome State Fault Refusal := advance exec s

/-- `s` with the command word `w` pending and its EXEC step next: PCMD and CMDP as a CMD write leaves them, EMIT empty as EXEC needs it, and the turn EXEC first (log entry 13). -/
def State.withFetchWord (s : State) (nbits w : Nat) : State :=
  { s.latch (BitVec.ofNat 32 (w % 2 ^ nbits)) with
    emit := []
    env := { s.env with turns := .exec :: s.env.turns } }

end Sys2Proof.Machine
end

