-- ==== Sys2Proof/Machine/HostAsm.lean ====
section
/-! DEFINITION. The host assembly syntax (30_encoding.md R107) and its pseudo-instructions (R108), as the host actions they stand for. -/

namespace Sys2Proof.Machine

/-- `CMD <mnemonic>` and `CMD <mnemonic> <imm>`: the word `(OP << 24) | imm` (R108). -/
def cmdWord (m : Mnemonic) (imm : Option Nat) : Word := m.opcode ++ 0#8 ++ BitVec.ofNat 16 (imm.getD 0)

/-- `WR <reg>, <value>` (R107). -/
def writeAct (r : Reg) (v : Word) : HostAct := .write r.offset v

/-- `WAITCMD`: repeat `RD STATUS` until bit 3 (CMDP) reads 0 (R108). -/
def waitCmdAct : HostAct := .readUntil Reg.status.offset 0x8#32 0#32

/-- `PUSH <v>` (R107). -/
def pushAct (v : Nat) : HostAct := .push (.data (BitVec.ofNat 16 v))

/-- The host actions of a line (R107, R108). -/
def expandLine : Line → List HostAct
  | .wr r v => [writeAct r (BitVec.ofNat 32 v)]
  | .rd r => [.read r.offset]
  | .push v => [pushAct v]
  | .pushEnd => [.push .fin]
  | .pushErr => [.push .err]
  | .pop => [.pop]
  | .sinkErr => [.sinkError]
  | .reset => [.reset]
  | .cmd m imm => [writeAct .cmd (cmdWord m imm)]
  | .waitCmd => [waitCmdAct]
  | .hsetf sym f => [writeAct .arg (BitVec.ofNat 32 f), writeAct .cmd (cmdWord .hset (some sym)), waitCmdAct]
  | .pushs text => text.map fun c => pushAct c.toNat
  | .pushb bytes => bytes.map pushAct
  | .popAll => [.popAll]

/-- The host actions of a program. -/
def assemble (lines : List Line) : List HostAct := lines.flatMap expandLine

end Sys2Proof.Machine
end

