-- ==== Sys2Proof/Safety.lean ====
section
/-! DEFINITION. The terms claims are stated in: the invariant of the machine, the tree and code properties (10_state.md R38, 42_huffman_code.md R164), and a whole session run beat by beat. -/

namespace Sys2Proof.Machine

/-! ### The invariant -/

/-- What every reachable state satisfies. Each field names the rule it comes from. -/
structure MachineInv (s : State) : Prop where
  /-- FT is in its canonical form (10_state.md R36). -/
  ft_canonical : s.ft.wf = true
  /-- CT is in its canonical form (10_state.md R40). -/
  ct_canonical : s.ct.wf = true
  /-- A listed code has at least one bit, and its value fits its length (10_state.md R40). -/
  ct_codes : ∀ sym c, s.ct.read sym = some c → 0 < c.len.toNat ∧ c.val < 2 ^ c.len.toNat
  /-- TVALID says the arena holds the tree of the current FT (10_state.md R39). -/
  tree_current : s.tvalid = true →
    s.ft ≠ [] ∧ s.nodes = (buildTree s.ft).1 ∧ s.troot = BitVec.ofNat 17 (buildTree s.ft).2
  /-- CVALID says CT holds the code table of the current tree (10_state.md R40). -/
  table_current : s.cvalid = true → s.tvalid = true ∧ codeTable s.nodes s.troot.toNat = some s.ct
  /-- `DPRE[c] < c` for every assigned code (10_state.md R41). -/
  dict_falls : Dict.wf s.dict = true
  /-- NEXT is never above 65536 (10_state.md R41). -/
  dict_capped : s.next ≤ Config.dictCap
  /-- The current match is a code of the dictionary (10_state.md R43). -/
  cur_assigned : s.hascur = true → s.cur.toNat < s.next
  /-- The previous code is a code of the dictionary (10_state.md R44). -/
  prev_assigned : s.hasprev = true → s.prev.toNat < s.next
  /-- A current match exists only in an encode session, or in the error that ended one (10_state.md R43). -/
  hascur_state : s.hascur = true → s.st = .enc ∨ s.st = .error
  /-- A previous code exists only in a decode session, or in the error that ended one (10_state.md R44). -/
  hasprev_state : s.hasprev = true → s.st = .dec ∨ s.st = .error
  /-- A half-received code exists only in DEC and UNPACK, or in the error that ended one (10_state.md R45). -/
  havelo_state : s.havelo = true → s.st = .dec ∨ s.st = .unpack ∨ s.st = .error
  /-- ERRCODE is nonzero exactly when STATE = ERROR (10_state.md R23). -/
  error_code : s.errcode ≠ .none ↔ s.st = .error
  /-- Outside ERROR, ERRINFO is 0 (10_state.md R33). -/
  error_info : s.st ≠ .error → s.errinfo = 0#32
  /-- INQ holds at most IN_DEPTH beats (10_state.md R47). -/
  inq_bounded : s.inq.length ≤ s.params.inDepth
  /-- OUTQ holds at most OUT_DEPTH beats (10_state.md R47). -/
  outq_bounded : s.outq.length ≤ s.params.outDepth

/-- A command that is legal in IDLE only (45_sequencer.md R241). -/
def idleCommand : Instr → Bool
  | .nop => false
  | .srst => false
  | .clrerr => false
  | .abort => false
  | .hclr => true
  | .hset _ => true
  | .hget _ => true
  | .hbuild => true
  | .hgen => true
  | .hcode _ => true
  | .hnode => true
  | .enc => true
  | .dec => true
  | .pack => true
  | .unpack => true
  | .dlook _ => true

/-- The command `i` is encoded by the word `w` and is legal in IDLE only (45_sequencer.md R241, R245): in a session state it raises E_ILLSTATE with the pending word, and in ERROR it is discarded, whatever its own checks would say. -/
def legalInIdleOnly (i : Instr) (w : Word) : Prop :=
  encode i = w ∧
  ∀ s : State,
    (s.st.inSession = true →
      exec i s = .next
        { s with emit := s.emit ++ [.aborted], st := .error, errcode := .illState, errinfo := s.pcmd }) ∧
    (s.st = .error → exec i s = .next s)

/-! ### The Huffman tree (10_state.md R38) -/

/-- A Node: its children have smaller ids, are distinct and exist, its frequency is their exact sum and its minsym the smaller of theirs (10_state.md R38). A Leaf: minsym is its symbol, and it has no children (R37). -/
def nodeSound (nodes : List Node) (i : Nat) (n : Node) : Prop :=
  if n.leaf then n.minsym = n.sym ∧ n.left = 0#17 ∧ n.right = 0#17
  else
    n.left.toNat < i ∧ n.right.toNat < i ∧ n.left ≠ n.right ∧ n.sym = 0#16 ∧
    ∃ a b, nodes[n.left.toNat]? = some a ∧ nodes[n.right.toNat]? = some b ∧
      n.freq.toNat = a.freq.toNat + b.freq.toNat ∧
      n.minsym.toNat = min a.minsym.toNat b.minsym.toNat

/-- Node `p` has the child `i`. -/
def hasChild (nodes : List Node) (p i : Nat) : Prop :=
  ∃ n, nodes[p]? = some n ∧ n.leaf = false ∧ (n.left.toNat = i ∨ n.right.toNat = i)

/-- The arena is a tree with this root (10_state.md R38): every entry is sound, and every id but the root is the child of exactly one Node. -/
structure TreeSound (nodes : List Node) (root : Nat) : Prop where
  root_in : root < nodes.length
  entries : ∀ i n, nodes[i]? = some n → nodeSound nodes i n
  one_parent : ∀ i, i < nodes.length → i ≠ root → ∃ p, hasChild nodes p i ∧ ∀ q, hasChild nodes q i → q = p
  root_free : ∀ p, ¬ hasChild nodes p root

/-- `a` comes before `b` in the priority order: the lesser frequency, or equal frequencies and the lesser minsym (41_huffman_tree.md R133). -/
def keyLess (a b : Node) : Prop :=
  a.freq.toNat < b.freq.toNat ∨ (a.freq.toNat = b.freq.toNat ∧ a.minsym.toNat < b.minsym.toNat)

/-- `n` is the Node that joins two trees of the forest: the first one extracted on the left, the exact sum of the frequencies, the smaller minsym (41_huffman_tree.md R134). -/
def joins (n : Node) (a b : Ranked) : Prop :=
  n.leaf = false ∧ n.sym = 0#16 ∧ n.left.toNat = a.id ∧ n.right.toNat = b.id ∧
  n.freq.toNat = a.node.freq.toNat + b.node.freq.toNat ∧ n.minsym.toNat = min a.node.minsym.toNat b.node.minsym.toNat

/-- The loop of 41_huffman_tree.md R134 as a relation, whatever the order in which the forest is listed: from the forest and the arena so far to the final arena and the id of the last tree.
Each turn takes the tree `a` with the least key of all, then `b` with the least key of the rest, and adds the Node that joins them under the next id. -/
inductive Merges : List Ranked → List Node → List Node → Nat → Prop where
  | last (x : Ranked) (arena : List Node) : Merges [x] arena arena x.id
  | join (a b : Ranked) (n : Node) {q q1 q2 : List Ranked} {arena final : List Node} {root : Nat}
      (takes_a : q.Perm (a :: q1)) (least_a : ∀ y ∈ q1, keyLess a.node y.node)
      (takes_b : q1.Perm (b :: q2)) (least_b : ∀ y ∈ q2, keyLess b.node y.node)
      (joined : joins n a b) (goes_on : Merges (⟨arena.length, n⟩ :: q2) (arena ++ [n]) final root) :
      Merges q arena final root

/-- The node reached from node `i` by the bits of a path, false to the left and true to the right. None where the path leaves the tree. -/
def follow (nodes : List Node) : Nat → List Bool → Option Nat
  | i, [] => some i
  | i, b :: rest =>
    match nodes[i]? with
    | none => none
    | some n => if n.leaf then none else follow nodes (if b then n.right.toNat else n.left.toNat) rest

/-! ### Bit strings of codes (10_state.md R40) -/

/-- The bitstring `c_0 c_1 ...` of an entry: `c_i = val[len - 1 - i]` (10_state.md R40). -/
def Code.bits (c : Code) : List Bool := (List.range c.len.toNat).map fun i => c.val.testBit (c.len.toNat - 1 - i)

/-! ### A session, beat by beat -/

/-- Feed input beats to a session, draining EMIT after each: the state at the end, and the output beats in order. None if a beat faults. -/
def feed : List InBeat → State → Option (State × List OutBeat)
  | [], s => some (s, [])
  | b :: rest, s =>
    match consume b s with
    | .next t =>
      match feed rest { t with emit := [] } with
      | some (u, out) => some (u, t.emit ++ out)
      | none => none
    | .fault _ => none
    | .refused _ => none

/-- A whole session: the session command, the input beats, and END. -/
def session (command : Instr) (input : List Payload) (s : State) : Option (State × List OutBeat) :=
  match exec command s with
  | .next t => feed (input.map .data ++ [.fin]) t
  | .fault _ => none
  | .refused _ => none

/-- Bytes as payloads of the byte modes (20_memory.md R77). -/
def bytePayloads (bytes : List Byte) : List Payload := bytes.map fun b => b.setWidth 16

/-- The two bytes of each code, the low one first (20_memory.md R81). -/
def codeBytes (codes : List LzwCode) : List Byte := codes.flatMap fun c => [c.extractLsb' 0 8, c.extractLsb' 8 8]

/-- The output of a session that completed: DATA beats, then END. -/
def completed (payloads : List Payload) : List OutBeat := payloads.map .data ++ [.fin]

end Sys2Proof.Machine
end

