-- ==== Sys2Proof/Certificates/Slice0/Obligations.lean ====
section
/-! DEFINITION. The statements for the provers. Each docstring names the rule of spec/ it formalises.

`{ s with x := v }` as the next state says both what the command writes and its frame: every other field is as in `s`. -/

open Sys2Proof Sys2Proof.Machine

/-! ### Encoding -/

/-- A word decodes to a command exactly when it is that command's encoding, for every immediate (30_encoding.md R100 to R103). -/
def Obligations.DecodeIsInverseOfEncode : Prop :=
  ∀ (w : Word) (i : Instr), decode w = .ok i ↔ encode i = w

/-- Words written out from the opcode map of R103 and the list of R108 decode to their commands. -/
def Obligations.OpcodeMapWordsDecode : Prop :=
  decode 0x00000000#32 = .ok .nop ∧ decode 0x01000000#32 = .ok .srst ∧ decode 0x02000000#32 = .ok .clrerr ∧
  decode 0x03000000#32 = .ok .abort ∧ decode 0x10000000#32 = .ok .hclr ∧
  decode 0x11000041#32 = .ok (.hset 0x41#16) ∧ decode 0x1200FFFF#32 = .ok (.hget 0xFFFF#16) ∧
  decode 0x13000000#32 = .ok .hbuild ∧ decode 0x14000000#32 = .ok .hgen ∧
  decode 0x15008001#32 = .ok (.hcode 0x8001#16) ∧ decode 0x16000000#32 = .ok .hnode ∧
  decode 0x20000000#32 = .ok .enc ∧ decode 0x21000000#32 = .ok .dec ∧ decode 0x22000000#32 = .ok .pack ∧
  decode 0x23000000#32 = .ok .unpack ∧ decode 0x24000102#32 = .ok (.dlook 0x0102#16)

/-- R104: the words of `wellformed` are exactly the words that decode, and EXEC of any other word raises E_BADOP with the word as information, or with STATE = ERROR is discarded. -/
def Obligations.MalformedWordIsBadOp : Prop :=
  (∀ w : Word, wordWellFormed w = true ↔ ∃ i, decode w = .ok i) ∧ decode 0x00000000#32 = .ok .nop ∧
  ∀ s : State, wordWellFormed s.pcmd = false →
    (s.st = .error → execStep exec s = .next { s with cmdp := false }) ∧
    (s.st = .idle →
      execStep exec s = .next { s with cmdp := false, st := .error, errcode := .badOp, errinfo := s.pcmd }) ∧
    (s.st.inSession = true →
      execStep exec s = .next
        { s with cmdp := false, emit := s.emit ++ [.aborted], st := .error, errcode := .badOp, errinfo := s.pcmd })

/-! ### The core's steps -/

/-- The EXEC step (45_sequencer.md R244): with a command pending, and EMIT empty or the command SRST, it is `execStep`, which for a command that decodes clears CMDP and is `exec` of the command; otherwise it is not enabled.
It is taken on the turn EXEC, and first in the default order. The turns, their default order, and that a turn whose step is not enabled changes nothing else are the model's choice, log entry 2. -/
def Obligations.StepExecutesThePendingCommand : Prop :=
  (∀ (s : State) (i : Instr), s.cmdp = true → (s.emit = [] ∨ i = .srst) → decode s.pcmd = .ok i →
    (s.env.turns = [] → step s = exec i { s with cmdp := false }) ∧
    (∀ rest, s.env.turns = .exec :: rest →
      step s = exec i { s with cmdp := false, env := { s.env with turns := rest } })) ∧
  ∀ (s : State) (rest : List Turn), s.env.turns = .exec :: rest →
    (s.cmdp = true → (s.emit = [] ∨ decode s.pcmd = .ok .srst) →
      step s = execStep exec { s with env := { s.env with turns := rest } }) ∧
    ((s.cmdp = false ∨ (s.emit ≠ [] ∧ decode s.pcmd ≠ .ok .srst)) →
      step s = .next { s with env := { s.env with turns := rest } })

/-- R246: a BEAT step removes the head of INQ and processes it, and it is taken only in a session state with no command pending, EMIT empty and INQ not empty.
The turns, and that a BEAT turn which is not enabled is used up and answers a next state, are the model's choice, log entry 2. -/
def Obligations.BeatStepConsumesTheHeadOfInq : Prop :=
  ∀ (s : State) (rest : List Turn), s.env.turns = .beat :: rest →
    (∀ b bs, s.st.inSession = true → s.cmdp = false → s.emit = [] → s.inq = b :: bs →
      step s = consume b { s with inq := bs, env := { s.env with turns := rest } }) ∧
    ((s.st.inSession = false ∨ s.cmdp = true ∨ s.emit ≠ [] ∨ s.inq = []) →
      step s = .next { s with env := { s.env with turns := rest } })

/-- R247: a DRAIN step moves the first beat of EMIT to the end of OUTQ, in every STATE, and it is taken only when EMIT is not empty and OUTQ has room. While EMIT waits for room, BEAT and EXEC wait too, but for SRST.
That a DRAIN turn which is not enabled is used up and answers a next state is the model's choice, log entry 2. -/
def Obligations.DrainMovesOneBeat : Prop :=
  (∀ s : State, s.emit ≠ [] →
    s.beatEnabled = false ∧ (s.execEnabled = true → decode s.pcmd = .ok .srst) ∧
    (s.drainEnabled = true ↔ s.outq.length < s.params.outDepth)) ∧
  ∀ (s : State) (rest : List Turn), s.env.turns = .drain :: rest →
    (∀ b bs, s.emit = b :: bs → s.outq.length < s.params.outDepth →
      step s = .next { s with emit := bs, outq := s.outq ++ [b], env := { s.env with turns := rest } }) ∧
    ((s.emit = [] ∨ s.params.outDepth ≤ s.outq.length) →
      step s = .next { s with env := { s.env with turns := rest } })

/-- R242: no two core steps are enabled at once, but for a pending SRST while EMIT waits to drain. -/
def Obligations.CoreStepsExcludeEachOther : Prop :=
  ∀ s : State,
    ¬ (s.execEnabled = true ∧ s.beatEnabled = true) ∧
    ¬ (s.beatEnabled = true ∧ s.drainEnabled = true) ∧
    (s.execEnabled = true → s.drainEnabled = true → decode s.pcmd = .ok .srst)

/-- A push of the host and a BEAT step of the core may be taken in either order with the same result (R242, R255): the interleaving does not change what a session produces. -/
def Obligations.PushAndBeatCommute : Prop :=
  ∀ (s t : State) (b : InBeat), s.beatEnabled = true → s.canPush = true →
    beatStep s = .next t → beatStep (s.pushBeat b) = .next (t.pushBeat b)

/-- Quiescence and the end of a run (45_sequencer.md R254): a quiescent core has no step enabled, and a core with no step enabled is quiescent when OUTQ has room. With no core step enabled and the host done, a step leaves the state as it is (60_exceptions.md R280).
That the model goes on with a step there is its choice, log entry 3; that a core with OUTQ full and EMIT not empty is not quiescent is read from R254's list, log entry 16. -/
def Obligations.QuiescentCoreKeepsItsState : Prop :=
  (∀ s : State,
    (s.quiescent = true ↔ s.cmdp = false ∧ s.emit = [] ∧ (s.st = .idle ∨ s.st = .error ∨ s.inq = [])) ∧
    (s.runEnded = true ↔ s.env.script = [] ∧ s.quiescent = true) ∧
    (s.quiescent = true → s.execEnabled = false ∧ s.beatEnabled = false ∧ s.drainEnabled = false) ∧
    (s.outq.length < s.params.outDepth → s.execEnabled = false → s.beatEnabled = false → s.drainEnabled = false →
      s.quiescent = true)) ∧
  ∀ s : State, s.env.turns = [] → s.env.script = [] →
    s.execEnabled = false → s.beatEnabled = false → s.drainEnabled = false → step s = .next s

/-! ### The host's actions -/

/-- R72: a register read returns the register of the offset's word, ignores bits [1:0] of the offset, and changes no state of the core. -/
def Obligations.RegisterReadHasNoSideEffect : Prop :=
  ∀ (s : State) (off : Offset) (rest : List HostAct) (ts : List Turn),
    s.env.turns = .host :: ts → s.env.script = .read off :: rest →
    step s = .next { s with env := { script := rest, turns := ts, log := s.env.log ++ [.value off (s.readReg off)] } } ∧
    s.readReg off = s.readReg (off &&& 0x3C#6)

/-- The value each register of the map reads (10_state.md R21, R22, R25 to R33). -/
def Obligations.RegisterMapReads : Prop :=
  ∀ s : State,
    s.readReg 0x00#6 = 0x4C5A4801#32 ∧ s.readReg 0x04#6 = s.ctrl.setWidth 32 ∧ s.readReg 0x08#6 = s.status ∧
    s.readReg 0x0C#6 = 0#32 ∧ s.readReg 0x10#6 = s.arg ∧ s.readReg 0x14#6 = s.res0 ∧ s.readReg 0x18#6 = s.res1 ∧
    s.readReg 0x1C#6 = s.res2 ∧ s.readReg 0x20#6 = s.res3 ∧
    s.readReg 0x24#6 = BitVec.ofNat 32 (256 + s.dict.length) ∧ s.readReg 0x28#6 = BitVec.ofNat 32 s.ft.length ∧
    s.readReg 0x2C#6 = s.troot.setWidth 32 ∧ s.readReg 0x30#6 = BitVec.ofNat 32 s.nodes.length ∧
    s.readReg 0x34#6 = s.incnt ∧ s.readReg 0x38#6 = s.outcnt ∧ s.readReg 0x3C#6 = s.errinfo

/-- The fields of STATUS (10_state.md R23), with the numbers of STATE and of ERRCODE (60_exceptions.md R260). -/
def Obligations.StatusFields : Prop :=
  ∀ s : State, s.next ≤ 65536 →
    (s.status.extractLsb' 0 3).toNat =
      (match s.st with | .idle => 0 | .enc => 1 | .dec => 2 | .pack => 3 | .unpack => 4 | .error => 7) ∧
    s.status.getLsbD 3 = s.cmdp ∧ s.status.getLsbD 4 = s.done ∧ s.status.getLsbD 5 = s.ovf ∧
    s.status.getLsbD 6 = s.tvalid ∧ s.status.getLsbD 7 = s.cvalid ∧
    (s.status.extractLsb' 8 4).toNat =
      (match s.errcode with
        | .none => 0 | .badOp => 1 | .illState => 2 | .empty => 3 | .noTree => 4 | .noTable => 5 | .desync => 6
        | .dictOvf => 7 | .io => 8 | .trunc => 9 | .cmdOvr => 10) ∧
    s.status.getLsbD 12 = s.irq ∧
    s.status.getLsbD 13 = decide (s.emit ≠ []) ∧ s.status.getLsbD 14 = decide (s.inq ≠ []) ∧
    s.status.getLsbD 15 = decide (s.next = 65536) ∧ s.status.extractLsb' 16 16 = 0#16

/-- R48: the interrupt output is the OR of the enabled pending sources, STATUS[12] reads it, and at reset it is 0. -/
def Obligations.InterruptIsEnabledPending : Prop :=
  (∀ s : State,
    (s.irq = true ↔
      (s.done = true ∧ s.ctrl.getLsbD 1 = true) ∨ (s.st = .error ∧ s.ctrl.getLsbD 2 = true) ∨
      (s.ovf = true ∧ s.ctrl.getLsbD 3 = true)) ∧
    (s.readReg 0x08#6).getLsbD 12 = s.irq) ∧
  State.reset.irq = false

/-- R73: what a register write does, for every offset, and that it is one step of the host, in every state. -/
def Obligations.RegisterWriteEffects : Prop :=
  (∀ (s : State) (off : Offset) (v : Word) (rest : List HostAct) (ts : List Turn),
    s.env.turns = .host :: ts → s.env.script = .write off v :: rest →
    step s = .next { s.writeReg off v with env := { s.env with script := rest, turns := ts } }) ∧
  ∀ (s : State) (off : Offset) (v : Word),
    (Reg.ofOffset off = .ctrl → s.writeReg off v = { s with ctrl := v.extractLsb' 0 4 }) ∧
    (Reg.ofOffset off = .status →
      s.writeReg off v =
        { s with
          done := if v.getLsbD 4 = true then false else s.done
          ovf := if v.getLsbD 5 = true then false else s.ovf }) ∧
    (Reg.ofOffset off = .cmd → s.cmdp = false → s.writeReg off v = { s with pcmd := v, cmdp := true }) ∧
    (Reg.ofOffset off = .cmd → s.cmdp = true → s.writeReg off v = s.errorEntry .cmdOvr v) ∧
    (Reg.ofOffset off = .arg → s.writeReg off v = { s with arg := v }) ∧
    (Reg.ofOffset off ≠ .ctrl → Reg.ofOffset off ≠ .status → Reg.ofOffset off ≠ .cmd → Reg.ofOffset off ≠ .arg →
      s.writeReg off v = s) ∧
    (Reg.ofOffset off = .ctrl ↔ off.toNat / 4 = 1) ∧ (Reg.ofOffset off = .status ↔ off.toNat / 4 = 2) ∧
    (Reg.ofOffset off = .cmd ↔ off.toNat / 4 = 3) ∧ (Reg.ofOffset off = .arg ↔ off.toNat / 4 = 4)

/-- push and pop move one beat, in order, when they are enabled (20_memory.md R75, R76), and wait otherwise.
The rules give a waiting push or pop no step; that its turn is used up and answers a state in which nothing else changes is the model's choice, log entries 2 and 3. -/
def Obligations.PushAndPopAreFifo : Prop :=
  ∀ (s : State) (rest : List HostAct) (ts : List Turn), s.env.turns = .host :: ts →
    (∀ b, s.env.script = .push b :: rest → s.inq.length < s.params.inDepth →
      step s = .next { s with inq := s.inq ++ [b], env := { s.env with script := rest, turns := ts } }) ∧
    (∀ b, s.env.script = .push b :: rest → s.params.inDepth ≤ s.inq.length →
      step s = .next { s with env := { s.env with turns := ts } }) ∧
    (∀ b bs, s.env.script = .pop :: rest → s.outq = b :: bs →
      step s = .next { s with outq := bs, env := { script := rest, turns := ts, log := s.env.log ++ [.beat b] } }) ∧
    (s.env.script = .pop :: rest → s.outq = [] → step s = .next { s with env := { s.env with turns := ts } })

/-- R268: a write of `v` to CMD while CMDP = 1 drops `v` and raises E_CMDOVR(v); the pending command stays pending and is discarded when it runs unless it is NOP, SRST or CLRERR, and in ERROR nothing is recorded. -/
def Obligations.CommandOverrunKeepsThePendingCommand : Prop :=
  ∀ (s : State) (v : Word), s.cmdp = true →
    (decode s.pcmd ≠ .ok .nop → decode s.pcmd ≠ .ok .srst → decode s.pcmd ≠ .ok .clrerr →
      execStep exec (s.writeReg 0x0C#6 v) = .next { s.writeReg 0x0C#6 v with cmdp := false }) ∧
    (s.writeReg 0x0C#6 v).cmdp = true ∧ (s.writeReg 0x0C#6 v).pcmd = s.pcmd ∧
    (s.st = .error → s.writeReg 0x0C#6 v = s) ∧
    (s.st ≠ .error →
      (s.writeReg 0x0C#6 v).st = .error ∧ (s.writeReg 0x0C#6 v).errcode = .cmdOvr ∧
      (s.writeReg 0x0C#6 v).errinfo = v)

/-! ### Errors -/

/-- R266: E_IO(1) from an ERR beat, E_IO(2) from SINK_ERR and E_IO(3) from an RSV beat, only in a session state. -/
def Obligations.IoErrorsOnlyInSessions : Prop :=
  (∀ (s : State) (bs : List InBeat), s.st.inSession = true →
    (s.inq = .err :: bs →
      beatStep s = .next
        { s with inq := bs, emit := s.emit ++ [.aborted], st := .error, errcode := .io, errinfo := 1#32 }) ∧
    (s.inq = .rsv :: bs →
      beatStep s = .next
        { s with inq := bs, emit := s.emit ++ [.aborted], st := .error, errcode := .io, errinfo := 3#32 })) ∧
  ∀ (s : State) (rest : List HostAct) (ts : List Turn),
    s.env.turns = .host :: ts → s.env.script = .sinkError :: rest →
    (s.st.inSession = true →
      step s = .next
        { s with
          emit := s.emit ++ [.aborted], st := .error, errcode := .io, errinfo := 2#32
          env := { s.env with script := rest, turns := ts } }) ∧
    (s.st.inSession = false → step s = .next { s with env := { s.env with script := rest, turns := ts } })

/-- Error entry (60_exceptions.md R262): the first error is kept; in a session ABORTED is emitted; nothing else changes. -/
def Obligations.ErrorEntryRecordsTheFirst : Prop :=
  ∀ (s : State) (code : ErrCode) (info : Word),
    (s.st = .error → s.errorEntry code info = s) ∧
    (s.st = .idle → s.errorEntry code info = { s with st := .error, errcode := code, errinfo := info }) ∧
    (s.st.inSession = true →
      s.errorEntry code info =
        { s with emit := s.emit ++ [.aborted], st := .error, errcode := code, errinfo := info })

/-- The core leaves ERROR only by CLRERR, SRST or RST, and until then the recorded error stands (60_exceptions.md R270, R272, R273). -/
def Obligations.OnlyClearingLeavesError : Prop :=
  ∀ s t : State, s.st = .error → step s = .next t →
    (t.st = .error ∧ t.errcode = s.errcode ∧ t.errinfo = s.errinfo) ∨
    (t.st = .idle ∧ t.errcode = .none ∧ t.errinfo = 0#32 ∧
      ((s.cmdp = true ∧ (decode s.pcmd = .ok .clrerr ∨ decode s.pcmd = .ok .srst)) ∨
        ∃ rest, s.env.script = .reset :: rest))

/-- The legality table of R241: in a session a command that is legal in IDLE only raises E_ILLSTATE with the command word, and in ERROR every command but NOP, SRST and CLRERR is discarded. -/
def Obligations.CommandLegality : Prop :=
  ∀ (i : Instr) (s : State),
    (s.st.inSession = true → idleCommand i = true →
      exec i s = .next
        { s with emit := s.emit ++ [.aborted], st := .error, errcode := .illState, errinfo := s.pcmd }) ∧
    (s.st = .error → (idleCommand i = true ∨ i = .abort) → exec i s = .next s)

/-- Without a valid tree HGEN and HNODE raise E_NOTREE, and without a valid code table HCODE raises E_NOTABLE, with the command word and with no other effect (60_exceptions.md R265). -/
def Obligations.StaleTablesAreErrors : Prop :=
  ∀ (s : State) (sym : Symbol), s.st = .idle →
    (s.tvalid = false →
      exec .hgen s = .next { s with st := .error, errcode := .noTree, errinfo := s.pcmd } ∧
      exec .hnode s = .next { s with st := .error, errcode := .noTree, errinfo := s.pcmd }) ∧
    (s.cvalid = false →
      exec (.hcode sym) s = .next { s with st := .error, errcode := .noTable, errinfo := s.pcmd })

/-! ### Reset and the control commands -/

/-- R290, R50: SRST and RST give every element of the core its reset value; NEXT is then 256, IRQ and STATUS are 0, and ID keeps its constant.
That the FIFO depths and the host (`params`, `env`) stay is the model's, log entry 14. -/
def Obligations.ResetGivesEveryElementItsValue : Prop :=
  ∀ (s : State) (rest : List HostAct), ∃ t : State,
    exec .srst s = .next t ∧ performHost .reset rest s = { t with env := { s.env with script := rest } } ∧
    t = { ctrl := 0#4, arg := 0#32, res0 := 0#32, res1 := 0#32, res2 := 0#32, res3 := 0#32, st := .idle,
          cmdp := false, pcmd := 0#32, done := false, ovf := false, errcode := .none, errinfo := 0#32,
          ft := [], nodes := [], troot := 0#17, tvalid := false, ct := [], cvalid := false, dict := [],
          cur := 0#16, hascur := false, prev := 0#16, hasprev := false, lo := 0#8, havelo := false,
          strictL := false, incnt := 0#32, outcnt := 0#32, inq := [], emit := [], outq := [],
          params := s.params, env := s.env } ∧
    t.next = 256 ∧ t.irq = false ∧ t.status = 0#32 ∧ t.readReg 0x00#6 = 0x4C5A4801#32

/-- R250: NOP sets DONE in every state and changes nothing else; 0x00000001 is no NOP. -/
def Obligations.NopSetsDone : Prop :=
  encode .nop = 0x00000000#32 ∧ decode 0x00000001#32 = .error .immediateInFormatN ∧ ∀ s : State, exec .nop s = .next { s with done := true }

/-- R252: CLRERR leaves ERROR, clears the record, the input queue and the session registers, and sets DONE; elsewhere it only sets DONE. -/
def Obligations.ClrerrReturnsToIdle : Prop :=
  encode .clrerr = 0x02000000#32 ∧
  ∀ s : State,
    (s.st = .error →
      exec .clrerr s = .next
        { s with
          st := .idle, errcode := .none, errinfo := 0#32, inq := []
          hascur := false, hasprev := false, havelo := false, done := true }) ∧
    (s.st ≠ .error → exec .clrerr s = .next { s with done := true })

/-- R253: ABORT ends a session with ABORTED, drops the input and the half-done work, and sets DONE; in IDLE it only sets DONE; in ERROR it is discarded. -/
def Obligations.AbortEndsTheSession : Prop :=
  encode .abort = 0x03000000#32 ∧
  ∀ s : State,
    (s.st.inSession = true →
      exec .abort s = .next
        { s with
          inq := [], emit := s.emit ++ [.aborted]
          hascur := false, hasprev := false, havelo := false, st := .idle, done := true }) ∧
    (s.st = .idle → exec .abort s = .next { s with done := true }) ∧
    (s.st = .error → exec .abort s = .next s)

/-! ### Huffman tables -/

/-- R130: HCLR, legal in IDLE only, clears every entry of FT and CT and the tree, and touches nothing else. -/
def Obligations.HclrClearsTheTables : Prop :=
  legalInIdleOnly .hclr 0x10000000#32 ∧
  ∀ s : State, s.st = .idle →
    ∃ t, exec .hclr s = .next t ∧ (∀ sym, t.ft.read sym = none ∧ ctEntry t.ct sym = ⟨0#16, 0⟩) ∧
      t.nsym = 0 ∧ t.tnodes = 0 ∧
      t = { s with
            ft := t.ft, ct := t.ct, nodes := t.nodes, troot := 0#17, tvalid := false, cvalid := false, done := true }

/-- R131: HSET, legal in IDLE only, makes the symbol present with the frequency in ARG, replaces the frequency of a present symbol, changes no other entry, makes tree and table stale, and keeps the canonical form. -/
def Obligations.HsetPutsOneSymbol : Prop :=
  (∀ sym : Symbol, legalInIdleOnly (.hset sym) (0x1100#16 ++ sym)) ∧
  ∀ (s : State) (sym : Symbol), s.st = .idle → s.ft.wf = true →
    ∃ t, exec (.hset sym) s = .next t ∧ t.ft.read sym = some s.arg ∧
      (∀ k, k ≠ sym → t.ft.read k = s.ft.read k) ∧ t.ft.wf = true ∧
      t.nsym = (if (s.ft.read sym).isSome then s.nsym else s.nsym + 1) ∧
      t = { s with ft := t.ft, tvalid := false, cvalid := false, done := true }

/-- R132: HGET, legal in IDLE only, returns presence and frequency; an absent symbol reads 0 and 0. -/
def Obligations.HgetReadsOneSymbol : Prop :=
  (∀ sym : Symbol, legalInIdleOnly (.hget sym) (0x1200#16 ++ sym)) ∧
  ∀ (s : State) (sym : Symbol), s.st = .idle →
    (∀ f, s.ft.read sym = some f →
      exec (.hget sym) s = .next { s with res0 := 1#32, res1 := f, res2 := 0#32, res3 := 0#32, done := true }) ∧
    (s.ft.read sym = none →
      exec (.hget sym) s = .next { s with res0 := 0#32, res1 := 0#32, res2 := 0#32, res3 := 0#32, done := true })

/-- R138: with no symbol present HBUILD raises E_EMPTY(0), and nothing else changes; in every state of the invariant TVALID is already 0 then. -/
def Obligations.HbuildRejectsAnEmptyTable : Prop :=
  ∀ s : State, s.st = .idle → (∀ sym, s.ft.read sym = none) →
    exec .hbuild s = .next { s with st := .error, errcode := .empty, errinfo := 0#32 } ∧
    (MachineInv s → s.tvalid = false)

/-- The tree HBUILD builds (10_state.md R38, 41_huffman_tree.md R139): sound, with the leaves first in ascending order of Symbol, the root last, its frequency the exact sum of all and its minsym the least symbol; the results and the frame of R134. -/
def Obligations.HbuildBuildsASoundTree : Prop :=
  ∀ s : State, s.st = .idle → s.ft.wf = true → s.ft ≠ [] →
    ∃ t root, exec .hbuild s = .next t ∧ TreeSound t.nodes t.troot.toNat ∧
      t.tnodes = 2 * s.nsym - 1 ∧ t.troot.toNat = 2 * s.nsym - 2 ∧
      (∀ (k : Nat) sym f, s.ft[k]? = some (sym, f) → t.nodes[k]? =
        some { leaf := true, sym := sym, left := 0#17, right := 0#17, freq := f.setWidth 48, minsym := sym }) ∧
      (∀ (k : Nat) n, s.nsym ≤ k → t.nodes[k]? = some n → n.leaf = false) ∧
      t.nodes[t.troot.toNat]? = some root ∧
      root.freq.toNat = (s.ft.map fun e => e.2.toNat).sum ∧
      (∀ e ∈ s.ft, root.minsym.toNat ≤ e.1.toNat) ∧ (∃ e ∈ s.ft, root.minsym = e.1) ∧
      t = { s with
            nodes := t.nodes, troot := t.troot, tvalid := true, cvalid := false, done := true
            res0 := BitVec.ofNat 32 (2 * s.nsym - 2), res1 := BitVec.ofNat 32 s.nsym
            res2 := BitVec.ofNat 32 (2 * s.nsym - 1), res3 := 0#32 }

/-- The merge order of R134. The extraction answers for every forest but the empty one, and takes a tree with the least key `(freq, minsym)`, whatever the order of the list.
Each turn of the loop on two trees or more takes the least of all, then the least of the rest, and appends the Node that joins them, the first one extracted on the left; on one tree it ends.
HBUILD runs that loop from the leaves, and its least keys are strictly least (R133). -/
def Obligations.ExtractionTakesTheLeastKey : Prop :=
  (∀ q : List Ranked, q ≠ [] → ∃ x rest, takeLeast q = some (x, rest)) ∧
  (∀ (q : List Ranked) (x : Ranked) (rest : List Ranked), takeLeast q = some (x, rest) →
    q.Perm (x :: rest) ∧
    ∀ y ∈ rest, x.node.freq.toNat < y.node.freq.toNat ∨
      (x.node.freq = y.node.freq ∧ x.node.minsym.toNat ≤ y.node.minsym.toNat)) ∧
  (∀ (fuel : Nat) (arena : List Node),
    (∀ x : Ranked, joinAll (fuel + 1) [x] arena = (arena, x.id)) ∧
    ∀ q : List Ranked, 2 ≤ q.length →
      ∃ a q1 b q2 n, takeLeast q = some (a, q1) ∧ takeLeast q1 = some (b, q2) ∧
        n = { leaf := false, sym := 0#16, left := BitVec.ofNat 17 a.id, right := BitVec.ofNat 17 b.id
              freq := a.node.freq + b.node.freq
              minsym := if a.node.minsym.toNat ≤ b.node.minsym.toNat then a.node.minsym else b.node.minsym } ∧
        joinAll (fuel + 1) q arena = joinAll fuel (⟨arena.length, n⟩ :: q2) (arena ++ [n])) ∧
  ∀ s : State, s.st = .idle → s.ft.wf = true → s.ft ≠ [] →
    ∃ t, exec .hbuild s = .next t ∧
      Merges ((s.ft.map fun e => leafNode e.1 e.2).zipIdx.map fun e => ⟨e.2, e.1⟩)
        (s.ft.map fun e => leafNode e.1 e.2) t.nodes t.troot.toNat

/-- The result of HBUILD depends only on the mapping (R135): two frequency tables with the same entries build the same tree. -/
def Obligations.TreeDependsOnTheMappingOnly : Prop :=
  ∀ s₁ s₂ t₁ t₂ : State, s₁.st = .idle → s₂.st = .idle → s₁.ft.wf = true → s₂.ft.wf = true → s₁.ft ≠ [] →
    (∀ sym, s₁.ft.read sym = s₂.ft.read sym) →
    exec .hbuild s₁ = .next t₁ → exec .hbuild s₂ = .next t₂ →
    t₁.nodes = t₂.nodes ∧ t₁.troot = t₂.troot ∧ t₁.tvalid = true ∧ t₂.tvalid = true

/-- R140: HNODE, legal in IDLE only, raises E_NOTREE without a valid tree; its readout has the layout for a node and for a leaf, zeros at or above TNODES. -/
def Obligations.HnodeReadsOneNode : Prop :=
  legalInIdleOnly .hnode 0x16000000#32 ∧
  (∀ s : State, s.st = .idle → s.tvalid = false →
    exec .hnode s = .next { s with st := .error, errcode := .noTree, errinfo := s.pcmd }) ∧
  ∀ s : State, s.st = .idle → s.tvalid = true →
    (∀ n, s.nodes[s.arg.toNat]? = some n →
      ∃ t, exec .hnode s = .next t ∧
        t.res0.getLsbD 31 = true ∧ t.res0.getLsbD 30 = n.leaf ∧ t.res0.extractLsb' 17 13 = 0#13 ∧
        (t.res0.extractLsb' 0 17).toNat = (if n.leaf then n.sym.toNat else n.left.toNat) ∧
        t.res1.toNat = n.right.toNat ∧
        t.res2.toNat + 2 ^ 32 * (t.res3.extractLsb' 0 16).toNat = n.freq.toNat ∧
        t.res3.extractLsb' 16 16 = n.minsym ∧
        t = { s with res0 := t.res0, res1 := t.res1, res2 := t.res2, res3 := t.res3, done := true }) ∧
    (s.nodes.length ≤ s.arg.toNat →
      exec .hnode s = .next { s with res0 := 0#32, res1 := 0#32, res2 := 0#32, res3 := 0#32, done := true })

/-- HGEN completes from every state of the invariant with a valid tree, and each code is the path from the root to its symbol's leaf (R160, R163): absent symbols have no code, and the frame. With one symbol see `SingleSymbolGetsOneBit`. -/
def Obligations.HgenRecordsThePaths : Prop :=
  ∀ s : State, MachineInv s → s.st = .idle → s.tvalid = true →
    ∃ t, exec .hgen s = .next t ∧
      (∀ sym, s.ft.read sym = none → ctEntry t.ct sym = ⟨0#16, 0⟩) ∧
      (∀ sym f, s.ft.read sym = some f → 2 ≤ s.nsym →
        ∃ i, follow s.nodes s.troot.toNat (ctEntry t.ct sym).bits = some i ∧ s.nodes[i]? = some (leafNode sym f)) ∧
      (∀ sym f, s.ft.read sym = some f →
        1 ≤ (ctEntry t.ct sym).len.toNat ∧ (ctEntry t.ct sym).val < 2 ^ (ctEntry t.ct sym).len.toNat) ∧
      t = { s with
            ct := t.ct, cvalid := true, done := true
            res0 := t.res0, res1 := t.res1, res2 := t.res2, res3 := t.res3 }

/-- The code table is prefix-free (R164): no code is a prefix of the code of another present symbol. -/
def Obligations.CodeTableIsPrefixFree : Prop :=
  ∀ s t : State, MachineInv s → s.st = .idle → s.tvalid = true → exec .hgen s = .next t →
    ∀ a b : Symbol, a ≠ b → (s.ft.read a).isSome = true → (s.ft.read b).isSome = true →
      ¬ (ctEntry t.ct a).bits <+: (ctEntry t.ct b).bits

/-- The results of HGEN (R160): MAXLEN is the longest code, RES1 the number of symbols, and RES3:RES2 the exact sum of frequency times length over the symbols. -/
def Obligations.HgenResults : Prop :=
  ∀ s : State, MachineInv s → s.st = .idle → s.tvalid = true →
    ∃ t, exec .hgen s = .next t ∧
      (∀ e ∈ s.ft, (ctEntry t.ct e.1).len.toNat ≤ t.res0.toNat) ∧
      (∃ e ∈ s.ft, (ctEntry t.ct e.1).len.toNat = t.res0.toNat) ∧
      t.res1.toNat = s.nsym ∧
      (t.res3 ++ t.res2).toNat = (s.ft.map fun e => e.2.toNat * (ctEntry t.ct e.1).len.toNat).sum

/-- With two symbols or more the weighted length is the sum of the frequencies of the Nodes (R166). -/
def Obligations.WeightedLengthIsTheSumOfNodes : Prop :=
  ∀ s t : State, MachineInv s → s.st = .idle → s.tvalid = true → 2 ≤ s.nsym → exec .hgen s = .next t →
    (t.res3 ++ t.res2).toNat = ((s.nodes.filter fun n => !n.leaf).map fun n => n.freq.toNat).sum

/-- A single symbol (R137, R162): the tree is the bare leaf, and the symbol gets the one-bit code "0". -/
def Obligations.SingleSymbolGetsOneBit : Prop :=
  ∀ (s : State) (sym : Symbol) (f : Word), s.st = .idle → s.ft = [(sym, f)] →
    ∃ t u, exec .hbuild s = .next t ∧ exec .hgen t = .next u ∧
      t.nodes = [leafNode sym f] ∧ t.troot = 0#17 ∧ t.tnodes = 1 ∧ t.tvalid = true ∧
      ctEntry u.ct sym = ⟨1#16, 0⟩ ∧ (∀ k, k ≠ sym → ctEntry u.ct k = ⟨0#16, 0⟩) ∧
      u.res0 = 1#32 ∧ u.res1 = 1#32 ∧ u.res2 = f ∧ u.res3 = 0#32

/-- R168: HCODE, legal in IDLE only, raises E_NOTABLE without a valid code table; otherwise it returns the length of the code and the bits [32k+31 : 32k] of its value, for the word index k in ARG. -/
def Obligations.HcodeReadsOneWord : Prop :=
  (∀ sym : Symbol, legalInIdleOnly (.hcode sym) (0x1500#16 ++ sym)) ∧
  (∀ (s : State) (sym : Symbol), s.st = .idle → s.cvalid = false →
    exec (.hcode sym) s = .next { s with st := .error, errcode := .noTable, errinfo := s.pcmd }) ∧
  ∀ (s : State) (sym : Symbol), s.st = .idle → s.cvalid = true →
    ∃ t, exec (.hcode sym) s = .next t ∧
      t.res0.toNat = (ctEntry s.ct sym).len.toNat ∧
      t.res1.toNat = (ctEntry s.ct sym).val / 2 ^ (32 * s.arg.toNat) % 2 ^ 32 ∧
      t = { s with res0 := t.res0, res1 := t.res1, res2 := 0#32, res3 := 0#32, done := true }

/-! ### The LZW dictionary, encoder and decoder -/

/-- ENC and DEC start a session with the base dictionary, sample CTRL.STRICT, and clear the counters (43_lzw.md R180, R181). -/
def Obligations.LzwSessionsStartFresh : Prop :=
  legalInIdleOnly .enc 0x20000000#32 ∧ legalInIdleOnly .dec 0x21000000#32 ∧
  ∀ s : State, s.st = .idle →
    (∃ t, exec .enc s = .next t ∧ t.next = 256 ∧
      t = { s with
            dict := [], cur := 0#16, hascur := false, strictL := s.ctrl.getLsbD 0
            incnt := 0#32, outcnt := 0#32, st := .enc }) ∧
    (∃ t, exec .dec s = .next t ∧ t.next = 256 ∧
      t = { s with
            dict := [], prev := 0#16, hasprev := false, lo := 0#8, havelo := false, strictL := s.ctrl.getLsbD 0
            incnt := 0#32, outcnt := 0#32, st := .dec })

/-- The sequences of the dictionary (10_state.md R42): a base code is its byte, an assigned code the sequence of a smaller code followed by its byte, of length at most `c - 254`. -/
def Obligations.SequencesFollowTheChains : Prop :=
  ∀ (d : List DictEntry) (c : Nat), Dict.wf d = true →
    (c < 256 → Dict.seq d c = some [BitVec.ofNat 8 c]) ∧
    (256 ≤ c → c < 256 + d.length →
      ∃ e p, Dict.entry d c = some e ∧ e.pre.toNat < c ∧ Dict.seq d e.pre.toNat = some p ∧
        Dict.seq d c = some (p ++ [e.suf]) ∧ (p ++ [e.suf]).length ≤ c - 254) ∧
    (256 + d.length ≤ c → Dict.seq d c = none)

/-- R183: Lookup returns the least assigned code with the prefix code and the suffix byte, or none. -/
def Obligations.LookupFindsTheLeastCode : Prop :=
  ∀ (d : List DictEntry) (p : LzwCode) (b : Byte), 256 + d.length ≤ 65536 →
    (∀ c, Dict.lookup d p b = some c →
      Dict.entry d c.toNat = some ⟨p, b⟩ ∧ ∀ c', Dict.entry d c' = some ⟨p, b⟩ → c.toNat ≤ c') ∧
    (Dict.lookup d p b = none → ∀ c', Dict.entry d c' ≠ some ⟨p, b⟩)

/-- Within an encode session no two entries are the same, and then Lookup finds exactly the code of the extended sequence (R184). -/
def Obligations.LookupFindsTheExtendedSequence : Prop :=
  (∀ (b : InBeat) (s t : State), s.st = .enc → s.dict.Nodup → consume b s = .next t → t.dict.Nodup) ∧
  ∀ (d : List DictEntry) (p c : LzwCode) (b : Byte) (x : List Byte),
    Dict.wf d = true → d.Nodup → 256 + d.length ≤ 65536 → Dict.seq d p.toNat = some x →
    (Dict.lookup d p b = some c ↔ Dict.seq d c.toNat = some (x ++ [b]))

/-- R185: Insert assigns the old NEXT to the sequence of `p` followed by `b`, adds one to NEXT, and keeps every other entry and the falling chains. -/
def Obligations.InsertAssignsTheNextCode : Prop :=
  ∀ (s : State) (p : LzwCode) (b : Byte), s.next < 65536 → p.toNat < s.next → Dict.wf s.dict = true →
    (s.insert p b).next = s.next + 1 ∧ Dict.entry (s.insert p b).dict s.next = some ⟨p, b⟩ ∧
    (∀ c, c ≠ s.next → Dict.entry (s.insert p b).dict c = Dict.entry s.dict c) ∧
    (∃ x, Dict.seq s.dict p.toNat = some x ∧ Dict.seq (s.insert p b).dict s.next = some (x ++ [b])) ∧
    Dict.wf (s.insert p b).dict = true

/-- DLOOK's readout (R182): zeros at or above NEXT, the layout for a base code and for an assigned code, the first byte and the length of the sequence. -/
def Obligations.DlookReadsOneEntry : Prop :=
  (∀ c : LzwCode, legalInIdleOnly (.dlook c) (0x2400#16 ++ c)) ∧
  ∀ (s : State) (c : LzwCode), s.st = .idle → Dict.wf s.dict = true →
    (s.next ≤ c.toNat →
      exec (.dlook c) s = .next { s with res0 := 0#32, res1 := 0#32, res2 := 0#32, res3 := 0#32, done := true }) ∧
    (c.toNat < 256 →
      exec (.dlook c) s = .next
        { s with
          res0 := 0xC0000000#32, res1 := BitVec.ofNat 32 (c.toNat * 256 + c.toNat), res2 := 1#32
          res3 := 0#32, done := true }) ∧
    (256 ≤ c.toNat → c.toNat < s.next →
      ∃ e first rest, Dict.entry s.dict c.toNat = some e ∧ Dict.seq s.dict c.toNat = some (first :: rest) ∧
        exec (.dlook c) s = .next
          { s with
            res0 := BitVec.ofNat 32 (2 ^ 31 + e.pre.toNat)
            res1 := BitVec.ofNat 32 (first.toNat * 256 + e.suf.toNat)
            res2 := BitVec.ofNat 32 (first :: rest).length, res3 := 0#32, done := true })

/-- One byte of an encode session (R190 to R195): the first byte, a hit, a miss with room, a miss when full in strict mode and a miss when full and frozen. -/
def Obligations.EncoderTakesOneByte : Prop :=
  ∀ (s : State) (v : Payload), s.st = .enc →
    (s.hascur = false →
      consume (.data v) s = .next
        { s with incnt := s.incnt + 1#32, cur := (v.extractLsb' 0 8).setWidth 16, hascur := true }) ∧
    (∀ c, s.hascur = true → Dict.lookup s.dict s.cur (v.extractLsb' 0 8) = some c →
      consume (.data v) s = .next { s with incnt := s.incnt + 1#32, cur := c }) ∧
    (s.hascur = true → Dict.lookup s.dict s.cur (v.extractLsb' 0 8) = none → s.next < 65536 →
      consume (.data v) s = .next
        { s with
          incnt := s.incnt + 1#32, outcnt := s.outcnt + 2#32
          emit := s.emit ++ [.data (s.cur &&& 0xFF#16), .data (s.cur >>> 8)]
          dict := ⟨s.cur, v.extractLsb' 0 8⟩ :: s.dict
          cur := (v.extractLsb' 0 8).setWidth 16 }) ∧
    (s.hascur = true → Dict.lookup s.dict s.cur (v.extractLsb' 0 8) = none → 65536 ≤ s.next → s.strictL = true →
      consume (.data v) s = .next
        { s with
          incnt := s.incnt + 1#32, emit := s.emit ++ [.aborted], st := .error, errcode := .dictOvf
          errinfo := (v.extractLsb' 0 8).setWidth 32 }) ∧
    (s.hascur = true → Dict.lookup s.dict s.cur (v.extractLsb' 0 8) = none → 65536 ≤ s.next → s.strictL = false →
      consume (.data v) s = .next
        { s with
          incnt := s.incnt + 1#32, outcnt := s.outcnt + 2#32
          emit := s.emit ++ [.data (s.cur &&& 0xFF#16), .data (s.cur >>> 8)]
          ovf := true, cur := (v.extractLsb' 0 8).setWidth 16 })

/-- The END beat in every session (R196, R205, R225, R226, R228): the code of the encoder's match is emitted, an odd byte in DEC and UNPACK is E_TRUNC, and otherwise END is emitted, STATE is IDLE and DONE is set. -/
def Obligations.SessionsEndByTheirEndBeat : Prop :=
  ∀ s : State,
    (s.st = .enc → s.hascur = true →
      consume .fin s = .next
        { s with
          outcnt := s.outcnt + 2#32, emit := s.emit ++ [.data (s.cur &&& 0xFF#16), .data (s.cur >>> 8), .fin]
          hascur := false, st := .idle, done := true }) ∧
    (s.st = .enc → s.hascur = false →
      consume .fin s = .next { s with emit := s.emit ++ [.fin], st := .idle, done := true }) ∧
    ((s.st = .dec ∨ s.st = .unpack) → s.havelo = true →
      consume .fin s = .next
        { s with emit := s.emit ++ [.aborted], st := .error, errcode := .trunc, errinfo := s.lo.setWidth 32 }) ∧
    (s.st = .dec → s.havelo = false →
      consume .fin s = .next { s with hasprev := false, emit := s.emit ++ [.fin], st := .idle, done := true }) ∧
    (s.st = .unpack → s.havelo = false →
      consume .fin s = .next { s with emit := s.emit ++ [.fin], st := .idle, done := true }) ∧
    (s.st = .pack → consume .fin s = .next { s with emit := s.emit ++ [.fin], st := .idle, done := true })

/-- The bytes of DEC and UNPACK pair up (44_serializer.md R223): the first of a pair is kept in LO, the second completes the code with the first byte low. -/
def Obligations.StreamBytesPairUp : Prop :=
  ∀ (s : State) (v : Payload),
    ((s.st = .dec ∨ s.st = .unpack) → s.havelo = false →
      consume (.data v) s = .next
        { s with incnt := s.incnt + 1#32, lo := v.extractLsb' 0 8, havelo := true }) ∧
    (s.st = .unpack → s.havelo = true →
      consume (.data v) s = .next
        { s with
          incnt := s.incnt + 1#32, havelo := false, outcnt := s.outcnt + 1#32
          emit := s.emit ++ [.data (BitVec.ofNat 16 (s.lo.toNat + 256 * (v.toNat % 256)))] }) ∧
    (s.st = .dec → s.havelo = true →
      consume (.data v) s =
        decodeCode (BitVec.ofNat 16 (s.lo.toNat + 256 * (v.toNat % 256)))
          { s with incnt := s.incnt + 1#32, havelo := false })

/-- The decoder's success (R201, R203, R207): the first code of a session, and a later code with its expansion, its insertion or the frozen dictionary. -/
def Obligations.DecoderExpandsTheCode : Prop :=
  ∀ (s : State) (c : LzwCode), MachineInv s → s.st = .dec →
    (s.hasprev = false → c.toNat < 256 →
      decodeCode c s = .next
        { s with emit := s.emit ++ [.data c], outcnt := s.outcnt + 1#32, prev := c, hasprev := true }) ∧
    (s.hasprev = true → ¬ (s.next = 65536 ∧ s.strictL = true) → c.toNat ≤ s.next →
      ∃ first rest,
        (c.toNat < s.next → Dict.seq s.dict c.toNat = some (first :: rest)) ∧
        (c.toNat = s.next → ∃ tail, Dict.seq s.dict s.prev.toNat = some (first :: tail) ∧ rest = tail ++ [first]) ∧
        decodeCode c s = .next
          { s with
            emit := s.emit ++ (first :: rest).map (fun x => .data (x.setWidth 16))
            outcnt := s.outcnt + BitVec.ofNat 32 (rest.length + 1)
            dict := if s.next = 65536 then s.dict else ⟨s.prev, first⟩ :: s.dict
            ovf := if s.next = 65536 then true else s.ovf
            prev := c })

/-- When the decoder raises (R202, R204): E_DESYNC for a first code of 256 or more and for a later code above NEXT, E_DICTOVF in strict mode with the dictionary full, with the code and before anything is emitted. -/
def Obligations.DecoderRaisesOnBadCodes : Prop :=
  ∀ (s : State) (c : LzwCode), s.st = .dec →
    (s.hasprev = false → 256 ≤ c.toNat →
      decodeCode c s = .next
        { s with emit := s.emit ++ [.aborted], st := .error, errcode := .desync, errinfo := c.setWidth 32 }) ∧
    (s.hasprev = true → s.next = 65536 → s.strictL = true →
      decodeCode c s = .next
        { s with emit := s.emit ++ [.aborted], st := .error, errcode := .dictOvf, errinfo := c.setWidth 32 }) ∧
    (s.hasprev = true → s.next < 65536 → s.next < c.toNat →
      decodeCode c s = .next
        { s with emit := s.emit ++ [.aborted], st := .error, errcode := .desync, errinfo := c.setWidth 32 })

/-- The LZW round trip (R208): if an encode session of the bytes `x` ends in IDLE, its output is the bytes of some codes and END, and a decode session of those bytes with the same strict mode gives back exactly `x` and END. -/
def Obligations.LzwRoundTrip : Prop :=
  ∀ (x : List Byte) (s t s' : State) (out : List OutBeat),
    s.st = .idle → s.emit = [] → session .enc (bytePayloads x) s = some (t, out) → t.st = .idle →
    s'.st = .idle → s'.emit = [] → s'.ctrl.getLsbD 0 = s.ctrl.getLsbD 0 →
    ∃ codes : List LzwCode, out = completed (bytePayloads (codeBytes codes)) ∧
      ∃ u, session .dec (bytePayloads (codeBytes codes)) s' = some (u, completed (bytePayloads x)) ∧ u.st = .idle

/-- A non-strict encode session always ends in IDLE, so the round trip covers every byte sequence (R195, R208, 60_exceptions.md R269). -/
def Obligations.FrozenEncoderAlwaysEnds : Prop :=
  ∀ (x : List Byte) (s : State), s.st = .idle → s.emit = [] → s.ctrl.getLsbD 0 = false →
    ∃ t out, session .enc (bytePayloads x) s = some (t, out) ∧ t.st = .idle ∧ t.done = true ∧ t.next ≤ 65536

/-! ### The serializer -/

/-- PACK and UNPACK start a session and clear the counters, and touch neither the dictionary nor the Huffman tables (R220, R221); a PACK beat emits the low byte, then the high byte (R222, R224). -/
def Obligations.SerializerStartsAndPacks : Prop :=
  legalInIdleOnly .pack 0x22000000#32 ∧ legalInIdleOnly .unpack 0x23000000#32 ∧
  (∀ s : State, s.st = .idle →
    exec .pack s = .next { s with incnt := 0#32, outcnt := 0#32, st := .pack } ∧
    exec .unpack s = .next { s with lo := 0#8, havelo := false, incnt := 0#32, outcnt := 0#32, st := .unpack }) ∧
  ∀ (s : State) (v : Payload), s.st = .pack →
    consume (.data v) s = .next
      { s with
        incnt := s.incnt + 1#32, outcnt := s.outcnt + 2#32
        emit := s.emit ++ [.data (v &&& 0xFF#16), .data (v >>> 8)] }

/-- The serializer round trip (R230): a PACK session gives twice as many bytes as codes, and an UNPACK session of them gives the codes back. -/
def Obligations.SerializerRoundTrip : Prop :=
  ∀ (codes : List LzwCode) (s s' : State), s.st = .idle → s.emit = [] → s'.st = .idle → s'.emit = [] →
    ∃ t u, session .pack codes s = some (t, completed (bytePayloads (codeBytes codes))) ∧ t.st = .idle ∧
      (codeBytes codes).length = 2 * codes.length ∧
      session .unpack (bytePayloads (codeBytes codes)) s' = some (u, completed codes) ∧ u.st = .idle

/-! ### Rules about the whole machine -/

/-- What a beat of a session can change, and how it marks the output (45_sequencer.md R240, R248): only DATA beats while the session goes on, END as the last beat when it completes, ABORTED as the last beat when it fails. -/
def Obligations.BeatsMarkTheSessionOnce : Prop :=
  ∀ (b : InBeat) (s t : State), s.st.inSession = true → consume b s = .next t →
    (∃ data : List Payload,
      t.emit = s.emit ++ data.map .data ++
        (match t.st with | .idle => [.fin] | .error => [.aborted] | .enc => [] | .dec => [] | .pack => [] | .unpack => [])) ∧
    (t.st = s.st ∨ t.st = .idle ∨ t.st = .error) ∧
    t = { s with
          st := t.st, done := t.done, ovf := t.ovf, errcode := t.errcode, errinfo := t.errinfo, dict := t.dict
          cur := t.cur, hascur := t.hascur, prev := t.prev, hasprev := t.hasprev, lo := t.lo, havelo := t.havelo
          incnt := t.incnt, outcnt := t.outcnt, emit := t.emit }

/-- ARG and CTRL are written only by the host (10_state.md R34, R27), and RES0 to RES3 only by HGET, HBUILD, HGEN, HCODE, HNODE and DLOOK (R28): no other command but SRST changes them, and no beat does. -/
def Obligations.OperandAndResultRegisters : Prop :=
  (∀ (i : Instr) (s t : State), i ≠ .srst → exec i s = .next t →
    t.arg = s.arg ∧ t.ctrl = s.ctrl ∧ t.outq = s.outq ∧ t.pcmd = s.pcmd ∧ t.params = s.params ∧ t.env = s.env ∧
    ((t.res0, t.res1, t.res2, t.res3) ≠ (s.res0, s.res1, s.res2, s.res3) →
      t.st = .idle ∧
      (i = .hbuild ∨ i = .hgen ∨ i = .hnode ∨ (∃ k, i = .hget k) ∨ (∃ k, i = .hcode k) ∨ ∃ k, i = .dlook k))) ∧
  ∀ (b : InBeat) (s t : State), consume b s = .next t →
    t.arg = s.arg ∧ t.ctrl = s.ctrl ∧ t.res0 = s.res0 ∧ t.res1 = s.res1 ∧ t.res2 = s.res2 ∧ t.res3 = s.res3

/-- DONE is sticky (10_state.md R23, 45_sequencer.md R249): a step that clears it is a host write of STATUS with bit 4 set, RST, or SRST. -/
def Obligations.DoneIsSticky : Prop :=
  ∀ s t : State, s.done = true → step s = .next t → t.done = false →
    (∃ off v rest, s.env.script = .write off v :: rest ∧ Reg.ofOffset off = .status ∧ v.getLsbD 4 = true) ∨
    (∃ rest, s.env.script = .reset :: rest) ∨ (s.cmdp = true ∧ decode s.pcmd = .ok .srst)

/-- Reset meets the invariant. -/
def Obligations.InvariantHoldsAtReset : Prop := MachineInv State.reset

/-- Every step keeps the invariant, from every state that meets it. -/
def Obligations.StepKeepsTheInvariant : Prop :=
  ∀ s t : State, MachineInv s → step s = .next t → MachineInv t

/-- From every state that meets the invariant the machine takes a step: it never faults (its two faults are the model's, log entries 7 and 8) and never refuses.
That it takes a step where the spec has none enabled (60_exceptions.md R280) is the model's choice, log entry 3. -/
def Obligations.SoundStatesAlwaysStep : Prop :=
  ∀ s : State, MachineInv s → ∃ t, step s = .next t
end

