-- ==== Sys2Proof/Laws/Dict.lean ====
section
/-! SUPPORT. The LZW dictionary: NEXT under an insertion, and what `seq` answers. -/

namespace Sys2Proof.Machine

@[simp] theorem Dict.next_nil : Dict.next [] = 256 := rfl

@[simp] theorem Dict.next_cons (e : DictEntry) (d : List DictEntry) : Dict.next (e :: d) = Dict.next d + 1 := by
  simp [Dict.next]; omega

theorem Dict.next_eq (d : List DictEntry) : Dict.next d = 256 + d.length := rfl

@[simp] theorem State.insert_next (s : State) (p : LzwCode) (b : Byte) : (s.insert p b).next = s.next + 1 := by
  simp [State.next, State.insert]

theorem State.full_iff (s : State) : s.full = true ↔ 65536 ≤ s.next := by
  unfold State.full
  exact decide_eq_true_iff

/-- A sequence is never empty. -/
theorem Dict.seq_ne_nil {d : List DictEntry} {c : Nat} : Dict.seq d c ≠ some [] := by
  induction d generalizing c with
  | nil => simp only [Dict.seq]; split_ifs <;> simp
  | cons e older ih =>
    simp only [Dict.seq]
    split_ifs
    · cases Dict.seq older e.pre.toNat <;> simp
    · exact ih

/-- At or above NEXT there is no sequence. -/
theorem Dict.seq_none_of_next_le {d : List DictEntry} {c : Nat} (h : Dict.next d ≤ c) : Dict.seq d c = none := by
  induction d with
  | nil => simp only [Dict.next_nil] at h; simp only [Dict.seq, Config.baseCodes]; exact if_neg (by omega)
  | cons e older ih =>
    rw [Dict.next_cons] at h
    have : c ≠ Dict.next older := by omega
    simp [Dict.seq, this, ih (by omega)]

/-- Below NEXT, with falling chains, there is one. -/
theorem Dict.seq_some_of_lt_next {d : List DictEntry} (hw : Dict.wf d = true) :
    ∀ {c : Nat}, c < Dict.next d → ∃ first rest, Dict.seq d c = some (first :: rest) := by
  induction d with
  | nil =>
    intro c h
    simp only [Dict.next_nil] at h
    exact ⟨BitVec.ofNat 8 c, [], by simp [Dict.seq, Config.baseCodes, h]⟩
  | cons e older ih =>
    simp only [Dict.wf, Bool.and_eq_true, decide_eq_true_eq] at hw
    intro c h
    rw [Dict.next_cons] at h
    by_cases hc : c = Dict.next older
    · obtain ⟨x, xs, hx⟩ := ih hw.2 hw.1
      exact ⟨x, xs ++ [e.suf], by simp [Dict.seq, hc, hx]⟩
    · obtain ⟨x, xs, hx⟩ := ih hw.2 (c := c) (by omega)
      exact ⟨x, xs, by simp [Dict.seq, hc, hx]⟩

/-- An entry of the dictionary is below NEXT and not a base code. -/
theorem Dict.entry_range {d : List DictEntry} {c : Nat} {e : DictEntry} (h : Dict.entry d c = some e) :
    256 ≤ c ∧ c < Dict.next d := by
  induction d with
  | nil => simp [Dict.entry] at h
  | cons a older ih =>
    simp only [Dict.entry] at h
    rw [Dict.next_cons]
    split_ifs at h with hc
    · subst hc; have := Dict.next_eq older; omega
    · have := ih h; omega

/-- Inserting a code of the dictionary keeps the falling chains (10_state.md R41). -/
theorem Dict.wf_insert {d : List DictEntry} (hw : Dict.wf d = true) {p : LzwCode} (hp : p.toNat < Dict.next d) (b : Byte) :
    Dict.wf (⟨p, b⟩ :: d) = true := by
  simp [Dict.wf, hp, hw]

end Sys2Proof.Machine
end

