-- ==== Sys2Proof/Laws/State.lean ====
section
/-! SUPPORT. One lemma per field per named update of State, so that no proof unfolds an update. -/

namespace Sys2Proof.Machine

variable (s : State)

/-! ### setRes -/

@[simp] theorem State.setRes_ctrl (r0 r1 r2 r3 : Word) : (s.setRes r0 r1 r2 r3).ctrl = s.ctrl := rfl
@[simp] theorem State.setRes_arg (r0 r1 r2 r3 : Word) : (s.setRes r0 r1 r2 r3).arg = s.arg := rfl
@[simp] theorem State.setRes_res0 (r0 r1 r2 r3 : Word) : (s.setRes r0 r1 r2 r3).res0 = r0 := rfl
@[simp] theorem State.setRes_res1 (r0 r1 r2 r3 : Word) : (s.setRes r0 r1 r2 r3).res1 = r1 := rfl
@[simp] theorem State.setRes_res2 (r0 r1 r2 r3 : Word) : (s.setRes r0 r1 r2 r3).res2 = r2 := rfl
@[simp] theorem State.setRes_res3 (r0 r1 r2 r3 : Word) : (s.setRes r0 r1 r2 r3).res3 = r3 := rfl
@[simp] theorem State.setRes_st (r0 r1 r2 r3 : Word) : (s.setRes r0 r1 r2 r3).st = s.st := rfl
@[simp] theorem State.setRes_cmdp (r0 r1 r2 r3 : Word) : (s.setRes r0 r1 r2 r3).cmdp = s.cmdp := rfl
@[simp] theorem State.setRes_pcmd (r0 r1 r2 r3 : Word) : (s.setRes r0 r1 r2 r3).pcmd = s.pcmd := rfl
@[simp] theorem State.setRes_done (r0 r1 r2 r3 : Word) : (s.setRes r0 r1 r2 r3).done = s.done := rfl
@[simp] theorem State.setRes_ovf (r0 r1 r2 r3 : Word) : (s.setRes r0 r1 r2 r3).ovf = s.ovf := rfl
@[simp] theorem State.setRes_errcode (r0 r1 r2 r3 : Word) : (s.setRes r0 r1 r2 r3).errcode = s.errcode := rfl
@[simp] theorem State.setRes_errinfo (r0 r1 r2 r3 : Word) : (s.setRes r0 r1 r2 r3).errinfo = s.errinfo := rfl
@[simp] theorem State.setRes_ft (r0 r1 r2 r3 : Word) : (s.setRes r0 r1 r2 r3).ft = s.ft := rfl
@[simp] theorem State.setRes_nodes (r0 r1 r2 r3 : Word) : (s.setRes r0 r1 r2 r3).nodes = s.nodes := rfl
@[simp] theorem State.setRes_troot (r0 r1 r2 r3 : Word) : (s.setRes r0 r1 r2 r3).troot = s.troot := rfl
@[simp] theorem State.setRes_tvalid (r0 r1 r2 r3 : Word) : (s.setRes r0 r1 r2 r3).tvalid = s.tvalid := rfl
@[simp] theorem State.setRes_ct (r0 r1 r2 r3 : Word) : (s.setRes r0 r1 r2 r3).ct = s.ct := rfl
@[simp] theorem State.setRes_cvalid (r0 r1 r2 r3 : Word) : (s.setRes r0 r1 r2 r3).cvalid = s.cvalid := rfl
@[simp] theorem State.setRes_dict (r0 r1 r2 r3 : Word) : (s.setRes r0 r1 r2 r3).dict = s.dict := rfl
@[simp] theorem State.setRes_cur (r0 r1 r2 r3 : Word) : (s.setRes r0 r1 r2 r3).cur = s.cur := rfl
@[simp] theorem State.setRes_hascur (r0 r1 r2 r3 : Word) : (s.setRes r0 r1 r2 r3).hascur = s.hascur := rfl
@[simp] theorem State.setRes_prev (r0 r1 r2 r3 : Word) : (s.setRes r0 r1 r2 r3).prev = s.prev := rfl
@[simp] theorem State.setRes_hasprev (r0 r1 r2 r3 : Word) : (s.setRes r0 r1 r2 r3).hasprev = s.hasprev := rfl
@[simp] theorem State.setRes_lo (r0 r1 r2 r3 : Word) : (s.setRes r0 r1 r2 r3).lo = s.lo := rfl
@[simp] theorem State.setRes_havelo (r0 r1 r2 r3 : Word) : (s.setRes r0 r1 r2 r3).havelo = s.havelo := rfl
@[simp] theorem State.setRes_strictL (r0 r1 r2 r3 : Word) : (s.setRes r0 r1 r2 r3).strictL = s.strictL := rfl
@[simp] theorem State.setRes_incnt (r0 r1 r2 r3 : Word) : (s.setRes r0 r1 r2 r3).incnt = s.incnt := rfl
@[simp] theorem State.setRes_outcnt (r0 r1 r2 r3 : Word) : (s.setRes r0 r1 r2 r3).outcnt = s.outcnt := rfl
@[simp] theorem State.setRes_inq (r0 r1 r2 r3 : Word) : (s.setRes r0 r1 r2 r3).inq = s.inq := rfl
@[simp] theorem State.setRes_emit (r0 r1 r2 r3 : Word) : (s.setRes r0 r1 r2 r3).emit = s.emit := rfl
@[simp] theorem State.setRes_outq (r0 r1 r2 r3 : Word) : (s.setRes r0 r1 r2 r3).outq = s.outq := rfl
@[simp] theorem State.setRes_params (r0 r1 r2 r3 : Word) : (s.setRes r0 r1 r2 r3).params = s.params := rfl
@[simp] theorem State.setRes_env (r0 r1 r2 r3 : Word) : (s.setRes r0 r1 r2 r3).env = s.env := rfl

/-! ### setDone -/

@[simp] theorem State.setDone_ctrl : (s.setDone).ctrl = s.ctrl := rfl
@[simp] theorem State.setDone_arg : (s.setDone).arg = s.arg := rfl
@[simp] theorem State.setDone_res0 : (s.setDone).res0 = s.res0 := rfl
@[simp] theorem State.setDone_res1 : (s.setDone).res1 = s.res1 := rfl
@[simp] theorem State.setDone_res2 : (s.setDone).res2 = s.res2 := rfl
@[simp] theorem State.setDone_res3 : (s.setDone).res3 = s.res3 := rfl
@[simp] theorem State.setDone_st : (s.setDone).st = s.st := rfl
@[simp] theorem State.setDone_cmdp : (s.setDone).cmdp = s.cmdp := rfl
@[simp] theorem State.setDone_pcmd : (s.setDone).pcmd = s.pcmd := rfl
@[simp] theorem State.setDone_done : (s.setDone).done = true := rfl
@[simp] theorem State.setDone_ovf : (s.setDone).ovf = s.ovf := rfl
@[simp] theorem State.setDone_errcode : (s.setDone).errcode = s.errcode := rfl
@[simp] theorem State.setDone_errinfo : (s.setDone).errinfo = s.errinfo := rfl
@[simp] theorem State.setDone_ft : (s.setDone).ft = s.ft := rfl
@[simp] theorem State.setDone_nodes : (s.setDone).nodes = s.nodes := rfl
@[simp] theorem State.setDone_troot : (s.setDone).troot = s.troot := rfl
@[simp] theorem State.setDone_tvalid : (s.setDone).tvalid = s.tvalid := rfl
@[simp] theorem State.setDone_ct : (s.setDone).ct = s.ct := rfl
@[simp] theorem State.setDone_cvalid : (s.setDone).cvalid = s.cvalid := rfl
@[simp] theorem State.setDone_dict : (s.setDone).dict = s.dict := rfl
@[simp] theorem State.setDone_cur : (s.setDone).cur = s.cur := rfl
@[simp] theorem State.setDone_hascur : (s.setDone).hascur = s.hascur := rfl
@[simp] theorem State.setDone_prev : (s.setDone).prev = s.prev := rfl
@[simp] theorem State.setDone_hasprev : (s.setDone).hasprev = s.hasprev := rfl
@[simp] theorem State.setDone_lo : (s.setDone).lo = s.lo := rfl
@[simp] theorem State.setDone_havelo : (s.setDone).havelo = s.havelo := rfl
@[simp] theorem State.setDone_strictL : (s.setDone).strictL = s.strictL := rfl
@[simp] theorem State.setDone_incnt : (s.setDone).incnt = s.incnt := rfl
@[simp] theorem State.setDone_outcnt : (s.setDone).outcnt = s.outcnt := rfl
@[simp] theorem State.setDone_inq : (s.setDone).inq = s.inq := rfl
@[simp] theorem State.setDone_emit : (s.setDone).emit = s.emit := rfl
@[simp] theorem State.setDone_outq : (s.setDone).outq = s.outq := rfl
@[simp] theorem State.setDone_params : (s.setDone).params = s.params := rfl
@[simp] theorem State.setDone_env : (s.setDone).env = s.env := rfl

/-! ### setOvf -/

@[simp] theorem State.setOvf_ctrl : (s.setOvf).ctrl = s.ctrl := rfl
@[simp] theorem State.setOvf_arg : (s.setOvf).arg = s.arg := rfl
@[simp] theorem State.setOvf_res0 : (s.setOvf).res0 = s.res0 := rfl
@[simp] theorem State.setOvf_res1 : (s.setOvf).res1 = s.res1 := rfl
@[simp] theorem State.setOvf_res2 : (s.setOvf).res2 = s.res2 := rfl
@[simp] theorem State.setOvf_res3 : (s.setOvf).res3 = s.res3 := rfl
@[simp] theorem State.setOvf_st : (s.setOvf).st = s.st := rfl
@[simp] theorem State.setOvf_cmdp : (s.setOvf).cmdp = s.cmdp := rfl
@[simp] theorem State.setOvf_pcmd : (s.setOvf).pcmd = s.pcmd := rfl
@[simp] theorem State.setOvf_done : (s.setOvf).done = s.done := rfl
@[simp] theorem State.setOvf_ovf : (s.setOvf).ovf = true := rfl
@[simp] theorem State.setOvf_errcode : (s.setOvf).errcode = s.errcode := rfl
@[simp] theorem State.setOvf_errinfo : (s.setOvf).errinfo = s.errinfo := rfl
@[simp] theorem State.setOvf_ft : (s.setOvf).ft = s.ft := rfl
@[simp] theorem State.setOvf_nodes : (s.setOvf).nodes = s.nodes := rfl
@[simp] theorem State.setOvf_troot : (s.setOvf).troot = s.troot := rfl
@[simp] theorem State.setOvf_tvalid : (s.setOvf).tvalid = s.tvalid := rfl
@[simp] theorem State.setOvf_ct : (s.setOvf).ct = s.ct := rfl
@[simp] theorem State.setOvf_cvalid : (s.setOvf).cvalid = s.cvalid := rfl
@[simp] theorem State.setOvf_dict : (s.setOvf).dict = s.dict := rfl
@[simp] theorem State.setOvf_cur : (s.setOvf).cur = s.cur := rfl
@[simp] theorem State.setOvf_hascur : (s.setOvf).hascur = s.hascur := rfl
@[simp] theorem State.setOvf_prev : (s.setOvf).prev = s.prev := rfl
@[simp] theorem State.setOvf_hasprev : (s.setOvf).hasprev = s.hasprev := rfl
@[simp] theorem State.setOvf_lo : (s.setOvf).lo = s.lo := rfl
@[simp] theorem State.setOvf_havelo : (s.setOvf).havelo = s.havelo := rfl
@[simp] theorem State.setOvf_strictL : (s.setOvf).strictL = s.strictL := rfl
@[simp] theorem State.setOvf_incnt : (s.setOvf).incnt = s.incnt := rfl
@[simp] theorem State.setOvf_outcnt : (s.setOvf).outcnt = s.outcnt := rfl
@[simp] theorem State.setOvf_inq : (s.setOvf).inq = s.inq := rfl
@[simp] theorem State.setOvf_emit : (s.setOvf).emit = s.emit := rfl
@[simp] theorem State.setOvf_outq : (s.setOvf).outq = s.outq := rfl
@[simp] theorem State.setOvf_params : (s.setOvf).params = s.params := rfl
@[simp] theorem State.setOvf_env : (s.setOvf).env = s.env := rfl

/-! ### staleTables -/

@[simp] theorem State.staleTables_ctrl : (s.staleTables).ctrl = s.ctrl := rfl
@[simp] theorem State.staleTables_arg : (s.staleTables).arg = s.arg := rfl
@[simp] theorem State.staleTables_res0 : (s.staleTables).res0 = s.res0 := rfl
@[simp] theorem State.staleTables_res1 : (s.staleTables).res1 = s.res1 := rfl
@[simp] theorem State.staleTables_res2 : (s.staleTables).res2 = s.res2 := rfl
@[simp] theorem State.staleTables_res3 : (s.staleTables).res3 = s.res3 := rfl
@[simp] theorem State.staleTables_st : (s.staleTables).st = s.st := rfl
@[simp] theorem State.staleTables_cmdp : (s.staleTables).cmdp = s.cmdp := rfl
@[simp] theorem State.staleTables_pcmd : (s.staleTables).pcmd = s.pcmd := rfl
@[simp] theorem State.staleTables_done : (s.staleTables).done = s.done := rfl
@[simp] theorem State.staleTables_ovf : (s.staleTables).ovf = s.ovf := rfl
@[simp] theorem State.staleTables_errcode : (s.staleTables).errcode = s.errcode := rfl
@[simp] theorem State.staleTables_errinfo : (s.staleTables).errinfo = s.errinfo := rfl
@[simp] theorem State.staleTables_ft : (s.staleTables).ft = s.ft := rfl
@[simp] theorem State.staleTables_nodes : (s.staleTables).nodes = s.nodes := rfl
@[simp] theorem State.staleTables_troot : (s.staleTables).troot = s.troot := rfl
@[simp] theorem State.staleTables_tvalid : (s.staleTables).tvalid = false := rfl
@[simp] theorem State.staleTables_ct : (s.staleTables).ct = s.ct := rfl
@[simp] theorem State.staleTables_cvalid : (s.staleTables).cvalid = false := rfl
@[simp] theorem State.staleTables_dict : (s.staleTables).dict = s.dict := rfl
@[simp] theorem State.staleTables_cur : (s.staleTables).cur = s.cur := rfl
@[simp] theorem State.staleTables_hascur : (s.staleTables).hascur = s.hascur := rfl
@[simp] theorem State.staleTables_prev : (s.staleTables).prev = s.prev := rfl
@[simp] theorem State.staleTables_hasprev : (s.staleTables).hasprev = s.hasprev := rfl
@[simp] theorem State.staleTables_lo : (s.staleTables).lo = s.lo := rfl
@[simp] theorem State.staleTables_havelo : (s.staleTables).havelo = s.havelo := rfl
@[simp] theorem State.staleTables_strictL : (s.staleTables).strictL = s.strictL := rfl
@[simp] theorem State.staleTables_incnt : (s.staleTables).incnt = s.incnt := rfl
@[simp] theorem State.staleTables_outcnt : (s.staleTables).outcnt = s.outcnt := rfl
@[simp] theorem State.staleTables_inq : (s.staleTables).inq = s.inq := rfl
@[simp] theorem State.staleTables_emit : (s.staleTables).emit = s.emit := rfl
@[simp] theorem State.staleTables_outq : (s.staleTables).outq = s.outq := rfl
@[simp] theorem State.staleTables_params : (s.staleTables).params = s.params := rfl
@[simp] theorem State.staleTables_env : (s.staleTables).env = s.env := rfl

/-! ### enter -/

@[simp] theorem State.enter_ctrl (x : SeqState) : (s.enter x).ctrl = s.ctrl := rfl
@[simp] theorem State.enter_arg (x : SeqState) : (s.enter x).arg = s.arg := rfl
@[simp] theorem State.enter_res0 (x : SeqState) : (s.enter x).res0 = s.res0 := rfl
@[simp] theorem State.enter_res1 (x : SeqState) : (s.enter x).res1 = s.res1 := rfl
@[simp] theorem State.enter_res2 (x : SeqState) : (s.enter x).res2 = s.res2 := rfl
@[simp] theorem State.enter_res3 (x : SeqState) : (s.enter x).res3 = s.res3 := rfl
@[simp] theorem State.enter_st (x : SeqState) : (s.enter x).st = x := rfl
@[simp] theorem State.enter_cmdp (x : SeqState) : (s.enter x).cmdp = s.cmdp := rfl
@[simp] theorem State.enter_pcmd (x : SeqState) : (s.enter x).pcmd = s.pcmd := rfl
@[simp] theorem State.enter_done (x : SeqState) : (s.enter x).done = s.done := rfl
@[simp] theorem State.enter_ovf (x : SeqState) : (s.enter x).ovf = s.ovf := rfl
@[simp] theorem State.enter_errcode (x : SeqState) : (s.enter x).errcode = s.errcode := rfl
@[simp] theorem State.enter_errinfo (x : SeqState) : (s.enter x).errinfo = s.errinfo := rfl
@[simp] theorem State.enter_ft (x : SeqState) : (s.enter x).ft = s.ft := rfl
@[simp] theorem State.enter_nodes (x : SeqState) : (s.enter x).nodes = s.nodes := rfl
@[simp] theorem State.enter_troot (x : SeqState) : (s.enter x).troot = s.troot := rfl
@[simp] theorem State.enter_tvalid (x : SeqState) : (s.enter x).tvalid = s.tvalid := rfl
@[simp] theorem State.enter_ct (x : SeqState) : (s.enter x).ct = s.ct := rfl
@[simp] theorem State.enter_cvalid (x : SeqState) : (s.enter x).cvalid = s.cvalid := rfl
@[simp] theorem State.enter_dict (x : SeqState) : (s.enter x).dict = s.dict := rfl
@[simp] theorem State.enter_cur (x : SeqState) : (s.enter x).cur = s.cur := rfl
@[simp] theorem State.enter_hascur (x : SeqState) : (s.enter x).hascur = s.hascur := rfl
@[simp] theorem State.enter_prev (x : SeqState) : (s.enter x).prev = s.prev := rfl
@[simp] theorem State.enter_hasprev (x : SeqState) : (s.enter x).hasprev = s.hasprev := rfl
@[simp] theorem State.enter_lo (x : SeqState) : (s.enter x).lo = s.lo := rfl
@[simp] theorem State.enter_havelo (x : SeqState) : (s.enter x).havelo = s.havelo := rfl
@[simp] theorem State.enter_strictL (x : SeqState) : (s.enter x).strictL = s.strictL := rfl
@[simp] theorem State.enter_incnt (x : SeqState) : (s.enter x).incnt = s.incnt := rfl
@[simp] theorem State.enter_outcnt (x : SeqState) : (s.enter x).outcnt = s.outcnt := rfl
@[simp] theorem State.enter_inq (x : SeqState) : (s.enter x).inq = s.inq := rfl
@[simp] theorem State.enter_emit (x : SeqState) : (s.enter x).emit = s.emit := rfl
@[simp] theorem State.enter_outq (x : SeqState) : (s.enter x).outq = s.outq := rfl
@[simp] theorem State.enter_params (x : SeqState) : (s.enter x).params = s.params := rfl
@[simp] theorem State.enter_env (x : SeqState) : (s.enter x).env = s.env := rfl

/-! ### countIn -/

@[simp] theorem State.countIn_ctrl : (s.countIn).ctrl = s.ctrl := rfl
@[simp] theorem State.countIn_arg : (s.countIn).arg = s.arg := rfl
@[simp] theorem State.countIn_res0 : (s.countIn).res0 = s.res0 := rfl
@[simp] theorem State.countIn_res1 : (s.countIn).res1 = s.res1 := rfl
@[simp] theorem State.countIn_res2 : (s.countIn).res2 = s.res2 := rfl
@[simp] theorem State.countIn_res3 : (s.countIn).res3 = s.res3 := rfl
@[simp] theorem State.countIn_st : (s.countIn).st = s.st := rfl
@[simp] theorem State.countIn_cmdp : (s.countIn).cmdp = s.cmdp := rfl
@[simp] theorem State.countIn_pcmd : (s.countIn).pcmd = s.pcmd := rfl
@[simp] theorem State.countIn_done : (s.countIn).done = s.done := rfl
@[simp] theorem State.countIn_ovf : (s.countIn).ovf = s.ovf := rfl
@[simp] theorem State.countIn_errcode : (s.countIn).errcode = s.errcode := rfl
@[simp] theorem State.countIn_errinfo : (s.countIn).errinfo = s.errinfo := rfl
@[simp] theorem State.countIn_ft : (s.countIn).ft = s.ft := rfl
@[simp] theorem State.countIn_nodes : (s.countIn).nodes = s.nodes := rfl
@[simp] theorem State.countIn_troot : (s.countIn).troot = s.troot := rfl
@[simp] theorem State.countIn_tvalid : (s.countIn).tvalid = s.tvalid := rfl
@[simp] theorem State.countIn_ct : (s.countIn).ct = s.ct := rfl
@[simp] theorem State.countIn_cvalid : (s.countIn).cvalid = s.cvalid := rfl
@[simp] theorem State.countIn_dict : (s.countIn).dict = s.dict := rfl
@[simp] theorem State.countIn_cur : (s.countIn).cur = s.cur := rfl
@[simp] theorem State.countIn_hascur : (s.countIn).hascur = s.hascur := rfl
@[simp] theorem State.countIn_prev : (s.countIn).prev = s.prev := rfl
@[simp] theorem State.countIn_hasprev : (s.countIn).hasprev = s.hasprev := rfl
@[simp] theorem State.countIn_lo : (s.countIn).lo = s.lo := rfl
@[simp] theorem State.countIn_havelo : (s.countIn).havelo = s.havelo := rfl
@[simp] theorem State.countIn_strictL : (s.countIn).strictL = s.strictL := rfl
@[simp] theorem State.countIn_incnt : (s.countIn).incnt = s.incnt + 1#32 := rfl
@[simp] theorem State.countIn_outcnt : (s.countIn).outcnt = s.outcnt := rfl
@[simp] theorem State.countIn_inq : (s.countIn).inq = s.inq := rfl
@[simp] theorem State.countIn_emit : (s.countIn).emit = s.emit := rfl
@[simp] theorem State.countIn_outq : (s.countIn).outq = s.outq := rfl
@[simp] theorem State.countIn_params : (s.countIn).params = s.params := rfl
@[simp] theorem State.countIn_env : (s.countIn).env = s.env := rfl

/-! ### clearCounts -/

@[simp] theorem State.clearCounts_ctrl : (s.clearCounts).ctrl = s.ctrl := rfl
@[simp] theorem State.clearCounts_arg : (s.clearCounts).arg = s.arg := rfl
@[simp] theorem State.clearCounts_res0 : (s.clearCounts).res0 = s.res0 := rfl
@[simp] theorem State.clearCounts_res1 : (s.clearCounts).res1 = s.res1 := rfl
@[simp] theorem State.clearCounts_res2 : (s.clearCounts).res2 = s.res2 := rfl
@[simp] theorem State.clearCounts_res3 : (s.clearCounts).res3 = s.res3 := rfl
@[simp] theorem State.clearCounts_st : (s.clearCounts).st = s.st := rfl
@[simp] theorem State.clearCounts_cmdp : (s.clearCounts).cmdp = s.cmdp := rfl
@[simp] theorem State.clearCounts_pcmd : (s.clearCounts).pcmd = s.pcmd := rfl
@[simp] theorem State.clearCounts_done : (s.clearCounts).done = s.done := rfl
@[simp] theorem State.clearCounts_ovf : (s.clearCounts).ovf = s.ovf := rfl
@[simp] theorem State.clearCounts_errcode : (s.clearCounts).errcode = s.errcode := rfl
@[simp] theorem State.clearCounts_errinfo : (s.clearCounts).errinfo = s.errinfo := rfl
@[simp] theorem State.clearCounts_ft : (s.clearCounts).ft = s.ft := rfl
@[simp] theorem State.clearCounts_nodes : (s.clearCounts).nodes = s.nodes := rfl
@[simp] theorem State.clearCounts_troot : (s.clearCounts).troot = s.troot := rfl
@[simp] theorem State.clearCounts_tvalid : (s.clearCounts).tvalid = s.tvalid := rfl
@[simp] theorem State.clearCounts_ct : (s.clearCounts).ct = s.ct := rfl
@[simp] theorem State.clearCounts_cvalid : (s.clearCounts).cvalid = s.cvalid := rfl
@[simp] theorem State.clearCounts_dict : (s.clearCounts).dict = s.dict := rfl
@[simp] theorem State.clearCounts_cur : (s.clearCounts).cur = s.cur := rfl
@[simp] theorem State.clearCounts_hascur : (s.clearCounts).hascur = s.hascur := rfl
@[simp] theorem State.clearCounts_prev : (s.clearCounts).prev = s.prev := rfl
@[simp] theorem State.clearCounts_hasprev : (s.clearCounts).hasprev = s.hasprev := rfl
@[simp] theorem State.clearCounts_lo : (s.clearCounts).lo = s.lo := rfl
@[simp] theorem State.clearCounts_havelo : (s.clearCounts).havelo = s.havelo := rfl
@[simp] theorem State.clearCounts_strictL : (s.clearCounts).strictL = s.strictL := rfl
@[simp] theorem State.clearCounts_incnt : (s.clearCounts).incnt = 0#32 := rfl
@[simp] theorem State.clearCounts_outcnt : (s.clearCounts).outcnt = 0#32 := rfl
@[simp] theorem State.clearCounts_inq : (s.clearCounts).inq = s.inq := rfl
@[simp] theorem State.clearCounts_emit : (s.clearCounts).emit = s.emit := rfl
@[simp] theorem State.clearCounts_outq : (s.clearCounts).outq = s.outq := rfl
@[simp] theorem State.clearCounts_params : (s.clearCounts).params = s.params := rfl
@[simp] theorem State.clearCounts_env : (s.clearCounts).env = s.env := rfl

/-! ### clearSession -/

@[simp] theorem State.clearSession_ctrl : (s.clearSession).ctrl = s.ctrl := rfl
@[simp] theorem State.clearSession_arg : (s.clearSession).arg = s.arg := rfl
@[simp] theorem State.clearSession_res0 : (s.clearSession).res0 = s.res0 := rfl
@[simp] theorem State.clearSession_res1 : (s.clearSession).res1 = s.res1 := rfl
@[simp] theorem State.clearSession_res2 : (s.clearSession).res2 = s.res2 := rfl
@[simp] theorem State.clearSession_res3 : (s.clearSession).res3 = s.res3 := rfl
@[simp] theorem State.clearSession_st : (s.clearSession).st = s.st := rfl
@[simp] theorem State.clearSession_cmdp : (s.clearSession).cmdp = s.cmdp := rfl
@[simp] theorem State.clearSession_pcmd : (s.clearSession).pcmd = s.pcmd := rfl
@[simp] theorem State.clearSession_done : (s.clearSession).done = s.done := rfl
@[simp] theorem State.clearSession_ovf : (s.clearSession).ovf = s.ovf := rfl
@[simp] theorem State.clearSession_errcode : (s.clearSession).errcode = s.errcode := rfl
@[simp] theorem State.clearSession_errinfo : (s.clearSession).errinfo = s.errinfo := rfl
@[simp] theorem State.clearSession_ft : (s.clearSession).ft = s.ft := rfl
@[simp] theorem State.clearSession_nodes : (s.clearSession).nodes = s.nodes := rfl
@[simp] theorem State.clearSession_troot : (s.clearSession).troot = s.troot := rfl
@[simp] theorem State.clearSession_tvalid : (s.clearSession).tvalid = s.tvalid := rfl
@[simp] theorem State.clearSession_ct : (s.clearSession).ct = s.ct := rfl
@[simp] theorem State.clearSession_cvalid : (s.clearSession).cvalid = s.cvalid := rfl
@[simp] theorem State.clearSession_dict : (s.clearSession).dict = s.dict := rfl
@[simp] theorem State.clearSession_cur : (s.clearSession).cur = s.cur := rfl
@[simp] theorem State.clearSession_hascur : (s.clearSession).hascur = false := rfl
@[simp] theorem State.clearSession_prev : (s.clearSession).prev = s.prev := rfl
@[simp] theorem State.clearSession_hasprev : (s.clearSession).hasprev = false := rfl
@[simp] theorem State.clearSession_lo : (s.clearSession).lo = s.lo := rfl
@[simp] theorem State.clearSession_havelo : (s.clearSession).havelo = false := rfl
@[simp] theorem State.clearSession_strictL : (s.clearSession).strictL = s.strictL := rfl
@[simp] theorem State.clearSession_incnt : (s.clearSession).incnt = s.incnt := rfl
@[simp] theorem State.clearSession_outcnt : (s.clearSession).outcnt = s.outcnt := rfl
@[simp] theorem State.clearSession_inq : (s.clearSession).inq = s.inq := rfl
@[simp] theorem State.clearSession_emit : (s.clearSession).emit = s.emit := rfl
@[simp] theorem State.clearSession_outq : (s.clearSession).outq = s.outq := rfl
@[simp] theorem State.clearSession_params : (s.clearSession).params = s.params := rfl
@[simp] theorem State.clearSession_env : (s.clearSession).env = s.env := rfl

/-! ### clearCmdp -/

@[simp] theorem State.clearCmdp_ctrl : (s.clearCmdp).ctrl = s.ctrl := rfl
@[simp] theorem State.clearCmdp_arg : (s.clearCmdp).arg = s.arg := rfl
@[simp] theorem State.clearCmdp_res0 : (s.clearCmdp).res0 = s.res0 := rfl
@[simp] theorem State.clearCmdp_res1 : (s.clearCmdp).res1 = s.res1 := rfl
@[simp] theorem State.clearCmdp_res2 : (s.clearCmdp).res2 = s.res2 := rfl
@[simp] theorem State.clearCmdp_res3 : (s.clearCmdp).res3 = s.res3 := rfl
@[simp] theorem State.clearCmdp_st : (s.clearCmdp).st = s.st := rfl
@[simp] theorem State.clearCmdp_cmdp : (s.clearCmdp).cmdp = false := rfl
@[simp] theorem State.clearCmdp_pcmd : (s.clearCmdp).pcmd = s.pcmd := rfl
@[simp] theorem State.clearCmdp_done : (s.clearCmdp).done = s.done := rfl
@[simp] theorem State.clearCmdp_ovf : (s.clearCmdp).ovf = s.ovf := rfl
@[simp] theorem State.clearCmdp_errcode : (s.clearCmdp).errcode = s.errcode := rfl
@[simp] theorem State.clearCmdp_errinfo : (s.clearCmdp).errinfo = s.errinfo := rfl
@[simp] theorem State.clearCmdp_ft : (s.clearCmdp).ft = s.ft := rfl
@[simp] theorem State.clearCmdp_nodes : (s.clearCmdp).nodes = s.nodes := rfl
@[simp] theorem State.clearCmdp_troot : (s.clearCmdp).troot = s.troot := rfl
@[simp] theorem State.clearCmdp_tvalid : (s.clearCmdp).tvalid = s.tvalid := rfl
@[simp] theorem State.clearCmdp_ct : (s.clearCmdp).ct = s.ct := rfl
@[simp] theorem State.clearCmdp_cvalid : (s.clearCmdp).cvalid = s.cvalid := rfl
@[simp] theorem State.clearCmdp_dict : (s.clearCmdp).dict = s.dict := rfl
@[simp] theorem State.clearCmdp_cur : (s.clearCmdp).cur = s.cur := rfl
@[simp] theorem State.clearCmdp_hascur : (s.clearCmdp).hascur = s.hascur := rfl
@[simp] theorem State.clearCmdp_prev : (s.clearCmdp).prev = s.prev := rfl
@[simp] theorem State.clearCmdp_hasprev : (s.clearCmdp).hasprev = s.hasprev := rfl
@[simp] theorem State.clearCmdp_lo : (s.clearCmdp).lo = s.lo := rfl
@[simp] theorem State.clearCmdp_havelo : (s.clearCmdp).havelo = s.havelo := rfl
@[simp] theorem State.clearCmdp_strictL : (s.clearCmdp).strictL = s.strictL := rfl
@[simp] theorem State.clearCmdp_incnt : (s.clearCmdp).incnt = s.incnt := rfl
@[simp] theorem State.clearCmdp_outcnt : (s.clearCmdp).outcnt = s.outcnt := rfl
@[simp] theorem State.clearCmdp_inq : (s.clearCmdp).inq = s.inq := rfl
@[simp] theorem State.clearCmdp_emit : (s.clearCmdp).emit = s.emit := rfl
@[simp] theorem State.clearCmdp_outq : (s.clearCmdp).outq = s.outq := rfl
@[simp] theorem State.clearCmdp_params : (s.clearCmdp).params = s.params := rfl
@[simp] theorem State.clearCmdp_env : (s.clearCmdp).env = s.env := rfl

/-! ### latch -/

@[simp] theorem State.latch_ctrl (v : Word) : (s.latch v).ctrl = s.ctrl := rfl
@[simp] theorem State.latch_arg (v : Word) : (s.latch v).arg = s.arg := rfl
@[simp] theorem State.latch_res0 (v : Word) : (s.latch v).res0 = s.res0 := rfl
@[simp] theorem State.latch_res1 (v : Word) : (s.latch v).res1 = s.res1 := rfl
@[simp] theorem State.latch_res2 (v : Word) : (s.latch v).res2 = s.res2 := rfl
@[simp] theorem State.latch_res3 (v : Word) : (s.latch v).res3 = s.res3 := rfl
@[simp] theorem State.latch_st (v : Word) : (s.latch v).st = s.st := rfl
@[simp] theorem State.latch_cmdp (v : Word) : (s.latch v).cmdp = true := rfl
@[simp] theorem State.latch_pcmd (v : Word) : (s.latch v).pcmd = v := rfl
@[simp] theorem State.latch_done (v : Word) : (s.latch v).done = s.done := rfl
@[simp] theorem State.latch_ovf (v : Word) : (s.latch v).ovf = s.ovf := rfl
@[simp] theorem State.latch_errcode (v : Word) : (s.latch v).errcode = s.errcode := rfl
@[simp] theorem State.latch_errinfo (v : Word) : (s.latch v).errinfo = s.errinfo := rfl
@[simp] theorem State.latch_ft (v : Word) : (s.latch v).ft = s.ft := rfl
@[simp] theorem State.latch_nodes (v : Word) : (s.latch v).nodes = s.nodes := rfl
@[simp] theorem State.latch_troot (v : Word) : (s.latch v).troot = s.troot := rfl
@[simp] theorem State.latch_tvalid (v : Word) : (s.latch v).tvalid = s.tvalid := rfl
@[simp] theorem State.latch_ct (v : Word) : (s.latch v).ct = s.ct := rfl
@[simp] theorem State.latch_cvalid (v : Word) : (s.latch v).cvalid = s.cvalid := rfl
@[simp] theorem State.latch_dict (v : Word) : (s.latch v).dict = s.dict := rfl
@[simp] theorem State.latch_cur (v : Word) : (s.latch v).cur = s.cur := rfl
@[simp] theorem State.latch_hascur (v : Word) : (s.latch v).hascur = s.hascur := rfl
@[simp] theorem State.latch_prev (v : Word) : (s.latch v).prev = s.prev := rfl
@[simp] theorem State.latch_hasprev (v : Word) : (s.latch v).hasprev = s.hasprev := rfl
@[simp] theorem State.latch_lo (v : Word) : (s.latch v).lo = s.lo := rfl
@[simp] theorem State.latch_havelo (v : Word) : (s.latch v).havelo = s.havelo := rfl
@[simp] theorem State.latch_strictL (v : Word) : (s.latch v).strictL = s.strictL := rfl
@[simp] theorem State.latch_incnt (v : Word) : (s.latch v).incnt = s.incnt := rfl
@[simp] theorem State.latch_outcnt (v : Word) : (s.latch v).outcnt = s.outcnt := rfl
@[simp] theorem State.latch_inq (v : Word) : (s.latch v).inq = s.inq := rfl
@[simp] theorem State.latch_emit (v : Word) : (s.latch v).emit = s.emit := rfl
@[simp] theorem State.latch_outq (v : Word) : (s.latch v).outq = s.outq := rfl
@[simp] theorem State.latch_params (v : Word) : (s.latch v).params = s.params := rfl
@[simp] theorem State.latch_env (v : Word) : (s.latch v).env = s.env := rfl

/-! ### insert -/

@[simp] theorem State.insert_ctrl (p : LzwCode) (b : Byte) : (s.insert p b).ctrl = s.ctrl := rfl
@[simp] theorem State.insert_arg (p : LzwCode) (b : Byte) : (s.insert p b).arg = s.arg := rfl
@[simp] theorem State.insert_res0 (p : LzwCode) (b : Byte) : (s.insert p b).res0 = s.res0 := rfl
@[simp] theorem State.insert_res1 (p : LzwCode) (b : Byte) : (s.insert p b).res1 = s.res1 := rfl
@[simp] theorem State.insert_res2 (p : LzwCode) (b : Byte) : (s.insert p b).res2 = s.res2 := rfl
@[simp] theorem State.insert_res3 (p : LzwCode) (b : Byte) : (s.insert p b).res3 = s.res3 := rfl
@[simp] theorem State.insert_st (p : LzwCode) (b : Byte) : (s.insert p b).st = s.st := rfl
@[simp] theorem State.insert_cmdp (p : LzwCode) (b : Byte) : (s.insert p b).cmdp = s.cmdp := rfl
@[simp] theorem State.insert_pcmd (p : LzwCode) (b : Byte) : (s.insert p b).pcmd = s.pcmd := rfl
@[simp] theorem State.insert_done (p : LzwCode) (b : Byte) : (s.insert p b).done = s.done := rfl
@[simp] theorem State.insert_ovf (p : LzwCode) (b : Byte) : (s.insert p b).ovf = s.ovf := rfl
@[simp] theorem State.insert_errcode (p : LzwCode) (b : Byte) : (s.insert p b).errcode = s.errcode := rfl
@[simp] theorem State.insert_errinfo (p : LzwCode) (b : Byte) : (s.insert p b).errinfo = s.errinfo := rfl
@[simp] theorem State.insert_ft (p : LzwCode) (b : Byte) : (s.insert p b).ft = s.ft := rfl
@[simp] theorem State.insert_nodes (p : LzwCode) (b : Byte) : (s.insert p b).nodes = s.nodes := rfl
@[simp] theorem State.insert_troot (p : LzwCode) (b : Byte) : (s.insert p b).troot = s.troot := rfl
@[simp] theorem State.insert_tvalid (p : LzwCode) (b : Byte) : (s.insert p b).tvalid = s.tvalid := rfl
@[simp] theorem State.insert_ct (p : LzwCode) (b : Byte) : (s.insert p b).ct = s.ct := rfl
@[simp] theorem State.insert_cvalid (p : LzwCode) (b : Byte) : (s.insert p b).cvalid = s.cvalid := rfl
@[simp] theorem State.insert_dict (p : LzwCode) (b : Byte) : (s.insert p b).dict = ⟨p, b⟩ :: s.dict := rfl
@[simp] theorem State.insert_cur (p : LzwCode) (b : Byte) : (s.insert p b).cur = s.cur := rfl
@[simp] theorem State.insert_hascur (p : LzwCode) (b : Byte) : (s.insert p b).hascur = s.hascur := rfl
@[simp] theorem State.insert_prev (p : LzwCode) (b : Byte) : (s.insert p b).prev = s.prev := rfl
@[simp] theorem State.insert_hasprev (p : LzwCode) (b : Byte) : (s.insert p b).hasprev = s.hasprev := rfl
@[simp] theorem State.insert_lo (p : LzwCode) (b : Byte) : (s.insert p b).lo = s.lo := rfl
@[simp] theorem State.insert_havelo (p : LzwCode) (b : Byte) : (s.insert p b).havelo = s.havelo := rfl
@[simp] theorem State.insert_strictL (p : LzwCode) (b : Byte) : (s.insert p b).strictL = s.strictL := rfl
@[simp] theorem State.insert_incnt (p : LzwCode) (b : Byte) : (s.insert p b).incnt = s.incnt := rfl
@[simp] theorem State.insert_outcnt (p : LzwCode) (b : Byte) : (s.insert p b).outcnt = s.outcnt := rfl
@[simp] theorem State.insert_inq (p : LzwCode) (b : Byte) : (s.insert p b).inq = s.inq := rfl
@[simp] theorem State.insert_emit (p : LzwCode) (b : Byte) : (s.insert p b).emit = s.emit := rfl
@[simp] theorem State.insert_outq (p : LzwCode) (b : Byte) : (s.insert p b).outq = s.outq := rfl
@[simp] theorem State.insert_params (p : LzwCode) (b : Byte) : (s.insert p b).params = s.params := rfl
@[simp] theorem State.insert_env (p : LzwCode) (b : Byte) : (s.insert p b).env = s.env := rfl

/-! ### restartMatch -/

@[simp] theorem State.restartMatch_ctrl (b : Byte) : (s.restartMatch b).ctrl = s.ctrl := rfl
@[simp] theorem State.restartMatch_arg (b : Byte) : (s.restartMatch b).arg = s.arg := rfl
@[simp] theorem State.restartMatch_res0 (b : Byte) : (s.restartMatch b).res0 = s.res0 := rfl
@[simp] theorem State.restartMatch_res1 (b : Byte) : (s.restartMatch b).res1 = s.res1 := rfl
@[simp] theorem State.restartMatch_res2 (b : Byte) : (s.restartMatch b).res2 = s.res2 := rfl
@[simp] theorem State.restartMatch_res3 (b : Byte) : (s.restartMatch b).res3 = s.res3 := rfl
@[simp] theorem State.restartMatch_st (b : Byte) : (s.restartMatch b).st = s.st := rfl
@[simp] theorem State.restartMatch_cmdp (b : Byte) : (s.restartMatch b).cmdp = s.cmdp := rfl
@[simp] theorem State.restartMatch_pcmd (b : Byte) : (s.restartMatch b).pcmd = s.pcmd := rfl
@[simp] theorem State.restartMatch_done (b : Byte) : (s.restartMatch b).done = s.done := rfl
@[simp] theorem State.restartMatch_ovf (b : Byte) : (s.restartMatch b).ovf = s.ovf := rfl
@[simp] theorem State.restartMatch_errcode (b : Byte) : (s.restartMatch b).errcode = s.errcode := rfl
@[simp] theorem State.restartMatch_errinfo (b : Byte) : (s.restartMatch b).errinfo = s.errinfo := rfl
@[simp] theorem State.restartMatch_ft (b : Byte) : (s.restartMatch b).ft = s.ft := rfl
@[simp] theorem State.restartMatch_nodes (b : Byte) : (s.restartMatch b).nodes = s.nodes := rfl
@[simp] theorem State.restartMatch_troot (b : Byte) : (s.restartMatch b).troot = s.troot := rfl
@[simp] theorem State.restartMatch_tvalid (b : Byte) : (s.restartMatch b).tvalid = s.tvalid := rfl
@[simp] theorem State.restartMatch_ct (b : Byte) : (s.restartMatch b).ct = s.ct := rfl
@[simp] theorem State.restartMatch_cvalid (b : Byte) : (s.restartMatch b).cvalid = s.cvalid := rfl
@[simp] theorem State.restartMatch_dict (b : Byte) : (s.restartMatch b).dict = s.dict := rfl
@[simp] theorem State.restartMatch_cur (b : Byte) : (s.restartMatch b).cur = b.setWidth 16 := rfl
@[simp] theorem State.restartMatch_hascur (b : Byte) : (s.restartMatch b).hascur = true := rfl
@[simp] theorem State.restartMatch_prev (b : Byte) : (s.restartMatch b).prev = s.prev := rfl
@[simp] theorem State.restartMatch_hasprev (b : Byte) : (s.restartMatch b).hasprev = s.hasprev := rfl
@[simp] theorem State.restartMatch_lo (b : Byte) : (s.restartMatch b).lo = s.lo := rfl
@[simp] theorem State.restartMatch_havelo (b : Byte) : (s.restartMatch b).havelo = s.havelo := rfl
@[simp] theorem State.restartMatch_strictL (b : Byte) : (s.restartMatch b).strictL = s.strictL := rfl
@[simp] theorem State.restartMatch_incnt (b : Byte) : (s.restartMatch b).incnt = s.incnt := rfl
@[simp] theorem State.restartMatch_outcnt (b : Byte) : (s.restartMatch b).outcnt = s.outcnt := rfl
@[simp] theorem State.restartMatch_inq (b : Byte) : (s.restartMatch b).inq = s.inq := rfl
@[simp] theorem State.restartMatch_emit (b : Byte) : (s.restartMatch b).emit = s.emit := rfl
@[simp] theorem State.restartMatch_outq (b : Byte) : (s.restartMatch b).outq = s.outq := rfl
@[simp] theorem State.restartMatch_params (b : Byte) : (s.restartMatch b).params = s.params := rfl
@[simp] theorem State.restartMatch_env (b : Byte) : (s.restartMatch b).env = s.env := rfl

/-! ### errorReturn -/

@[simp] theorem State.errorReturn_ctrl : (s.errorReturn).ctrl = s.ctrl := rfl
@[simp] theorem State.errorReturn_arg : (s.errorReturn).arg = s.arg := rfl
@[simp] theorem State.errorReturn_res0 : (s.errorReturn).res0 = s.res0 := rfl
@[simp] theorem State.errorReturn_res1 : (s.errorReturn).res1 = s.res1 := rfl
@[simp] theorem State.errorReturn_res2 : (s.errorReturn).res2 = s.res2 := rfl
@[simp] theorem State.errorReturn_res3 : (s.errorReturn).res3 = s.res3 := rfl
@[simp] theorem State.errorReturn_st : (s.errorReturn).st = .idle := rfl
@[simp] theorem State.errorReturn_cmdp : (s.errorReturn).cmdp = s.cmdp := rfl
@[simp] theorem State.errorReturn_pcmd : (s.errorReturn).pcmd = s.pcmd := rfl
@[simp] theorem State.errorReturn_done : (s.errorReturn).done = s.done := rfl
@[simp] theorem State.errorReturn_ovf : (s.errorReturn).ovf = s.ovf := rfl
@[simp] theorem State.errorReturn_errcode : (s.errorReturn).errcode = .none := rfl
@[simp] theorem State.errorReturn_errinfo : (s.errorReturn).errinfo = 0#32 := rfl
@[simp] theorem State.errorReturn_ft : (s.errorReturn).ft = s.ft := rfl
@[simp] theorem State.errorReturn_nodes : (s.errorReturn).nodes = s.nodes := rfl
@[simp] theorem State.errorReturn_troot : (s.errorReturn).troot = s.troot := rfl
@[simp] theorem State.errorReturn_tvalid : (s.errorReturn).tvalid = s.tvalid := rfl
@[simp] theorem State.errorReturn_ct : (s.errorReturn).ct = s.ct := rfl
@[simp] theorem State.errorReturn_cvalid : (s.errorReturn).cvalid = s.cvalid := rfl
@[simp] theorem State.errorReturn_dict : (s.errorReturn).dict = s.dict := rfl
@[simp] theorem State.errorReturn_cur : (s.errorReturn).cur = s.cur := rfl
@[simp] theorem State.errorReturn_hascur : (s.errorReturn).hascur = false := rfl
@[simp] theorem State.errorReturn_prev : (s.errorReturn).prev = s.prev := rfl
@[simp] theorem State.errorReturn_hasprev : (s.errorReturn).hasprev = false := rfl
@[simp] theorem State.errorReturn_lo : (s.errorReturn).lo = s.lo := rfl
@[simp] theorem State.errorReturn_havelo : (s.errorReturn).havelo = false := rfl
@[simp] theorem State.errorReturn_strictL : (s.errorReturn).strictL = s.strictL := rfl
@[simp] theorem State.errorReturn_incnt : (s.errorReturn).incnt = s.incnt := rfl
@[simp] theorem State.errorReturn_outcnt : (s.errorReturn).outcnt = s.outcnt := rfl
@[simp] theorem State.errorReturn_inq : (s.errorReturn).inq = [] := rfl
@[simp] theorem State.errorReturn_emit : (s.errorReturn).emit = s.emit := rfl
@[simp] theorem State.errorReturn_outq : (s.errorReturn).outq = s.outq := rfl
@[simp] theorem State.errorReturn_params : (s.errorReturn).params = s.params := rfl
@[simp] theorem State.errorReturn_env : (s.errorReturn).env = s.env := rfl

/-! ### pushBeat -/

@[simp] theorem State.pushBeat_ctrl (b : InBeat) : (s.pushBeat b).ctrl = s.ctrl := rfl
@[simp] theorem State.pushBeat_arg (b : InBeat) : (s.pushBeat b).arg = s.arg := rfl
@[simp] theorem State.pushBeat_res0 (b : InBeat) : (s.pushBeat b).res0 = s.res0 := rfl
@[simp] theorem State.pushBeat_res1 (b : InBeat) : (s.pushBeat b).res1 = s.res1 := rfl
@[simp] theorem State.pushBeat_res2 (b : InBeat) : (s.pushBeat b).res2 = s.res2 := rfl
@[simp] theorem State.pushBeat_res3 (b : InBeat) : (s.pushBeat b).res3 = s.res3 := rfl
@[simp] theorem State.pushBeat_st (b : InBeat) : (s.pushBeat b).st = s.st := rfl
@[simp] theorem State.pushBeat_cmdp (b : InBeat) : (s.pushBeat b).cmdp = s.cmdp := rfl
@[simp] theorem State.pushBeat_pcmd (b : InBeat) : (s.pushBeat b).pcmd = s.pcmd := rfl
@[simp] theorem State.pushBeat_done (b : InBeat) : (s.pushBeat b).done = s.done := rfl
@[simp] theorem State.pushBeat_ovf (b : InBeat) : (s.pushBeat b).ovf = s.ovf := rfl
@[simp] theorem State.pushBeat_errcode (b : InBeat) : (s.pushBeat b).errcode = s.errcode := rfl
@[simp] theorem State.pushBeat_errinfo (b : InBeat) : (s.pushBeat b).errinfo = s.errinfo := rfl
@[simp] theorem State.pushBeat_ft (b : InBeat) : (s.pushBeat b).ft = s.ft := rfl
@[simp] theorem State.pushBeat_nodes (b : InBeat) : (s.pushBeat b).nodes = s.nodes := rfl
@[simp] theorem State.pushBeat_troot (b : InBeat) : (s.pushBeat b).troot = s.troot := rfl
@[simp] theorem State.pushBeat_tvalid (b : InBeat) : (s.pushBeat b).tvalid = s.tvalid := rfl
@[simp] theorem State.pushBeat_ct (b : InBeat) : (s.pushBeat b).ct = s.ct := rfl
@[simp] theorem State.pushBeat_cvalid (b : InBeat) : (s.pushBeat b).cvalid = s.cvalid := rfl
@[simp] theorem State.pushBeat_dict (b : InBeat) : (s.pushBeat b).dict = s.dict := rfl
@[simp] theorem State.pushBeat_cur (b : InBeat) : (s.pushBeat b).cur = s.cur := rfl
@[simp] theorem State.pushBeat_hascur (b : InBeat) : (s.pushBeat b).hascur = s.hascur := rfl
@[simp] theorem State.pushBeat_prev (b : InBeat) : (s.pushBeat b).prev = s.prev := rfl
@[simp] theorem State.pushBeat_hasprev (b : InBeat) : (s.pushBeat b).hasprev = s.hasprev := rfl
@[simp] theorem State.pushBeat_lo (b : InBeat) : (s.pushBeat b).lo = s.lo := rfl
@[simp] theorem State.pushBeat_havelo (b : InBeat) : (s.pushBeat b).havelo = s.havelo := rfl
@[simp] theorem State.pushBeat_strictL (b : InBeat) : (s.pushBeat b).strictL = s.strictL := rfl
@[simp] theorem State.pushBeat_incnt (b : InBeat) : (s.pushBeat b).incnt = s.incnt := rfl
@[simp] theorem State.pushBeat_outcnt (b : InBeat) : (s.pushBeat b).outcnt = s.outcnt := rfl
@[simp] theorem State.pushBeat_inq (b : InBeat) : (s.pushBeat b).inq = s.inq ++ [b] := rfl
@[simp] theorem State.pushBeat_emit (b : InBeat) : (s.pushBeat b).emit = s.emit := rfl
@[simp] theorem State.pushBeat_outq (b : InBeat) : (s.pushBeat b).outq = s.outq := rfl
@[simp] theorem State.pushBeat_params (b : InBeat) : (s.pushBeat b).params = s.params := rfl
@[simp] theorem State.pushBeat_env (b : InBeat) : (s.pushBeat b).env = s.env := rfl

/-! ### observe -/

@[simp] theorem State.observe_ctrl (o : Obs) : (s.observe o).ctrl = s.ctrl := rfl
@[simp] theorem State.observe_arg (o : Obs) : (s.observe o).arg = s.arg := rfl
@[simp] theorem State.observe_res0 (o : Obs) : (s.observe o).res0 = s.res0 := rfl
@[simp] theorem State.observe_res1 (o : Obs) : (s.observe o).res1 = s.res1 := rfl
@[simp] theorem State.observe_res2 (o : Obs) : (s.observe o).res2 = s.res2 := rfl
@[simp] theorem State.observe_res3 (o : Obs) : (s.observe o).res3 = s.res3 := rfl
@[simp] theorem State.observe_st (o : Obs) : (s.observe o).st = s.st := rfl
@[simp] theorem State.observe_cmdp (o : Obs) : (s.observe o).cmdp = s.cmdp := rfl
@[simp] theorem State.observe_pcmd (o : Obs) : (s.observe o).pcmd = s.pcmd := rfl
@[simp] theorem State.observe_done (o : Obs) : (s.observe o).done = s.done := rfl
@[simp] theorem State.observe_ovf (o : Obs) : (s.observe o).ovf = s.ovf := rfl
@[simp] theorem State.observe_errcode (o : Obs) : (s.observe o).errcode = s.errcode := rfl
@[simp] theorem State.observe_errinfo (o : Obs) : (s.observe o).errinfo = s.errinfo := rfl
@[simp] theorem State.observe_ft (o : Obs) : (s.observe o).ft = s.ft := rfl
@[simp] theorem State.observe_nodes (o : Obs) : (s.observe o).nodes = s.nodes := rfl
@[simp] theorem State.observe_troot (o : Obs) : (s.observe o).troot = s.troot := rfl
@[simp] theorem State.observe_tvalid (o : Obs) : (s.observe o).tvalid = s.tvalid := rfl
@[simp] theorem State.observe_ct (o : Obs) : (s.observe o).ct = s.ct := rfl
@[simp] theorem State.observe_cvalid (o : Obs) : (s.observe o).cvalid = s.cvalid := rfl
@[simp] theorem State.observe_dict (o : Obs) : (s.observe o).dict = s.dict := rfl
@[simp] theorem State.observe_cur (o : Obs) : (s.observe o).cur = s.cur := rfl
@[simp] theorem State.observe_hascur (o : Obs) : (s.observe o).hascur = s.hascur := rfl
@[simp] theorem State.observe_prev (o : Obs) : (s.observe o).prev = s.prev := rfl
@[simp] theorem State.observe_hasprev (o : Obs) : (s.observe o).hasprev = s.hasprev := rfl
@[simp] theorem State.observe_lo (o : Obs) : (s.observe o).lo = s.lo := rfl
@[simp] theorem State.observe_havelo (o : Obs) : (s.observe o).havelo = s.havelo := rfl
@[simp] theorem State.observe_strictL (o : Obs) : (s.observe o).strictL = s.strictL := rfl
@[simp] theorem State.observe_incnt (o : Obs) : (s.observe o).incnt = s.incnt := rfl
@[simp] theorem State.observe_outcnt (o : Obs) : (s.observe o).outcnt = s.outcnt := rfl
@[simp] theorem State.observe_inq (o : Obs) : (s.observe o).inq = s.inq := rfl
@[simp] theorem State.observe_emit (o : Obs) : (s.observe o).emit = s.emit := rfl
@[simp] theorem State.observe_outq (o : Obs) : (s.observe o).outq = s.outq := rfl
@[simp] theorem State.observe_params (o : Obs) : (s.observe o).params = s.params := rfl
@[simp] theorem State.observe_env (o : Obs) : (s.observe o).env = { s.env with log := s.env.log ++ [o] } := rfl

/-! ### withScript -/

@[simp] theorem State.withScript_ctrl (rest : List HostAct) : (s.withScript rest).ctrl = s.ctrl := rfl
@[simp] theorem State.withScript_arg (rest : List HostAct) : (s.withScript rest).arg = s.arg := rfl
@[simp] theorem State.withScript_res0 (rest : List HostAct) : (s.withScript rest).res0 = s.res0 := rfl
@[simp] theorem State.withScript_res1 (rest : List HostAct) : (s.withScript rest).res1 = s.res1 := rfl
@[simp] theorem State.withScript_res2 (rest : List HostAct) : (s.withScript rest).res2 = s.res2 := rfl
@[simp] theorem State.withScript_res3 (rest : List HostAct) : (s.withScript rest).res3 = s.res3 := rfl
@[simp] theorem State.withScript_st (rest : List HostAct) : (s.withScript rest).st = s.st := rfl
@[simp] theorem State.withScript_cmdp (rest : List HostAct) : (s.withScript rest).cmdp = s.cmdp := rfl
@[simp] theorem State.withScript_pcmd (rest : List HostAct) : (s.withScript rest).pcmd = s.pcmd := rfl
@[simp] theorem State.withScript_done (rest : List HostAct) : (s.withScript rest).done = s.done := rfl
@[simp] theorem State.withScript_ovf (rest : List HostAct) : (s.withScript rest).ovf = s.ovf := rfl
@[simp] theorem State.withScript_errcode (rest : List HostAct) : (s.withScript rest).errcode = s.errcode := rfl
@[simp] theorem State.withScript_errinfo (rest : List HostAct) : (s.withScript rest).errinfo = s.errinfo := rfl
@[simp] theorem State.withScript_ft (rest : List HostAct) : (s.withScript rest).ft = s.ft := rfl
@[simp] theorem State.withScript_nodes (rest : List HostAct) : (s.withScript rest).nodes = s.nodes := rfl
@[simp] theorem State.withScript_troot (rest : List HostAct) : (s.withScript rest).troot = s.troot := rfl
@[simp] theorem State.withScript_tvalid (rest : List HostAct) : (s.withScript rest).tvalid = s.tvalid := rfl
@[simp] theorem State.withScript_ct (rest : List HostAct) : (s.withScript rest).ct = s.ct := rfl
@[simp] theorem State.withScript_cvalid (rest : List HostAct) : (s.withScript rest).cvalid = s.cvalid := rfl
@[simp] theorem State.withScript_dict (rest : List HostAct) : (s.withScript rest).dict = s.dict := rfl
@[simp] theorem State.withScript_cur (rest : List HostAct) : (s.withScript rest).cur = s.cur := rfl
@[simp] theorem State.withScript_hascur (rest : List HostAct) : (s.withScript rest).hascur = s.hascur := rfl
@[simp] theorem State.withScript_prev (rest : List HostAct) : (s.withScript rest).prev = s.prev := rfl
@[simp] theorem State.withScript_hasprev (rest : List HostAct) : (s.withScript rest).hasprev = s.hasprev := rfl
@[simp] theorem State.withScript_lo (rest : List HostAct) : (s.withScript rest).lo = s.lo := rfl
@[simp] theorem State.withScript_havelo (rest : List HostAct) : (s.withScript rest).havelo = s.havelo := rfl
@[simp] theorem State.withScript_strictL (rest : List HostAct) : (s.withScript rest).strictL = s.strictL := rfl
@[simp] theorem State.withScript_incnt (rest : List HostAct) : (s.withScript rest).incnt = s.incnt := rfl
@[simp] theorem State.withScript_outcnt (rest : List HostAct) : (s.withScript rest).outcnt = s.outcnt := rfl
@[simp] theorem State.withScript_inq (rest : List HostAct) : (s.withScript rest).inq = s.inq := rfl
@[simp] theorem State.withScript_emit (rest : List HostAct) : (s.withScript rest).emit = s.emit := rfl
@[simp] theorem State.withScript_outq (rest : List HostAct) : (s.withScript rest).outq = s.outq := rfl
@[simp] theorem State.withScript_params (rest : List HostAct) : (s.withScript rest).params = s.params := rfl
@[simp] theorem State.withScript_env (rest : List HostAct) : (s.withScript rest).env = { s.env with script := rest } := rfl

/-! ### writeStatus -/

@[simp] theorem State.writeStatus_ctrl (v : Word) : (s.writeStatus v).ctrl = s.ctrl := rfl
@[simp] theorem State.writeStatus_arg (v : Word) : (s.writeStatus v).arg = s.arg := rfl
@[simp] theorem State.writeStatus_res0 (v : Word) : (s.writeStatus v).res0 = s.res0 := rfl
@[simp] theorem State.writeStatus_res1 (v : Word) : (s.writeStatus v).res1 = s.res1 := rfl
@[simp] theorem State.writeStatus_res2 (v : Word) : (s.writeStatus v).res2 = s.res2 := rfl
@[simp] theorem State.writeStatus_res3 (v : Word) : (s.writeStatus v).res3 = s.res3 := rfl
@[simp] theorem State.writeStatus_st (v : Word) : (s.writeStatus v).st = s.st := rfl
@[simp] theorem State.writeStatus_cmdp (v : Word) : (s.writeStatus v).cmdp = s.cmdp := rfl
@[simp] theorem State.writeStatus_pcmd (v : Word) : (s.writeStatus v).pcmd = s.pcmd := rfl
@[simp] theorem State.writeStatus_done (v : Word) : (s.writeStatus v).done = (s.done && !v.getLsbD 4) := rfl
@[simp] theorem State.writeStatus_ovf (v : Word) : (s.writeStatus v).ovf = (s.ovf && !v.getLsbD 5) := rfl
@[simp] theorem State.writeStatus_errcode (v : Word) : (s.writeStatus v).errcode = s.errcode := rfl
@[simp] theorem State.writeStatus_errinfo (v : Word) : (s.writeStatus v).errinfo = s.errinfo := rfl
@[simp] theorem State.writeStatus_ft (v : Word) : (s.writeStatus v).ft = s.ft := rfl
@[simp] theorem State.writeStatus_nodes (v : Word) : (s.writeStatus v).nodes = s.nodes := rfl
@[simp] theorem State.writeStatus_troot (v : Word) : (s.writeStatus v).troot = s.troot := rfl
@[simp] theorem State.writeStatus_tvalid (v : Word) : (s.writeStatus v).tvalid = s.tvalid := rfl
@[simp] theorem State.writeStatus_ct (v : Word) : (s.writeStatus v).ct = s.ct := rfl
@[simp] theorem State.writeStatus_cvalid (v : Word) : (s.writeStatus v).cvalid = s.cvalid := rfl
@[simp] theorem State.writeStatus_dict (v : Word) : (s.writeStatus v).dict = s.dict := rfl
@[simp] theorem State.writeStatus_cur (v : Word) : (s.writeStatus v).cur = s.cur := rfl
@[simp] theorem State.writeStatus_hascur (v : Word) : (s.writeStatus v).hascur = s.hascur := rfl
@[simp] theorem State.writeStatus_prev (v : Word) : (s.writeStatus v).prev = s.prev := rfl
@[simp] theorem State.writeStatus_hasprev (v : Word) : (s.writeStatus v).hasprev = s.hasprev := rfl
@[simp] theorem State.writeStatus_lo (v : Word) : (s.writeStatus v).lo = s.lo := rfl
@[simp] theorem State.writeStatus_havelo (v : Word) : (s.writeStatus v).havelo = s.havelo := rfl
@[simp] theorem State.writeStatus_strictL (v : Word) : (s.writeStatus v).strictL = s.strictL := rfl
@[simp] theorem State.writeStatus_incnt (v : Word) : (s.writeStatus v).incnt = s.incnt := rfl
@[simp] theorem State.writeStatus_outcnt (v : Word) : (s.writeStatus v).outcnt = s.outcnt := rfl
@[simp] theorem State.writeStatus_inq (v : Word) : (s.writeStatus v).inq = s.inq := rfl
@[simp] theorem State.writeStatus_emit (v : Word) : (s.writeStatus v).emit = s.emit := rfl
@[simp] theorem State.writeStatus_outq (v : Word) : (s.writeStatus v).outq = s.outq := rfl
@[simp] theorem State.writeStatus_params (v : Word) : (s.writeStatus v).params = s.params := rfl
@[simp] theorem State.writeStatus_env (v : Word) : (s.writeStatus v).env = s.env := rfl

/-! ### emitBeat -/

@[simp] theorem State.emitBeat_ctrl (b : OutBeat) : (s.emitBeat b).ctrl = s.ctrl := by cases b <;> rfl
@[simp] theorem State.emitBeat_arg (b : OutBeat) : (s.emitBeat b).arg = s.arg := by cases b <;> rfl
@[simp] theorem State.emitBeat_res0 (b : OutBeat) : (s.emitBeat b).res0 = s.res0 := by cases b <;> rfl
@[simp] theorem State.emitBeat_res1 (b : OutBeat) : (s.emitBeat b).res1 = s.res1 := by cases b <;> rfl
@[simp] theorem State.emitBeat_res2 (b : OutBeat) : (s.emitBeat b).res2 = s.res2 := by cases b <;> rfl
@[simp] theorem State.emitBeat_res3 (b : OutBeat) : (s.emitBeat b).res3 = s.res3 := by cases b <;> rfl
@[simp] theorem State.emitBeat_st (b : OutBeat) : (s.emitBeat b).st = s.st := by cases b <;> rfl
@[simp] theorem State.emitBeat_cmdp (b : OutBeat) : (s.emitBeat b).cmdp = s.cmdp := by cases b <;> rfl
@[simp] theorem State.emitBeat_pcmd (b : OutBeat) : (s.emitBeat b).pcmd = s.pcmd := by cases b <;> rfl
@[simp] theorem State.emitBeat_done (b : OutBeat) : (s.emitBeat b).done = s.done := by cases b <;> rfl
@[simp] theorem State.emitBeat_ovf (b : OutBeat) : (s.emitBeat b).ovf = s.ovf := by cases b <;> rfl
@[simp] theorem State.emitBeat_errcode (b : OutBeat) : (s.emitBeat b).errcode = s.errcode := by cases b <;> rfl
@[simp] theorem State.emitBeat_errinfo (b : OutBeat) : (s.emitBeat b).errinfo = s.errinfo := by cases b <;> rfl
@[simp] theorem State.emitBeat_ft (b : OutBeat) : (s.emitBeat b).ft = s.ft := by cases b <;> rfl
@[simp] theorem State.emitBeat_nodes (b : OutBeat) : (s.emitBeat b).nodes = s.nodes := by cases b <;> rfl
@[simp] theorem State.emitBeat_troot (b : OutBeat) : (s.emitBeat b).troot = s.troot := by cases b <;> rfl
@[simp] theorem State.emitBeat_tvalid (b : OutBeat) : (s.emitBeat b).tvalid = s.tvalid := by cases b <;> rfl
@[simp] theorem State.emitBeat_ct (b : OutBeat) : (s.emitBeat b).ct = s.ct := by cases b <;> rfl
@[simp] theorem State.emitBeat_cvalid (b : OutBeat) : (s.emitBeat b).cvalid = s.cvalid := by cases b <;> rfl
@[simp] theorem State.emitBeat_dict (b : OutBeat) : (s.emitBeat b).dict = s.dict := by cases b <;> rfl
@[simp] theorem State.emitBeat_cur (b : OutBeat) : (s.emitBeat b).cur = s.cur := by cases b <;> rfl
@[simp] theorem State.emitBeat_hascur (b : OutBeat) : (s.emitBeat b).hascur = s.hascur := by cases b <;> rfl
@[simp] theorem State.emitBeat_prev (b : OutBeat) : (s.emitBeat b).prev = s.prev := by cases b <;> rfl
@[simp] theorem State.emitBeat_hasprev (b : OutBeat) : (s.emitBeat b).hasprev = s.hasprev := by cases b <;> rfl
@[simp] theorem State.emitBeat_lo (b : OutBeat) : (s.emitBeat b).lo = s.lo := by cases b <;> rfl
@[simp] theorem State.emitBeat_havelo (b : OutBeat) : (s.emitBeat b).havelo = s.havelo := by cases b <;> rfl
@[simp] theorem State.emitBeat_strictL (b : OutBeat) : (s.emitBeat b).strictL = s.strictL := by cases b <;> rfl
@[simp] theorem State.emitBeat_incnt (b : OutBeat) : (s.emitBeat b).incnt = s.incnt := by cases b <;> rfl
@[simp] theorem State.emitBeat_outcnt_data (v : Payload) : (s.emitBeat (.data v)).outcnt = s.outcnt + 1#32 := rfl
@[simp] theorem State.emitBeat_outcnt_fin : (s.emitBeat .fin).outcnt = s.outcnt := rfl
@[simp] theorem State.emitBeat_outcnt_aborted : (s.emitBeat .aborted).outcnt = s.outcnt := rfl
@[simp] theorem State.emitBeat_inq (b : OutBeat) : (s.emitBeat b).inq = s.inq := by cases b <;> rfl
@[simp] theorem State.emitBeat_emit (b : OutBeat) : (s.emitBeat b).emit = s.emit ++ [b] := by cases b <;> rfl
@[simp] theorem State.emitBeat_outq (b : OutBeat) : (s.emitBeat b).outq = s.outq := by cases b <;> rfl
@[simp] theorem State.emitBeat_params (b : OutBeat) : (s.emitBeat b).params = s.params := by cases b <;> rfl
@[simp] theorem State.emitBeat_env (b : OutBeat) : (s.emitBeat b).env = s.env := by cases b <;> rfl

/-! ### errorEntry: it writes EMIT, STATE, ERRCODE and ERRINFO (its cases are in Laws/Ops.lean) -/

@[simp] theorem State.errorEntry_ctrl (code : ErrCode) (info : Word) : (s.errorEntry code info).ctrl = s.ctrl := by
  unfold State.errorEntry; split_ifs <;> rfl
@[simp] theorem State.errorEntry_arg (code : ErrCode) (info : Word) : (s.errorEntry code info).arg = s.arg := by
  unfold State.errorEntry; split_ifs <;> rfl
@[simp] theorem State.errorEntry_res0 (code : ErrCode) (info : Word) : (s.errorEntry code info).res0 = s.res0 := by
  unfold State.errorEntry; split_ifs <;> rfl
@[simp] theorem State.errorEntry_res1 (code : ErrCode) (info : Word) : (s.errorEntry code info).res1 = s.res1 := by
  unfold State.errorEntry; split_ifs <;> rfl
@[simp] theorem State.errorEntry_res2 (code : ErrCode) (info : Word) : (s.errorEntry code info).res2 = s.res2 := by
  unfold State.errorEntry; split_ifs <;> rfl
@[simp] theorem State.errorEntry_res3 (code : ErrCode) (info : Word) : (s.errorEntry code info).res3 = s.res3 := by
  unfold State.errorEntry; split_ifs <;> rfl
@[simp] theorem State.errorEntry_cmdp (code : ErrCode) (info : Word) : (s.errorEntry code info).cmdp = s.cmdp := by
  unfold State.errorEntry; split_ifs <;> rfl
@[simp] theorem State.errorEntry_pcmd (code : ErrCode) (info : Word) : (s.errorEntry code info).pcmd = s.pcmd := by
  unfold State.errorEntry; split_ifs <;> rfl
@[simp] theorem State.errorEntry_done (code : ErrCode) (info : Word) : (s.errorEntry code info).done = s.done := by
  unfold State.errorEntry; split_ifs <;> rfl
@[simp] theorem State.errorEntry_ovf (code : ErrCode) (info : Word) : (s.errorEntry code info).ovf = s.ovf := by
  unfold State.errorEntry; split_ifs <;> rfl
@[simp] theorem State.errorEntry_ft (code : ErrCode) (info : Word) : (s.errorEntry code info).ft = s.ft := by
  unfold State.errorEntry; split_ifs <;> rfl
@[simp] theorem State.errorEntry_nodes (code : ErrCode) (info : Word) : (s.errorEntry code info).nodes = s.nodes := by
  unfold State.errorEntry; split_ifs <;> rfl
@[simp] theorem State.errorEntry_troot (code : ErrCode) (info : Word) : (s.errorEntry code info).troot = s.troot := by
  unfold State.errorEntry; split_ifs <;> rfl
@[simp] theorem State.errorEntry_tvalid (code : ErrCode) (info : Word) : (s.errorEntry code info).tvalid = s.tvalid := by
  unfold State.errorEntry; split_ifs <;> rfl
@[simp] theorem State.errorEntry_ct (code : ErrCode) (info : Word) : (s.errorEntry code info).ct = s.ct := by
  unfold State.errorEntry; split_ifs <;> rfl
@[simp] theorem State.errorEntry_cvalid (code : ErrCode) (info : Word) : (s.errorEntry code info).cvalid = s.cvalid := by
  unfold State.errorEntry; split_ifs <;> rfl
@[simp] theorem State.errorEntry_dict (code : ErrCode) (info : Word) : (s.errorEntry code info).dict = s.dict := by
  unfold State.errorEntry; split_ifs <;> rfl
@[simp] theorem State.errorEntry_cur (code : ErrCode) (info : Word) : (s.errorEntry code info).cur = s.cur := by
  unfold State.errorEntry; split_ifs <;> rfl
@[simp] theorem State.errorEntry_hascur (code : ErrCode) (info : Word) : (s.errorEntry code info).hascur = s.hascur := by
  unfold State.errorEntry; split_ifs <;> rfl
@[simp] theorem State.errorEntry_prev (code : ErrCode) (info : Word) : (s.errorEntry code info).prev = s.prev := by
  unfold State.errorEntry; split_ifs <;> rfl
@[simp] theorem State.errorEntry_hasprev (code : ErrCode) (info : Word) : (s.errorEntry code info).hasprev = s.hasprev := by
  unfold State.errorEntry; split_ifs <;> rfl
@[simp] theorem State.errorEntry_lo (code : ErrCode) (info : Word) : (s.errorEntry code info).lo = s.lo := by
  unfold State.errorEntry; split_ifs <;> rfl
@[simp] theorem State.errorEntry_havelo (code : ErrCode) (info : Word) : (s.errorEntry code info).havelo = s.havelo := by
  unfold State.errorEntry; split_ifs <;> rfl
@[simp] theorem State.errorEntry_strictL (code : ErrCode) (info : Word) : (s.errorEntry code info).strictL = s.strictL := by
  unfold State.errorEntry; split_ifs <;> rfl
@[simp] theorem State.errorEntry_incnt (code : ErrCode) (info : Word) : (s.errorEntry code info).incnt = s.incnt := by
  unfold State.errorEntry; split_ifs <;> rfl
@[simp] theorem State.errorEntry_outcnt (code : ErrCode) (info : Word) : (s.errorEntry code info).outcnt = s.outcnt := by
  unfold State.errorEntry; split_ifs <;> rfl
@[simp] theorem State.errorEntry_inq (code : ErrCode) (info : Word) : (s.errorEntry code info).inq = s.inq := by
  unfold State.errorEntry; split_ifs <;> rfl
@[simp] theorem State.errorEntry_outq (code : ErrCode) (info : Word) : (s.errorEntry code info).outq = s.outq := by
  unfold State.errorEntry; split_ifs <;> rfl
@[simp] theorem State.errorEntry_params (code : ErrCode) (info : Word) : (s.errorEntry code info).params = s.params := by
  unfold State.errorEntry; split_ifs <;> rfl
@[simp] theorem State.errorEntry_env (code : ErrCode) (info : Word) : (s.errorEntry code info).env = s.env := by
  unfold State.errorEntry; split_ifs <;> rfl

/-! ### emitBytes: it writes EMIT and OUTCNT (their values are in Laws/Ops.lean) -/

@[simp] theorem State.emitBytes_ctrl (bytes : List Byte) : (s.emitBytes bytes).ctrl = s.ctrl := by
  induction bytes generalizing s with
  | nil => rfl
  | cons x rest ih => simp [State.emitBytes, ih]
@[simp] theorem State.emitBytes_arg (bytes : List Byte) : (s.emitBytes bytes).arg = s.arg := by
  induction bytes generalizing s with
  | nil => rfl
  | cons x rest ih => simp [State.emitBytes, ih]
@[simp] theorem State.emitBytes_res0 (bytes : List Byte) : (s.emitBytes bytes).res0 = s.res0 := by
  induction bytes generalizing s with
  | nil => rfl
  | cons x rest ih => simp [State.emitBytes, ih]
@[simp] theorem State.emitBytes_res1 (bytes : List Byte) : (s.emitBytes bytes).res1 = s.res1 := by
  induction bytes generalizing s with
  | nil => rfl
  | cons x rest ih => simp [State.emitBytes, ih]
@[simp] theorem State.emitBytes_res2 (bytes : List Byte) : (s.emitBytes bytes).res2 = s.res2 := by
  induction bytes generalizing s with
  | nil => rfl
  | cons x rest ih => simp [State.emitBytes, ih]
@[simp] theorem State.emitBytes_res3 (bytes : List Byte) : (s.emitBytes bytes).res3 = s.res3 := by
  induction bytes generalizing s with
  | nil => rfl
  | cons x rest ih => simp [State.emitBytes, ih]
@[simp] theorem State.emitBytes_st (bytes : List Byte) : (s.emitBytes bytes).st = s.st := by
  induction bytes generalizing s with
  | nil => rfl
  | cons x rest ih => simp [State.emitBytes, ih]
@[simp] theorem State.emitBytes_cmdp (bytes : List Byte) : (s.emitBytes bytes).cmdp = s.cmdp := by
  induction bytes generalizing s with
  | nil => rfl
  | cons x rest ih => simp [State.emitBytes, ih]
@[simp] theorem State.emitBytes_pcmd (bytes : List Byte) : (s.emitBytes bytes).pcmd = s.pcmd := by
  induction bytes generalizing s with
  | nil => rfl
  | cons x rest ih => simp [State.emitBytes, ih]
@[simp] theorem State.emitBytes_done (bytes : List Byte) : (s.emitBytes bytes).done = s.done := by
  induction bytes generalizing s with
  | nil => rfl
  | cons x rest ih => simp [State.emitBytes, ih]
@[simp] theorem State.emitBytes_ovf (bytes : List Byte) : (s.emitBytes bytes).ovf = s.ovf := by
  induction bytes generalizing s with
  | nil => rfl
  | cons x rest ih => simp [State.emitBytes, ih]
@[simp] theorem State.emitBytes_errcode (bytes : List Byte) : (s.emitBytes bytes).errcode = s.errcode := by
  induction bytes generalizing s with
  | nil => rfl
  | cons x rest ih => simp [State.emitBytes, ih]
@[simp] theorem State.emitBytes_errinfo (bytes : List Byte) : (s.emitBytes bytes).errinfo = s.errinfo := by
  induction bytes generalizing s with
  | nil => rfl
  | cons x rest ih => simp [State.emitBytes, ih]
@[simp] theorem State.emitBytes_ft (bytes : List Byte) : (s.emitBytes bytes).ft = s.ft := by
  induction bytes generalizing s with
  | nil => rfl
  | cons x rest ih => simp [State.emitBytes, ih]
@[simp] theorem State.emitBytes_nodes (bytes : List Byte) : (s.emitBytes bytes).nodes = s.nodes := by
  induction bytes generalizing s with
  | nil => rfl
  | cons x rest ih => simp [State.emitBytes, ih]
@[simp] theorem State.emitBytes_troot (bytes : List Byte) : (s.emitBytes bytes).troot = s.troot := by
  induction bytes generalizing s with
  | nil => rfl
  | cons x rest ih => simp [State.emitBytes, ih]
@[simp] theorem State.emitBytes_tvalid (bytes : List Byte) : (s.emitBytes bytes).tvalid = s.tvalid := by
  induction bytes generalizing s with
  | nil => rfl
  | cons x rest ih => simp [State.emitBytes, ih]
@[simp] theorem State.emitBytes_ct (bytes : List Byte) : (s.emitBytes bytes).ct = s.ct := by
  induction bytes generalizing s with
  | nil => rfl
  | cons x rest ih => simp [State.emitBytes, ih]
@[simp] theorem State.emitBytes_cvalid (bytes : List Byte) : (s.emitBytes bytes).cvalid = s.cvalid := by
  induction bytes generalizing s with
  | nil => rfl
  | cons x rest ih => simp [State.emitBytes, ih]
@[simp] theorem State.emitBytes_dict (bytes : List Byte) : (s.emitBytes bytes).dict = s.dict := by
  induction bytes generalizing s with
  | nil => rfl
  | cons x rest ih => simp [State.emitBytes, ih]
@[simp] theorem State.emitBytes_cur (bytes : List Byte) : (s.emitBytes bytes).cur = s.cur := by
  induction bytes generalizing s with
  | nil => rfl
  | cons x rest ih => simp [State.emitBytes, ih]
@[simp] theorem State.emitBytes_hascur (bytes : List Byte) : (s.emitBytes bytes).hascur = s.hascur := by
  induction bytes generalizing s with
  | nil => rfl
  | cons x rest ih => simp [State.emitBytes, ih]
@[simp] theorem State.emitBytes_prev (bytes : List Byte) : (s.emitBytes bytes).prev = s.prev := by
  induction bytes generalizing s with
  | nil => rfl
  | cons x rest ih => simp [State.emitBytes, ih]
@[simp] theorem State.emitBytes_hasprev (bytes : List Byte) : (s.emitBytes bytes).hasprev = s.hasprev := by
  induction bytes generalizing s with
  | nil => rfl
  | cons x rest ih => simp [State.emitBytes, ih]
@[simp] theorem State.emitBytes_lo (bytes : List Byte) : (s.emitBytes bytes).lo = s.lo := by
  induction bytes generalizing s with
  | nil => rfl
  | cons x rest ih => simp [State.emitBytes, ih]
@[simp] theorem State.emitBytes_havelo (bytes : List Byte) : (s.emitBytes bytes).havelo = s.havelo := by
  induction bytes generalizing s with
  | nil => rfl
  | cons x rest ih => simp [State.emitBytes, ih]
@[simp] theorem State.emitBytes_strictL (bytes : List Byte) : (s.emitBytes bytes).strictL = s.strictL := by
  induction bytes generalizing s with
  | nil => rfl
  | cons x rest ih => simp [State.emitBytes, ih]
@[simp] theorem State.emitBytes_incnt (bytes : List Byte) : (s.emitBytes bytes).incnt = s.incnt := by
  induction bytes generalizing s with
  | nil => rfl
  | cons x rest ih => simp [State.emitBytes, ih]
@[simp] theorem State.emitBytes_inq (bytes : List Byte) : (s.emitBytes bytes).inq = s.inq := by
  induction bytes generalizing s with
  | nil => rfl
  | cons x rest ih => simp [State.emitBytes, ih]
@[simp] theorem State.emitBytes_outq (bytes : List Byte) : (s.emitBytes bytes).outq = s.outq := by
  induction bytes generalizing s with
  | nil => rfl
  | cons x rest ih => simp [State.emitBytes, ih]
@[simp] theorem State.emitBytes_params (bytes : List Byte) : (s.emitBytes bytes).params = s.params := by
  induction bytes generalizing s with
  | nil => rfl
  | cons x rest ih => simp [State.emitBytes, ih]
@[simp] theorem State.emitBytes_env (bytes : List Byte) : (s.emitBytes bytes).env = s.env := by
  induction bytes generalizing s with
  | nil => rfl
  | cons x rest ih => simp [State.emitBytes, ih]

end Sys2Proof.Machine
end

