-- ==== Sys2Proof/Laws/Ops.lean ====
section
/-! SUPPORT. One lemma per shared operation that says everything it can do. -/

namespace Sys2Proof.Machine

/-- The session states (45_sequencer.md R241). -/
theorem SeqState.inSession_iff (x : SeqState) : x.inSession = true ↔ x ≠ .idle ∧ x ≠ .error := by
  cases x <;> simp [SeqState.inSession]

/-- Error entry in ERROR (60_exceptions.md R270). -/
theorem State.errorEntry_of_error {s : State} (h : s.st = .error) (code : ErrCode) (info : Word) :
    s.errorEntry code info = s := by
  simp [State.errorEntry, h]

/-- Error entry in IDLE (60_exceptions.md R262). -/
theorem State.errorEntry_of_idle {s : State} (h : s.st = .idle) (code : ErrCode) (info : Word) :
    s.errorEntry code info = { s with st := .error, errcode := code, errinfo := info } := by
  simp [State.errorEntry, h, SeqState.inSession]

/-- Error entry in a session (60_exceptions.md R262). -/
theorem State.errorEntry_of_session {s : State} (h : s.st.inSession = true) (code : ErrCode) (info : Word) :
    s.errorEntry code info =
      { s with emit := s.emit ++ [.aborted], st := .error, errcode := code, errinfo := info } := by
  have : s.st ≠ .error := ((SeqState.inSession_iff _).mp h).2
  simp [State.errorEntry, h, this, State.emitBeat]

/-- After error entry the core is in ERROR. -/
@[simp] theorem State.errorEntry_st (s : State) (code : ErrCode) (info : Word) : (s.errorEntry code info).st = .error := by
  unfold State.errorEntry
  split_ifs with h
  · exact h
  all_goals rfl

/-- The legality of a command that runs in IDLE only (45_sequencer.md R241): one of its three columns applies. -/
theorem idleOnly_cases (s : State) (body : Answer) :
    (s.st = .idle ∧ idleOnly s body = body) ∨ (s.st = .error ∧ idleOnly s body = .next s) ∨
    (s.st.inSession = true ∧ idleOnly s body = .next (s.errorEntry .illState s.pcmd)) := by
  unfold idleOnly raise
  cases h : s.st <;> simp [SeqState.inSession]

/-- In IDLE the command runs. -/
theorem idleOnly_of_idle {s : State} (h : s.st = .idle) (body : Answer) : idleOnly s body = body := by
  simp [idleOnly, h]

/-- ABORT runs but in ERROR. -/
theorem unlessError_of_ne {s : State} (h : s.st ≠ .error) (body : Answer) : unlessError s body = body := by
  simp [unlessError, h]

/-- EMIT after the bytes of a sequence are emitted (20_memory.md R80). -/
theorem State.emitBytes_emit (s : State) (bytes : List Byte) :
    (s.emitBytes bytes).emit = s.emit ++ bytes.map fun x => .data (x.setWidth 16) := by
  induction bytes generalizing s with
  | nil => simp [State.emitBytes]
  | cons x rest ih => simp [State.emitBytes, ih]

/-- OUTCNT after the bytes of a sequence are emitted (10_state.md R32). -/
theorem State.emitBytes_outcnt (s : State) (bytes : List Byte) :
    (s.emitBytes bytes).outcnt = s.outcnt + BitVec.ofNat 32 bytes.length := by
  induction bytes generalizing s with
  | nil => simp [State.emitBytes]
  | cons x rest ih =>
    simp only [State.emitBytes, ih, State.emitBeat_outcnt_data, List.length_cons]
    apply BitVec.eq_of_toNat_eq
    simp only [BitVec.toNat_add, BitVec.toNat_ofNat]
    omega

/-- A pop adds its beat to the popped beats (45_sequencer.md R254). -/
@[simp] theorem State.popped_observe_beat (s : State) (b : OutBeat) : (s.observe (.beat b)).popped = s.popped ++ [b] := by
  simp [State.popped, State.observe]

/-- A register read adds no popped beat. -/
@[simp] theorem State.popped_observe_value (s : State) (off : Offset) (v : Word) :
    (s.observe (.value off v)).popped = s.popped := by
  simp [State.popped, State.observe]

/-- A quiescent core has no step enabled (45_sequencer.md R254). -/
theorem State.no_step_of_quiescent {s : State} (h : s.quiescent = true) :
    s.execEnabled = false ∧ s.beatEnabled = false ∧ s.drainEnabled = false := by
  simp only [State.quiescent, Bool.and_eq_true, Bool.or_eq_true, Bool.not_eq_true'] at h
  obtain ⟨⟨hc, he⟩, hi⟩ := h
  refine ⟨by simp [State.execEnabled, hc], ?_, by simp [State.drainEnabled, he]⟩
  rcases hi with hi | hi <;> simp [State.beatEnabled, hi]

/-- The popped turn leaves the core and the host's script alone. -/
theorem State.popTurn_eq (s : State) :
    ∃ turns, s.popTurn.2 = { s with env := { s.env with turns := turns } } := by
  unfold State.popTurn
  cases h : s.env.turns with
  | nil => exact ⟨[], by simp only [← h]⟩
  | cons t rest => exact ⟨rest, rfl⟩

/-- What one turn can do (45_sequencer.md R242, R243): the named step when it is enabled, else nothing. -/
theorem takeTurn_cases (execute : Instr → State → Answer) (t : Turn) (s : State) :
    (t = .exec ∧ s.execEnabled = true ∧ takeTurn execute t s = execStep execute s) ∨
    (t = .beat ∧ s.beatEnabled = true ∧ takeTurn execute t s = beatStep s) ∨
    (t = .drain ∧ s.drainEnabled = true ∧ takeTurn execute t s = .next (drainStep s)) ∨
    (t = .host ∧ takeTurn execute t s = .next (hostStep s)) ∨ takeTurn execute t s = .next s := by
  cases t
  · by_cases h : s.execEnabled = true <;> simp [takeTurn, h]
  · by_cases h : s.beatEnabled = true <;> simp [takeTurn, h]
  · by_cases h : s.drainEnabled = true <;> simp [takeTurn, h]
  · simp [takeTurn]

end Sys2Proof.Machine
end

