-- ==== Sys2Proof/Laws/PerInstr.lean ====
section
/-! SUPPORT. The per-command families: `Encoding` says that the encoding of a command is a well-formed word (30_encoding.md R104). -/

namespace Sys2Proof.Laws

/-- The fields of the encoding of a command (R100). -/
theorem encode_fields (op rsv : BitVec 8) (imm : BitVec 16) :
    opField (op ++ rsv ++ imm) = op ∧ rsvField (op ++ rsv ++ imm) = rsv ∧ immField (op ++ rsv ++ imm) = imm := by
  have h : ∀ k, BitVec.getLsbD (w := 8 + 8 + 16) (op ++ rsv ++ imm) k =
      if k < 16 then imm.getLsbD k else if k - 16 < 8 then rsv.getLsbD (k - 16) else op.getLsbD (k - 16 - 8) := by
    intro k
    simp only [BitVec.getLsbD_append]
  refine ⟨?_, ?_, ?_⟩ <;>
  · apply BitVec.eq_of_getLsbD_eq
    intro i hi
    simp only [opField, rsvField, immField, BitVec.getLsbD_extractLsb', hi, decide_true, Bool.true_and]
    rw [h]
    split_ifs <;> first | omega | (congr 1; omega)

/-- The encoding of the command is a well-formed word. -/
def Encoding.Statement (i : Instr) : Prop := wordWellFormed (encode i) = true

/-- The conditions of R104 on a word given by its fields. -/
theorem wordWellFormed_fields (op : BitVec 8) (imm : BitVec 16) :
    wordWellFormed (op ++ 0#8 ++ imm) = (opcodes.contains op && (opcodesS.contains op || imm == 0#16)) := by
  obtain ⟨h1, h2, h3⟩ := encode_fields op 0#8 imm
  simp only [opField, rsvField, immField] at h1 h2 h3
  simp [wordWellFormed, h1, h2, h3]

theorem Encoding.nop : Encoding.Statement .nop := rfl
theorem Encoding.srst : Encoding.Statement .srst := rfl
theorem Encoding.clrerr : Encoding.Statement .clrerr := rfl
theorem Encoding.abort : Encoding.Statement .abort := rfl
theorem Encoding.hclr : Encoding.Statement .hclr := rfl
theorem Encoding.hset (sym : Symbol) : Encoding.Statement (.hset sym) := wordWellFormed_fields 0x11#8 sym
theorem Encoding.hget (sym : Symbol) : Encoding.Statement (.hget sym) := wordWellFormed_fields 0x12#8 sym
theorem Encoding.hbuild : Encoding.Statement .hbuild := rfl
theorem Encoding.hgen : Encoding.Statement .hgen := rfl
theorem Encoding.hcode (sym : Symbol) : Encoding.Statement (.hcode sym) := wordWellFormed_fields 0x15#8 sym
theorem Encoding.hnode : Encoding.Statement .hnode := rfl
theorem Encoding.enc : Encoding.Statement .enc := rfl
theorem Encoding.dec : Encoding.Statement .dec := rfl
theorem Encoding.pack : Encoding.Statement .pack := rfl
theorem Encoding.unpack : Encoding.Statement .unpack := rfl
theorem Encoding.dlook (code : LzwCode) : Encoding.Statement (.dlook code) := wordWellFormed_fields 0x24#8 code

end Sys2Proof.Laws
end

