-- ==== Sys2Proof/Laws/Table.lean ====
section
/-! SUPPORT. The tables over the Symbols: a read after a write, and every operation keeps the canonical form. -/

namespace Sys2Proof.Machine

variable {α : Type}

@[simp] theorem Table.read_nil (k : Symbol) : Table.read ([] : Table α) k = none := rfl

@[simp] theorem Table.wf_nil : Table.wf ([] : Table α) = true := rfl

theorem Table.read_write_same (t : Table α) (k : Symbol) (v : α) : (t.write k (some v)).read k = some v := by
  induction t with
  | nil => simp [Table.write, Table.read]
  | cons e rest ih =>
    obtain ⟨k', w⟩ := e
    by_cases h : k' < k
    · have hne : k' ≠ k := by rintro rfl; exact absurd h (BitVec.lt_irrefl _)
      simp [Table.write, Table.read, h, hne, ih]
    · by_cases h' : k' = k <;> simp [Table.write, Table.read, h, h']

theorem Table.read_write_other (t : Table α) (k k' : Symbol) (o : Option α) (hne : k' ≠ k) :
    (t.write k o).read k' = t.read k' := by
  induction t with
  | nil => cases o <;> simp [Table.write, Table.read, hne.symm]
  | cons e rest ih =>
    obtain ⟨j, w⟩ := e
    by_cases h : j < k
    · simp [Table.write, Table.read, h, ih]
    · by_cases h' : j = k
      · subst h'; cases o <;> simp [Table.write, Table.read, h, hne.symm]
      · cases o <;> simp [Table.write, Table.read, h, h', hne.symm]

/-- The canonical form of a non-empty table: its first Symbol is below all others, and the rest is canonical. -/
theorem Table.wf_cons (k : Symbol) (v : α) (rest : Table α) :
    Table.wf ((k, v) :: rest) = true ↔ (∀ e ∈ rest, k < e.1) ∧ Table.wf rest = true := by
  induction rest generalizing k v with
  | nil => simp [Table.wf]
  | cons e rest ih =>
    obtain ⟨k', w⟩ := e
    simp only [Table.wf, Bool.and_eq_true, decide_eq_true_eq, List.mem_cons, forall_eq_or_imp]
    constructor
    · rintro ⟨hk, hw⟩
      exact ⟨⟨hk, fun e he => BitVec.lt_trans hk (((ih k' w).mp hw).1 e he)⟩, hw⟩
    · rintro ⟨⟨hk, -⟩, hw⟩
      exact ⟨hk, hw⟩

/-- A write lists only the written Symbol and Symbols that were listed. -/
theorem Table.mem_write {t : Table α} {k : Symbol} {o : Option α} {e : Symbol × α} (h : e ∈ t.write k o) :
    e.1 = k ∨ e ∈ t := by
  induction t with
  | nil => cases o <;> simp_all [Table.write]
  | cons a rest ih =>
    obtain ⟨j, w⟩ := a
    simp only [Table.write] at h
    split_ifs at h
    · rcases List.mem_cons.mp h with rfl | h
      · simp
      · rcases ih h with h | h <;> simp [h]
    · cases o with
      | none => exact Or.inr (List.mem_cons_of_mem _ h)
      | some v => rcases List.mem_cons.mp h with rfl | h <;> simp [*]
    · cases o with
      | none => exact Or.inr h
      | some v => rcases List.mem_cons.mp h with rfl | h <;> simp [*]

/-- A write keeps the canonical form. -/
theorem Table.write_wf (t : Table α) (k : Symbol) (o : Option α) (hw : t.wf = true) : (t.write k o).wf = true := by
  induction t with
  | nil => cases o <;> rfl
  | cons a rest ih =>
    obtain ⟨j, w⟩ := a
    obtain ⟨hj, hr⟩ := (Table.wf_cons j w rest).mp hw
    by_cases h : j < k
    · simp only [Table.write, h, if_true]
      refine (Table.wf_cons _ _ _).mpr ⟨fun e he => ?_, ih hr⟩
      rcases Table.mem_write he with he | he
      · rw [he]; exact h
      · exact hj e he
    · by_cases h' : j = k
      · subst h'
        cases o
        · simpa [Table.write, h] using hr
        · simpa [Table.write, h] using (Table.wf_cons _ _ _).mpr ⟨hj, hr⟩
      · have hk : k < j := by
          have hne : j.toNat ≠ k.toNat := fun e => h' (BitVec.eq_of_toNat_eq e)
          rw [BitVec.lt_def] at h ⊢
          omega
        cases o
        · simpa [Table.write, h, h'] using hw
        · simp only [Table.write, h, h', if_false]
          refine (Table.wf_cons _ _ _).mpr ⟨fun e he => ?_, hw⟩
          rcases List.mem_cons.mp he with rfl | he
          · exact hk
          · exact BitVec.lt_trans hk (hj e he)

/-- The code table HGEN fills is canonical. -/
theorem tableOf_wf (codes : List (Symbol × Code)) : (tableOf codes).wf = true := by
  have h : ∀ ct : Table Code, ct.wf = true → (codes.foldl (fun ct e => ctWrite ct e.1 e.2) ct).wf = true := by
    induction codes with
    | nil => exact fun _ h => h
    | cons e rest ih => exact fun ct hct => ih _ (Table.write_wf ct e.1 e.2.listed hct)
  exact h [] rfl

/-- FT and CT are canonical at reset. -/
theorem reset_tables_wf : State.reset.ft.wf = true ∧ State.reset.ct.wf = true := ⟨rfl, rfl⟩

/-- `CT[k]` after `CT[k] <- c`. -/
theorem ctEntry_ctWrite_same (ct : Table Code) (k : Symbol) (c : Code) (hc : c ≠ ⟨0#16, 0⟩) :
    ctEntry (ctWrite ct k c) k = c := by
  simp [ctEntry, ctWrite, Code.listed, hc, Table.read_write_same]

/-- The other entries after `CT[k] <- c`. -/
theorem ctEntry_ctWrite_other (ct : Table Code) (k k' : Symbol) (c : Code) (hne : k' ≠ k) :
    ctEntry (ctWrite ct k c) k' = ctEntry ct k' := by
  simp [ctEntry, ctWrite, Table.read_write_other ct k k' _ hne]

end Sys2Proof.Machine
end

