-- ==== Sys2Proof/Tests/Slice0.lean ====
section
/-! SUPPORT. Tests of the definitions against 95_test_vectors.md and the worked examples of the rules, the smoke tests of WellFormed, and for every statement with hypotheses a state that meets them. -/

namespace Sys2Proof.Tests

open Sys2Proof.Machine

/-! ### WellFormed refuses each ill-formed term (30_encoding.md R104, R107, R108) -/

theorem test_word_reserved_opcode_refused : wordWellFormed 0x04000000#32 = false := by decide
theorem test_word_reserved_bits_refused : wordWellFormed 0x11010041#32 = false := by decide
theorem test_word_immediate_in_format_n_refused : wordWellFormed 0x00000001#32 = false := by decide
theorem test_word_nop_accepted : wordWellFormed 0x00000000#32 = true := by decide
theorem test_line_wr_too_wide_refused : (Line.wr .arg (2 ^ 32)).wellFormed = false := by decide
theorem test_line_push_too_wide_refused : (Line.push 0x10000).wellFormed = false := by decide
theorem test_line_cmd_immediate_in_format_n_refused : (Line.cmd .hbuild (some 1)).wellFormed = false := by decide
theorem test_line_cmd_no_immediate_in_format_s_refused : (Line.cmd .hset none).wellFormed = false := by decide
theorem test_line_cmd_immediate_too_wide_refused : (Line.cmd .dlook (some 0x10000)).wellFormed = false := by decide
theorem test_line_hsetf_symbol_too_wide_refused : (Line.hsetf 0x10000 1).wellFormed = false := by decide
theorem test_line_hsetf_frequency_too_wide_refused : (Line.hsetf 1 (2 ^ 32)).wellFormed = false := by decide
theorem test_line_pushs_not_ascii_refused : (Line.pushs ['é']).wellFormed = false := by decide
theorem test_line_pushb_not_a_byte_refused : (Line.pushb [0x41, 256]).wellFormed = false := by decide
theorem test_line_accepted : (Line.hsetf 0xFFFF 0xFFFFFFFF).wellFormed = true := by decide

/-! ### Decoding: words written out from the opcode map (30_encoding.md R101, R103, R108) -/

theorem test_decode_nop : decode 0b00000000_00000000_0000000000000000#32 = .ok .nop := by decide
theorem test_decode_srst : decode 0b00000001_00000000_0000000000000000#32 = .ok .srst := by decide
theorem test_decode_clrerr : decode 0b00000010_00000000_0000000000000000#32 = .ok .clrerr := by decide
theorem test_decode_abort : decode 0b00000011_00000000_0000000000000000#32 = .ok .abort := by decide
theorem test_decode_hclr : decode 0b00010000_00000000_0000000000000000#32 = .ok .hclr := by decide
theorem test_decode_hset : decode 0b00010001_00000000_0100000100000000#32 = .ok (.hset 0x4100#16) := by decide
theorem test_decode_hget : decode 0b00010010_00000000_0000000001000001#32 = .ok (.hget 0x41#16) := by decide
theorem test_decode_hbuild : decode 0b00010011_00000000_0000000000000000#32 = .ok .hbuild := by decide
theorem test_decode_hgen : decode 0b00010100_00000000_0000000000000000#32 = .ok .hgen := by decide
theorem test_decode_hcode : decode 0b00010101_00000000_0000000001000010#32 = .ok (.hcode 0x42#16) := by decide
theorem test_decode_hnode : decode 0b00010110_00000000_0000000000000000#32 = .ok .hnode := by decide
theorem test_decode_enc : decode 0b00100000_00000000_0000000000000000#32 = .ok .enc := by decide
theorem test_decode_dec : decode 0b00100001_00000000_0000000000000000#32 = .ok .dec := by decide
theorem test_decode_pack : decode 0b00100010_00000000_0000000000000000#32 = .ok .pack := by decide
theorem test_decode_unpack : decode 0b00100011_00000000_0000000000000000#32 = .ok .unpack := by decide
theorem test_decode_dlook : decode 0b00100100_00000000_0000000100000010#32 = .ok (.dlook 0x102#16) := by decide
theorem test_decode_reserved_opcode : decode 0x25000000#32 = .error (.reservedOpcode 0x25#8) := by decide
theorem test_decode_reserved_bits : decode 0x11010041#32 = .error .reservedBits := by decide
theorem test_decode_immediate : decode 0x13000001#32 = .error .immediateInFormatN := by decide

/-- `HSETF 0x41, 5` expands to its three actions (30_encoding.md R108). -/
theorem test_asm_hsetf : assemble [.hsetf 0x41 5] =
    [.write 0x10#6 5#32, .write 0x0C#6 0x11000041#32, .readUntil 0x08#6 0x8#32 0#32] := by decide

/-- Input beat kind 3 is RSV, whatever its payload (30_encoding.md R106). -/
theorem test_beat_kind_reserved : InBeat.ofPort 3#2 0x1234#16 = .rsv := by decide

/-! ### Helpers -/

/-- The state after one step that executes the command word `w`. -/
def after (w : Nat) (s : State) : Option State :=
  match step (s.withFetchWord 32 w) with
  | .next t => some t
  | .fault _ => none
  | .refused _ => none

/-- The state after one beat. -/
def afterBeat (b : InBeat) (s : State) : Option State :=
  match consume b s with
  | .next t => some t
  | .fault _ => none
  | .refused _ => none

/-- After reset with ARG set. -/
def withArg (v : Word) (s : State) : State := { s with arg := v }

/-- FT holding {0x41: 1, 0x42: 1} (vector H2). -/
def twoSymbols : State := { State.reset with ft := [(0x41#16, 1#32), (0x42#16, 1#32)] }

/-- H2 after HBUILD (95_test_vectors.md L1.2). -/
def twoBuilt : State :=
  { twoSymbols with
    nodes := [leafNode 0x41#16 1#32, leafNode 0x42#16 1#32,
      { leaf := false, sym := 0#16, left := 0#17, right := 1#17, freq := 2#48, minsym := 0x41#16 }]
    troot := 2#17, tvalid := true }

/-- H2 after HGEN (95_test_vectors.md L1.2). -/
def twoGenerated : State :=
  { twoBuilt with ct := [(0x41#16, ⟨1#16, 0⟩), (0x42#16, ⟨1#16, 1⟩)], cvalid := true }

/-- A session state with a dictionary (newest entry first). -/
def inSession (x : SeqState) (d : List DictEntry) : State := { State.reset with st := x, dict := d }

/-- Code 256 = "AA". -/
def oneEntry : List DictEntry := [⟨0x41#16, 0x41#8⟩]

/-- `n` times the entry (0, 1). -/
def manyEntries (n : Nat) : List DictEntry := List.replicate n ⟨0#16, 1#8⟩

/-- The host's next action on the next turn. -/
def hostDoes (a : HostAct) (s : State) : State := { s with env := { script := [a], turns := [.host], log := [] } }

/-- The core tries a step of this kind next. -/
def coreTries (t : Turn) (s : State) : State := { s with env := { script := [], turns := [t], log := [] } }

/-! ### Commands, one step each (95_test_vectors.md) -/

/-- Q9: NOP in ERROR sets DONE and stays in ERROR. -/
theorem test_nop_in_error : (after 0x00000000 { State.reset with st := .error, errcode := .illState, errinfo := 0x11000041#32 }).map
    (fun t => (t.status, t.errinfo)) = some (0x217#32, 0x11000041#32) := by decide

/-- Q16: SRST clears everything, also with EMIT not empty. -/
theorem test_srst_discards : step { (inSession .enc oneEntry) with cmdp := true, pcmd := 0x01000000#32, emit := [.data 1#16] } =
    .next State.reset := rfl

/-- Q11: CLRERR. -/
theorem test_clrerr : (after 0x02000000 { State.reset with st := .error, errcode := .desync, errinfo := 0x102#32, inq := [.fin] }).map
    (fun t => (t.status, t.errinfo, t.inq)) = some (0x10#32, 0#32, []) := by decide

/-- R253: an ABORT does not emit the current match. -/
theorem test_abort : (after 0x03000000 { (inSession .enc []) with cur := 0x41#16, hascur := true }).map
    (fun t => (t.emit, t.st, t.done)) = some ([.aborted], .idle, true) := by decide

/-- T13: HCLR after H2 was built. -/
theorem test_hclr : (after 0x10000000 twoBuilt).map (fun t => (t.nsym, t.tvalid, t.troot, t.tnodes)) =
    some (0, false, 0#17, 0) := by decide

/-- T5: HSET of a present symbol replaces its frequency. -/
theorem test_hset_replaces : (after 0x11000041 (withArg 9#32 twoSymbols)).map (fun t => t.ft) =
    some [(0x41#16, 9#32), (0x42#16, 1#32)] := by decide

/-- T4: 0x11004100 is the HSET of symbol 0x4100. -/
theorem test_hset_inserts : (after 0x11004100 (withArg 3#32 State.reset)).map (fun t => (t.ft, t.status)) =
    some ([(0x4100#16, 3#32)], 0x10#32) := by decide

/-- T2: an absent symbol. -/
theorem test_hget_absent : (after 0x12000043 twoSymbols).map (fun t => (t.res0, t.res1)) = some (0#32, 0#32) := by decide

/-- R132: a present symbol. -/
theorem test_hget_present : (after 0x12000042 twoSymbols).map (fun t => (t.res0, t.res1)) = some (1#32, 1#32) := by decide

/-- L1.2: HBUILD of H2. -/
theorem test_hbuild_two : (after 0x13000000 twoSymbols).map (fun t => (t.nodes, t.troot, t.res0, t.res1, t.res2)) =
    some (twoBuilt.nodes, 2#17, 2#32, 2#32, 3#32) := by decide

/-- H7: all frequencies 0, the ties broken by minsym: the root is node(left 3, right 2). -/
theorem test_hbuild_ties : (buildTree [(0#16, 0#32), (1#16, 0#32), (2#16, 0#32)]).1.map (fun n => (n.left, n.right)) =
    [(0#17, 0#17), (0#17, 0#17), (0#17, 0#17), (0#17, 1#17), (3#17, 2#17)] := by decide

/-- T8: HGEN after reset is E_NOTREE. -/
theorem test_hgen_no_tree : (after 0x14000000 State.reset).map (fun t => (t.status, t.errinfo)) =
    some (0x407#32, 0x14000000#32) := by decide

/-- L1.2: HGEN of H2. -/
theorem test_hgen_two : (after 0x14000000 twoBuilt).map (fun t => (t.ct, t.res0, t.res1, t.res2, t.res3)) =
    some (twoGenerated.ct, 1#32, 2#32, 2#32, 0#32) := by decide

/-- R168, long codes: word 1 of the 39-bit code of 38 ones and a 0. -/
theorem test_hcode_second_word : (after 0x15000000 (withArg 1#32
    { State.reset with cvalid := true, ct := [(0#16, ⟨39#16, 2 ^ 39 - 2⟩)] })).map (fun t => (t.res0, t.res1)) =
    some (39#32, 0x7F#32) := by decide

/-- T9: HCODE without a code table. -/
theorem test_hcode_no_table : (after 0x15000001 twoBuilt).map (fun t => (t.status, t.errinfo)) =
    some (0x547#32, 0x15000001#32) := by decide

/-- L1.2: HNODE of the root. -/
theorem test_hnode_root : (after 0x16000000 (withArg 2#32 twoBuilt)).map (fun t => (t.res0, t.res1, t.res2, t.res3)) =
    some (0x80000000#32, 1#32, 2#32, 0x00410000#32) := by decide

/-- T10: an id at TNODES. -/
theorem test_hnode_out_of_range : (after 0x16000000 (withArg 3#32 twoBuilt)).map (fun t => (t.res0, t.st)) =
    some (0#32, .idle) := by decide

/-- R180: ENC samples STRICT and resets the dictionary. -/
theorem test_enc_starts : (after 0x20000000 { State.reset with ctrl := 1#4, dict := oneEntry, incnt := 7#32 }).map
    (fun t => (t.st, t.strictL, t.next, t.incnt)) = some (.enc, true, 256, 0#32) := by decide

/-- R181: DEC. -/
theorem test_dec_starts : (after 0x21000000 State.reset).map (fun t => (t.status, t.next)) = some (0x2#32, 256) := by decide

/-- R220: PACK leaves the dictionary alone. -/
theorem test_pack_starts : (after 0x22000000 { State.reset with dict := oneEntry }).map (fun t => (t.st, t.next)) =
    some (.pack, 257) := by decide

/-- Q8: a command in a session is E_ILLSTATE, and UNPACK is one. -/
theorem test_unpack_in_session : (after 0x23000000 (inSession .pack [])).map (fun t => (t.errcode, t.errinfo, t.emit)) =
    some (.illState, 0x23000000#32, [.aborted]) := by decide

/-- L4: DLOOK of code 258 = code 257 followed by "A". -/
theorem test_dlook_assigned : (after 0x24000102 { State.reset with dict := [⟨257#16, 0x41#8⟩, ⟨256#16, 0x41#8⟩, ⟨0x41#16, 0x41#8⟩] }).map
    (fun t => (t.res0, t.res1, t.res2)) = some (0x80000101#32, 0x00004141#32, 4#32) := by decide

/-- L4: DLOOK of the base code 0x41. -/
theorem test_dlook_base : (after 0x24000041 State.reset).map (fun t => (t.res0, t.res1, t.res2)) =
    some (0xC0000000#32, 0x00004141#32, 1#32) := by decide

/-- Q6: RSV != 0 is E_BADOP with the word. -/
theorem test_bad_word : (after 0x11010041 State.reset).map (fun t => (t.status, t.errinfo)) =
    some (0x107#32, 0x11010041#32) := by decide

/-! ### Beats -/

/-- R190: a miss with room emits "A" and inserts code 256 = "AA". -/
theorem test_enc_miss : (afterBeat (.data 0x41#16) { (inSession .enc []) with cur := 0x41#16, hascur := true }).map
    (fun t => (t.emit, t.dict, t.cur)) = some ([.data 0x41#16, .data 0#16], oneEntry, 0x41#16) := by decide

/-- L9: only bits [7:0] of the payload are the byte. -/
theorem test_enc_hit : (afterBeat (.data 0xFF41#16) { (inSession .enc oneEntry) with cur := 0x41#16, hascur := true }).map
    (fun t => (t.emit, t.cur)) = some ([], 0x100#16) := by decide

/-- D2: code 256 = NEXT decodes to "AA" and is inserted. -/
theorem test_dec_code_equal_to_next : (afterBeat (.data 1#16)
    { (inSession .dec []) with prev := 0x41#16, hasprev := true, lo := 0#8, havelo := true }).map
    (fun t => (t.emit, t.dict, t.prev)) = some ([.data 0x41#16, .data 0x41#16], oneEntry, 0x100#16) := by decide

/-- D6: code 258 is above NEXT. -/
theorem test_dec_desync : (afterBeat (.data 1#16)
    { (inSession .dec []) with prev := 0x41#16, hasprev := true, lo := 2#8, havelo := true }).map
    (fun t => (t.emit, t.errcode, t.errinfo)) = some ([.aborted], .desync, 0x102#32) := by decide

/-- S2: PACK emits the low byte first. -/
theorem test_pack_beat : (afterBeat (.data 0x0102#16) (inSession .pack [])).map (fun t => t.emit) =
    some [.data 2#16, .data 1#16] := by decide

/-- S9: UNPACK pairs bits [7:0]. -/
theorem test_unpack_beat : (afterBeat (.data 0x200#16) { (inSession .unpack []) with lo := 0xFF#8, havelo := true }).map
    (fun t => t.emit) = some [.data 0xFF#16] := by decide

/-- S7: an odd byte at END. -/
theorem test_unpack_truncated : (afterBeat .fin { (inSession .unpack []) with lo := 0xFF#8, havelo := true }).map
    (fun t => (t.errcode, t.errinfo, t.emit)) = some (.trunc, 0xFF#32, [.aborted]) := by decide

/-- Q17: a CMD write while a command is pending. -/
theorem test_overrun : step (hostDoes (.write 0x0C#6 0#32) (State.reset.latch 0x10000000#32)) =
    .next { State.reset with
      cmdp := true, pcmd := 0x10000000#32, st := .error, errcode := .cmdOvr
      env := { script := [], turns := [], log := [] } } := rfl

/-- Q2: CTRL keeps its low four bits. -/
theorem test_ctrl_write : (State.reset.writeReg 0x04#6 0xFFFFFFFF#32).readReg 0x04#6 = 0xF#32 := by decide

/-- Q1: ID and DSIZE at reset. -/
theorem test_reset_reads : State.reset.readReg 0x00#6 = 0x4C5A4801#32 ∧ State.reset.readReg 0x24#6 = 0x100#32 := by decide

/-! ### Witnesses: for every statement with hypotheses a state and operands that meet them all

A statement with several clauses has a witness for each, at a boundary of its range. The names end in the statement's name. -/

/-- Both FIFO depths 1, the least. -/
def shallow : Config.Params := { inBeyondFirst := 0, outBeyondFirst := 0 }

theorem manyEntries_length (n : Nat) : (manyEntries n).length = n := List.length_replicate ..

theorem manyEntries_next (n : Nat) : Dict.next (manyEntries n) = 256 + n := by
  simp [manyEntries, Dict.next, Config.baseCodes]

theorem manyEntries_wf (n : Nat) : Dict.wf (manyEntries n) = true := by
  induction n with
  | zero => rfl
  | succ n ih =>
    have h : manyEntries (n + 1) = ⟨0#16, 1#8⟩ :: manyEntries n := rfl
    rw [h]
    exact Dict.wf_insert ih (by rw [manyEntries_next]; simp) _

theorem manyEntries_lookup (n : Nat) : Dict.lookup (manyEntries n) 0#16 0#8 = none := by
  induction n with
  | zero => rfl
  | succ n ih =>
    have h : manyEntries (n + 1) = ⟨0#16, 1#8⟩ :: manyEntries n := rfl
    rw [h]
    simp [Dict.lookup, ih]

/-- An encode session at the end of the dictionary: `n` entries, current match 0. -/
def encAt (n : Nat) (strict : Bool) : State := { (inSession .enc (manyEntries n)) with hascur := true, strictL := strict }

/-- A decode session at the end of the dictionary: `n` entries, previous code 0. -/
def decAt (n : Nat) (strict : Bool) : State := { (inSession .dec (manyEntries n)) with hasprev := true, strictL := strict }

theorem decAt_next (n : Nat) (strict : Bool) : (decAt n strict).next = 256 + n := manyEntries_next n

theorem encAt_next (n : Nat) (strict : Bool) : (encAt n strict).next = 256 + n := manyEntries_next n

theorem decAt_inv (n : Nat) (strict : Bool) (hn : n ≤ 65280) : MachineInv (decAt n strict) where
  ft_canonical := rfl
  ct_canonical := rfl
  ct_codes := by intro sym c h; simp [decAt, inSession, State.reset] at h
  tree_current := by intro h; simp [decAt, inSession, State.reset] at h
  table_current := by intro h; simp [decAt, inSession, State.reset] at h
  dict_falls := manyEntries_wf n
  dict_capped := by rw [decAt_next]; simp only [Config.dictCap]; omega
  cur_assigned := by intro h; simp [decAt, inSession, State.reset] at h
  prev_assigned := by intro _; rw [decAt_next]; simp [decAt, inSession, State.reset]
  hascur_state := by intro h; simp [decAt, inSession, State.reset] at h
  hasprev_state := by intro _; simp [decAt, inSession]
  havelo_state := by intro h; simp [decAt, inSession, State.reset] at h
  error_code := by simp [decAt, inSession, State.reset]
  error_info := by simp [decAt, inSession, State.reset]
  inq_bounded := by simp [decAt, inSession, State.reset]
  outq_bounded := by simp [decAt, inSession, State.reset]

/-- A decode session before its first code. -/
def decFirst : State := inSession .dec []

theorem decFirst_inv : MachineInv decFirst where
  ft_canonical := rfl
  ct_canonical := rfl
  ct_codes := by intro sym c h; simp [decFirst, inSession, State.reset] at h
  tree_current := by intro h; simp [decFirst, inSession, State.reset] at h
  table_current := by intro h; simp [decFirst, inSession, State.reset] at h
  dict_falls := rfl
  dict_capped := by decide
  cur_assigned := by decide
  prev_assigned := by decide
  hascur_state := by decide
  hasprev_state := by decide
  havelo_state := by decide
  error_code := by decide
  error_info := by decide
  inq_bounded := by decide
  outq_bounded := by decide

/-- In IDLE after an encode session that left one entry; no symbol is present. -/
def afterSession : State := { State.reset with dict := oneEntry, done := true }

theorem afterSession_inv : MachineInv afterSession where
  ft_canonical := rfl
  ct_canonical := rfl
  ct_codes := by intro sym c h; simp [afterSession, State.reset] at h
  tree_current := by intro h; simp [afterSession, State.reset] at h
  table_current := by intro h; simp [afterSession, State.reset] at h
  dict_falls := by decide
  dict_capped := by decide
  cur_assigned := by decide
  prev_assigned := by decide
  hascur_state := by decide
  hasprev_state := by decide
  havelo_state := by decide
  error_code := by decide
  error_info := by decide
  inq_bounded := by decide
  outq_bounded := by decide

theorem twoBuilt_inv : MachineInv twoBuilt where
  ft_canonical := by decide
  ct_canonical := rfl
  ct_codes := by intro sym c h; simp [twoBuilt, twoSymbols, State.reset] at h
  tree_current := by decide
  table_current := by decide
  dict_falls := rfl
  dict_capped := by decide
  cur_assigned := by decide
  prev_assigned := by decide
  hascur_state := by decide
  hasprev_state := by decide
  havelo_state := by decide
  error_code := by decide
  error_info := by decide
  inq_bounded := by decide
  outq_bounded := by decide

/-- In ERROR with an error recorded. -/
def inError : State := { State.reset with st := .error, errcode := .desync, errinfo := 0x102#32 }

theorem witness_DecodeIsInverseOfEncode : decode 0x1100FFFF#32 = .ok (.hset 0xFFFF#16) ∧
    encode (.hset 0xFFFF#16) = 0x1100FFFF#32 := by decide

/-- The lowest reserved opcode in IDLE, reserved bits in ERROR, an immediate in format N in a session. -/
theorem witness_MalformedWordIsBadOp :
    (let s := State.reset.latch 0x04000000#32
     wordWellFormed s.pcmd = false ∧ s.st = .idle) ∧
    (let s := inError.latch 0x11010041#32
     wordWellFormed s.pcmd = false ∧ s.st = .error) ∧
    (let s := (inSession .enc []).latch 0x00000001#32
     wordWellFormed s.pcmd = false ∧ s.st.inSession = true ∧ s.execEnabled = true) ∧
    (let s := { (inSession .dec []).latch 0x24010000#32 with emit := [.data 1#16] }
     wordWellFormed s.pcmd = false ∧ s.st.inSession = true ∧ s.emit ≠ []) := by decide

theorem witness_StepExecutesThePendingCommand :
    (let s := State.reset.latch 0#32
     s.cmdp = true ∧ s.emit = [] ∧ decode s.pcmd = .ok .nop ∧ s.env.turns = []) ∧
    (let s := coreTries .exec { State.reset.latch 0x01000000#32 with emit := [.fin] }
     s.cmdp = true ∧ s.emit ≠ [] ∧ decode s.pcmd = .ok .srst ∧ s.env.turns = [.exec]) ∧
    (let s := coreTries .exec State.reset
     s.env.turns = [.exec] ∧ s.cmdp = false) ∧
    (let s := coreTries .exec { State.reset.latch 0#32 with emit := [.fin] }
     s.env.turns = [.exec] ∧ s.cmdp = true ∧ s.emit ≠ [] ∧ decode s.pcmd ≠ .ok .srst) := by decide

theorem witness_BeatStepConsumesTheHeadOfInq :
    (let s := coreTries .beat { (inSession .pack []) with inq := [.data 1#16] }
     s.env.turns = [.beat] ∧ s.st.inSession = true ∧ s.cmdp = false ∧ s.emit = [] ∧ s.inq = [.data 1#16]) ∧
    (let s := coreTries .beat { State.reset with inq := [.fin] }
     s.env.turns = [.beat] ∧ s.st.inSession = false) := by decide

/-- OUTQ with room for one beat, and full. -/
theorem witness_DrainMovesOneBeat :
    (let s := coreTries .drain { State.reset with params := shallow, emit := [.fin] }
     s.env.turns = [.drain] ∧ s.emit = [.fin] ∧ s.outq.length < s.params.outDepth) ∧
    (let s := coreTries .drain { State.reset with params := shallow, emit := [.fin], outq := [.data 1#16] }
     s.env.turns = [.drain] ∧ s.params.outDepth ≤ s.outq.length) ∧
    (let s := coreTries .drain State.reset
     s.env.turns = [.drain] ∧ s.emit = []) ∧
    (let s := { State.reset.latch 0x01000000#32 with emit := [.fin] }
     s.emit ≠ [] ∧ s.execEnabled = true) := by decide

theorem witness_CoreStepsExcludeEachOther :
    (let s := { State.reset.latch 0x01000000#32 with emit := [.fin] }
     s.execEnabled = true ∧ s.drainEnabled = true) := by decide

theorem witness_PushAndBeatCommute :
    (let s := { (inSession .pack []) with inq := [.data 1#16] }
     s.beatEnabled = true ∧ s.canPush = true ∧ ∃ t, beatStep s = .next t) := ⟨by decide, by decide, _, rfl⟩

/-- A core at rest, and one that is stuck with OUTQ full and a command pending (93_implementation_defined.md U17). -/
theorem witness_QuiescentCoreKeepsItsState :
    (let s := (inSession .enc [])
     s.quiescent = true ∧ s.runEnded = true ∧ s.outq.length < s.params.outDepth ∧ s.execEnabled = false ∧
       s.beatEnabled = false ∧ s.drainEnabled = false ∧ s.env.turns = [] ∧ s.env.script = []) ∧
    (let s := { State.reset.latch 0#32 with params := shallow, emit := [.fin], outq := [.data 1#16] }
     s.quiescent = false ∧ s.runEnded = false ∧ s.execEnabled = false ∧ s.beatEnabled = false ∧
       s.drainEnabled = false ∧ s.env.turns = [] ∧ s.env.script = []) := by decide

theorem witness_RegisterReadHasNoSideEffect :
    (let s := hostDoes (.read 0x3F#6) State.reset
     s.env.turns = [.host] ∧ s.env.script = [.read 0x3F#6]) := by decide

/-- At reset, and with the dictionary full. -/
theorem witness_StatusFields : State.reset.next ≤ 65536 ∧ (decAt 65280 false).next = 65536 :=
  ⟨by decide, by rw [decAt_next]⟩

theorem witness_RegisterWriteEffects :
    (let s := hostDoes (.write 0x3F#6 1#32) State.reset
     s.env.turns = [.host] ∧ s.env.script = [.write 0x3F#6 1#32]) ∧
    Reg.ofOffset 0x04#6 = .ctrl ∧ Reg.ofOffset 0x07#6 = .ctrl ∧ Reg.ofOffset 0x08#6 = .status ∧
    Reg.ofOffset 0x0F#6 = .cmd ∧ State.reset.cmdp = false ∧ (State.reset.latch 0#32).cmdp = true ∧
    Reg.ofOffset 0x10#6 = .arg ∧ Reg.ofOffset 0x00#6 = .id ∧ Reg.ofOffset 0x14#6 = .res0 := by decide

theorem witness_PushAndPopAreFifo :
    (let s := hostDoes (.push .rsv) { State.reset with params := shallow }
     s.env.turns = [.host] ∧ s.env.script = [.push .rsv] ∧ s.inq.length < s.params.inDepth) ∧
    (let s := hostDoes (.push .rsv) { State.reset with params := shallow, inq := [.fin] }
     s.env.turns = [.host] ∧ s.env.script = [.push .rsv] ∧ s.params.inDepth ≤ s.inq.length) ∧
    (let s := hostDoes .pop { State.reset with outq := [.fin] }
     s.env.turns = [.host] ∧ s.env.script = [.pop] ∧ s.outq = [.fin]) ∧
    (let s := hostDoes .pop State.reset
     s.env.turns = [.host] ∧ s.env.script = [.pop] ∧ s.outq = []) := by decide

theorem witness_CommandOverrunKeepsThePendingCommand :
    (let s := State.reset.latch 0x10000000#32
     s.cmdp = true ∧ s.st ≠ .error ∧ decode s.pcmd ≠ .ok .nop ∧ decode s.pcmd ≠ .ok .srst ∧
       decode s.pcmd ≠ .ok .clrerr) ∧
    (let s := inError.latch 0x10000000#32
     s.cmdp = true ∧ s.st = .error) := by decide

theorem witness_IoErrorsOnlyInSessions :
    (let s := { (inSession .unpack []) with inq := [.err] }
     s.st.inSession = true ∧ s.inq = [.err]) ∧
    (let s := { (inSession .enc []) with inq := [.rsv, .fin] }
     s.st.inSession = true ∧ s.inq = [.rsv, .fin]) ∧
    (let s := hostDoes .sinkError (inSession .dec [])
     s.env.turns = [.host] ∧ s.env.script = [.sinkError] ∧ s.st.inSession = true) ∧
    (let s := hostDoes .sinkError State.reset
     s.env.turns = [.host] ∧ s.env.script = [.sinkError] ∧ s.st.inSession = false) := by decide

theorem witness_ErrorEntryRecordsTheFirst :
    inError.st = .error ∧ State.reset.st = .idle ∧ (inSession .pack []).st.inSession = true := by decide

/-- A step in ERROR that keeps the error (HCLR is discarded), and one that leaves ERROR (CLRERR). -/
theorem witness_OnlyClearingLeavesError :
    (let s := inError.latch 0x10000000#32
     s.st = .error ∧ ∃ t, step s = .next t ∧ t.st = .error) ∧
    (let s := inError.latch 0x02000000#32
     s.st = .error ∧ ∃ t, step s = .next t ∧ t.st = .idle) := ⟨⟨rfl, _, rfl, rfl⟩, rfl, _, rfl, rfl⟩

theorem witness_CommandLegality :
    (inSession .unpack []).st.inSession = true ∧ idleCommand (.dlook 0xFFFF#16) = true ∧ inError.st = .error := by decide

theorem witness_StaleTablesAreErrors :
    State.reset.st = .idle ∧ State.reset.tvalid = false ∧ twoBuilt.st = .idle ∧ twoBuilt.cvalid = false := by decide

theorem witness_ClrerrReturnsToIdle : inError.st = .error ∧ State.reset.st ≠ .error := by decide

theorem witness_AbortEndsTheSession :
    (inSession .enc []).st.inSession = true ∧ State.reset.st = .idle ∧ inError.st = .error := by decide

theorem witness_HclrClearsTheTables : twoGenerated.st = .idle ∧ twoGenerated.ft ≠ [] ∧ twoGenerated.ct ≠ [] := by decide

/-- An absent and a present symbol. -/
theorem witness_HsetPutsOneSymbol :
    twoSymbols.st = .idle ∧ twoSymbols.ft.wf = true ∧ twoSymbols.ft.read 0xFFFF#16 = none ∧
    twoSymbols.ft.read 0x41#16 = some 1#32 := by decide

theorem witness_HgetReadsOneSymbol :
    twoSymbols.st = .idle ∧ twoSymbols.ft.read 0x42#16 = some 1#32 ∧ twoSymbols.ft.read 0x43#16 = none := by decide

theorem witness_HbuildRejectsAnEmptyTable :
    afterSession.st = .idle ∧ (∀ sym, afterSession.ft.read sym = none) ∧ MachineInv afterSession :=
  ⟨rfl, fun _ => rfl, afterSession_inv⟩

/-- One symbol, the least, and two. -/
theorem witness_HbuildBuildsASoundTree :
    (let s := { State.reset with ft := [(0xFFFF#16, 0xFFFFFFFF#32)] }
     s.st = .idle ∧ s.ft.wf = true ∧ s.ft ≠ []) ∧
    twoSymbols.st = .idle ∧ twoSymbols.ft.wf = true ∧ twoSymbols.ft ≠ [] := by decide

theorem witness_ExtractionTakesTheLeastKey :
    takeLeast [⟨0, leafNode 1#16 7#32⟩, ⟨1, leafNode 2#16 0#32⟩] =
      some (⟨1, leafNode 2#16 0#32⟩, [⟨0, leafNode 1#16 7#32⟩]) ∧
    2 ≤ [(⟨0, leafNode 1#16 7#32⟩ : Ranked), ⟨1, leafNode 2#16 0#32⟩].length ∧
    twoSymbols.st = .idle ∧ twoSymbols.ft.wf = true ∧ twoSymbols.ft ≠ [] := by decide

theorem witness_TreeDependsOnTheMappingOnly :
    (let s := { twoSymbols with arg := 5#32 }
     twoSymbols.st = .idle ∧ s.st = .idle ∧ twoSymbols.ft.wf = true ∧ s.ft.wf = true ∧ twoSymbols.ft ≠ [] ∧
     (∀ sym, twoSymbols.ft.read sym = s.ft.read sym) ∧ (∃ t, exec .hbuild twoSymbols = .next t) ∧
     ∃ t, exec .hbuild s = .next t) :=
  ⟨rfl, rfl, by decide, by decide, by decide, fun _ => rfl, ⟨_, rfl⟩, _, rfl⟩

/-- The last node, and the first id that is none. -/
theorem witness_HnodeReadsOneNode :
    State.reset.st = .idle ∧ State.reset.tvalid = false ∧
    twoBuilt.st = .idle ∧ twoBuilt.tvalid = true ∧ (withArg 2#32 twoBuilt).nodes[2]?.isSome = true ∧
    (withArg 3#32 twoBuilt).nodes.length ≤ (withArg 3#32 twoBuilt).arg.toNat := by decide

theorem witness_HgenRecordsThePaths :
    MachineInv twoBuilt ∧ twoBuilt.st = .idle ∧ twoBuilt.tvalid = true ∧ 2 ≤ twoBuilt.nsym ∧
    twoBuilt.ft.read 0x41#16 = some 1#32 ∧ twoBuilt.ft.read 0x43#16 = none :=
  ⟨twoBuilt_inv, by decide⟩

theorem witness_CodeTableIsPrefixFree :
    MachineInv twoBuilt ∧ twoBuilt.st = .idle ∧ twoBuilt.tvalid = true ∧ (∃ t, exec .hgen twoBuilt = .next t) ∧
    (0x41#16 : Symbol) ≠ 0x42#16 ∧ (twoBuilt.ft.read 0x41#16).isSome = true ∧ (twoBuilt.ft.read 0x42#16).isSome = true :=
  ⟨twoBuilt_inv, rfl, rfl, ⟨_, rfl⟩, by decide⟩

theorem witness_HgenResults : MachineInv twoBuilt ∧ twoBuilt.st = .idle ∧ twoBuilt.tvalid = true :=
  ⟨twoBuilt_inv, rfl, rfl⟩

theorem witness_WeightedLengthIsTheSumOfNodes :
    MachineInv twoBuilt ∧ twoBuilt.st = .idle ∧ twoBuilt.tvalid = true ∧ 2 ≤ twoBuilt.nsym ∧
    ∃ t, exec .hgen twoBuilt = .next t := ⟨twoBuilt_inv, rfl, rfl, by decide, _, rfl⟩

theorem witness_SingleSymbolGetsOneBit :
    (let s := { State.reset with ft := [(0x41#16, 5#32)] }
     s.st = .idle ∧ s.ft = [(0x41#16, 5#32)]) := by decide

theorem witness_HcodeReadsOneWord :
    twoBuilt.st = .idle ∧ twoBuilt.cvalid = false ∧ twoGenerated.st = .idle ∧ twoGenerated.cvalid = true := by decide

theorem witness_LzwSessionsStartFresh : twoGenerated.st = .idle := by decide

/-- The last base code, the first assigned code, and NEXT. -/
theorem witness_SequencesFollowTheChains :
    Dict.wf oneEntry = true ∧ 255 < 256 ∧ 256 ≤ 256 ∧ 256 < 256 + oneEntry.length ∧ 256 + oneEntry.length ≤ 257 := by decide

/-- A full dictionary, a hit and a miss. -/
theorem witness_LookupFindsTheLeastCode :
    256 + (manyEntries 65280).length ≤ 65536 ∧ Dict.lookup (manyEntries 65280) 0#16 0#8 = none ∧
    256 + oneEntry.length ≤ 65536 ∧ Dict.lookup oneEntry 0x41#16 0x41#8 = some 0x100#16 :=
  ⟨by rw [manyEntries_length], manyEntries_lookup _, by decide, by decide⟩

theorem witness_LookupFindsTheExtendedSequence :
    (let s := { (inSession .enc oneEntry) with cur := 0x41#16, hascur := true }
     s.st = .enc ∧ s.dict.Nodup ∧ ∃ t, consume (.data 0x41#16) s = .next t) ∧
    Dict.wf oneEntry = true ∧ oneEntry.Nodup ∧ 256 + oneEntry.length ≤ 65536 ∧
    Dict.seq oneEntry (0x100#16 : LzwCode).toNat = some [0x41#8, 0x41#8] :=
  ⟨⟨rfl, by decide, _, rfl⟩, by decide, by decide, by decide, by decide⟩

/-- The last insertion: NEXT = 65535. -/
theorem witness_InsertAssignsTheNextCode :
    (decAt 65279 false).next < 65536 ∧ (0xFFFE#16 : LzwCode).toNat < (decAt 65279 false).next ∧
    Dict.wf (decAt 65279 false).dict = true := by
  rw [decAt_next]
  exact ⟨by omega, by decide, manyEntries_wf _⟩

/-- NEXT at reset, the last base code, and the first assigned code. -/
theorem witness_DlookReadsOneEntry :
    (let s := { State.reset with dict := oneEntry }
     s.st = .idle ∧ Dict.wf s.dict = true ∧ s.next ≤ (0x101#16 : LzwCode).toNat ∧ (0xFF#16 : LzwCode).toNat < 256 ∧
     256 ≤ (0x100#16 : LzwCode).toNat ∧ (0x100#16 : LzwCode).toNat < s.next) := by decide

/-- The first byte, a hit, the last miss with room (NEXT = 65535), and the two misses with the dictionary full. -/
theorem witness_EncoderTakesOneByte :
    ((inSession .enc []).st = .enc ∧ (inSession .enc []).hascur = false) ∧
    (let s := { (inSession .enc oneEntry) with cur := 0x41#16, hascur := true }
     s.st = .enc ∧ s.hascur = true ∧ Dict.lookup s.dict s.cur 0x41#8 = some 0x100#16) ∧
    ((encAt 65279 true).hascur = true ∧ Dict.lookup (encAt 65279 true).dict (encAt 65279 true).cur 0#8 = none ∧
      (encAt 65279 true).next < 65536) ∧
    ((encAt 65280 true).hascur = true ∧ Dict.lookup (encAt 65280 true).dict (encAt 65280 true).cur 0#8 = none ∧
      65536 ≤ (encAt 65280 true).next ∧ (encAt 65280 true).strictL = true) ∧
    (Dict.lookup (encAt 65280 false).dict (encAt 65280 false).cur 0#8 = none ∧
      65536 ≤ (encAt 65280 false).next ∧ (encAt 65280 false).strictL = false) :=
  ⟨by decide, by decide, ⟨rfl, manyEntries_lookup _, by rw [encAt_next]; omega⟩,
    ⟨rfl, manyEntries_lookup _, by rw [encAt_next], rfl⟩, manyEntries_lookup _, by rw [encAt_next], rfl⟩

theorem witness_SessionsEndByTheirEndBeat :
    (let s := { (inSession .enc []) with hascur := true }
     s.st = .enc ∧ s.hascur = true) ∧
    ((inSession .enc []).st = .enc ∧ (inSession .enc []).hascur = false) ∧
    (let s := { (inSession .dec []) with havelo := true }
     s.st = .dec ∧ s.havelo = true) ∧
    (let s := { (inSession .unpack []) with havelo := true }
     s.st = .unpack ∧ s.havelo = true) ∧
    ((inSession .dec []).st = .dec ∧ (inSession .dec []).havelo = false) ∧
    ((inSession .unpack []).st = .unpack ∧ (inSession .unpack []).havelo = false) ∧
    (inSession .pack []).st = .pack := by decide

theorem witness_StreamBytesPairUp :
    (let s := inSession .dec []
     s.st = .dec ∧ s.havelo = false) ∧
    (let s := { (inSession .unpack []) with havelo := true, lo := 0xFF#8 }
     s.st = .unpack ∧ s.havelo = true) ∧
    (let s := { (inSession .dec []) with havelo := true, lo := 0xFF#8 }
     s.st = .dec ∧ s.havelo = true) := by decide

/-- The first code 255; NEXT itself with the last room (65535); the greatest code with the dictionary full and frozen. -/
theorem witness_DecoderExpandsTheCode :
    (MachineInv decFirst ∧ decFirst.st = .dec ∧ decFirst.hasprev = false ∧ (0xFF#16 : LzwCode).toNat < 256) ∧
    (MachineInv (decAt 65279 true) ∧ (decAt 65279 true).st = .dec ∧ (decAt 65279 true).hasprev = true ∧
      ¬ ((decAt 65279 true).next = 65536 ∧ (decAt 65279 true).strictL = true) ∧
      (0xFFFF#16 : LzwCode).toNat = (decAt 65279 true).next) ∧
    (MachineInv (decAt 65280 false) ∧ (decAt 65280 false).hasprev = true ∧
      ¬ ((decAt 65280 false).next = 65536 ∧ (decAt 65280 false).strictL = true) ∧
      (0xFFFF#16 : LzwCode).toNat < (decAt 65280 false).next) := by
  refine ⟨⟨decFirst_inv, rfl, rfl, by decide⟩, ⟨decAt_inv _ _ (by omega), rfl, rfl, ?_, ?_⟩,
    ⟨decAt_inv _ _ (by omega), rfl, ?_, ?_⟩⟩
  · rw [decAt_next]; omega
  · rw [decAt_next]; decide
  · rintro ⟨-, h⟩; exact Bool.noConfusion h
  · rw [decAt_next]; decide

/-- The first code 256; a full dictionary in strict mode; the first code above NEXT. -/
theorem witness_DecoderRaisesOnBadCodes :
    (decFirst.st = .dec ∧ decFirst.hasprev = false ∧ 256 ≤ (0x100#16 : LzwCode).toNat) ∧
    ((decAt 65280 true).st = .dec ∧ (decAt 65280 true).hasprev = true ∧ (decAt 65280 true).next = 65536 ∧
      (decAt 65280 true).strictL = true) ∧
    ((decAt 0 false).st = .dec ∧ (decAt 0 false).hasprev = true ∧ (decAt 0 false).next < 65536 ∧
      (decAt 0 false).next < (0x101#16 : LzwCode).toNat) :=
  ⟨by decide, ⟨rfl, rfl, by rw [decAt_next], rfl⟩, by decide⟩

/-- The session of "AA", which ends in IDLE. -/
theorem witness_LzwRoundTrip :
    State.reset.st = .idle ∧ State.reset.emit = [] ∧
    ∃ t out, session .enc (bytePayloads [0x41#8, 0x41#8]) State.reset = some (t, out) ∧ t.st = .idle :=
  ⟨rfl, rfl, _, _, rfl, rfl⟩

theorem witness_FrozenEncoderAlwaysEnds :
    State.reset.st = .idle ∧ State.reset.emit = [] ∧ State.reset.ctrl.getLsbD 0 = false := by decide

theorem witness_SerializerStartsAndPacks : State.reset.st = .idle ∧ (inSession .pack []).st = .pack := by decide

theorem witness_SerializerRoundTrip : State.reset.st = .idle ∧ State.reset.emit = [] := by decide

theorem witness_BeatsMarkTheSessionOnce :
    (let s := inSession .enc []
     s.st.inSession = true ∧ ∃ t, consume .fin s = .next t) := ⟨rfl, _, rfl⟩

theorem witness_OperandAndResultRegisters :
    ((Instr.hget 0x41#16) ≠ .srst ∧ ∃ t, exec (.hget 0x41#16) twoSymbols = .next t ∧ t.res0 ≠ twoSymbols.res0) ∧
    ∃ t, consume .fin (inSession .pack []) = .next t :=
  ⟨⟨by decide, _, rfl, by decide⟩, _, rfl⟩

theorem witness_DoneIsSticky :
    (let s := hostDoes (.write 0x08#6 0x10#32) State.reset.setDone
     s.done = true ∧ ∃ t, step s = .next t ∧ t.done = false) := ⟨rfl, _, rfl, rfl⟩

theorem witness_StepKeepsTheInvariant :
    (let s := decAt 0 false
     MachineInv s ∧ ∃ t, step s = .next t) := ⟨decAt_inv 0 false (by omega), _, rfl⟩

theorem witness_SoundStatesAlwaysStep : MachineInv twoBuilt := twoBuilt_inv

end Sys2Proof.Tests
end

section
/-! SUPPORT. The interrupt output (10_state.md R48): its sources, the STATUS bit that reads it, and its level at reset. -/

namespace Sys2Proof.Machine

theorem State.irq_eq_true_iff (s : State) :
    s.irq = true ↔
      (s.done = true ∧ s.ctrl.getLsbD 1 = true) ∨ (s.st = .error ∧ s.ctrl.getLsbD 2 = true) ∨
        (s.ovf = true ∧ s.ctrl.getLsbD 3 = true) := by
  simp only [State.irq, State.ieDone, State.ieErr, State.ieOvf, Bool.or_eq_true, Bool.and_eq_true,
    decide_eq_true_eq, or_assoc]

/-- Bits 0 to 11 are the fields below IRQ: STATE, five flags and ERRCODE (10_state.md R23). -/
theorem State.status_getLsbD_irq (s : State) : s.status.getLsbD 12 = s.irq := by
  simp only [State.status, BitVec.getLsbD_append]
  simp

theorem State.readReg_status (s : State) : s.readReg 0x08#6 = s.status := rfl

@[simp] theorem State.reset_irq : State.reset.irq = false := rfl

/-- Settles O13, from the sources of the interrupt output and the place of its bit in STATUS. -/
theorem interruptIsEnabledPending : Obligations.InterruptIsEnabledPending := by
  refine ⟨fun s => ⟨s.irq_eq_true_iff, ?_⟩, State.reset_irq⟩
  rw [State.readReg_status, State.status_getLsbD_irq]

end Sys2Proof.Machine
end

section
/-! SUPPORT. Register writes (20_memory.md R73): the register an offset reaches, what a write does to each register, and the host's step that performs it. -/

namespace Sys2Proof.Machine

/-- The register numbers of 10_state.md R21: register `i` stands at offset `4 * i`. -/
theorem Reg.ofIndex_eq_iff (i : RegIndex) (r : Reg) : Reg.ofIndex i = r ↔ i.toNat = r.offset.toNat / 4 := by
  cases r <;> revert i <;> decide

/-- The low two bits of an offset are ignored (20_memory.md R72). -/
theorem Reg.ofOffset_eq_iff (off : Offset) (r : Reg) : Reg.ofOffset off = r ↔ off.toNat / 4 = r.offset.toNat / 4 := by
  have hindex : (off.extractLsb' 2 4).toNat = off.toNat / 4 := by
    simp only [BitVec.extractLsb'_toNat, Nat.shiftRight_eq_div_pow]
    omega
  rw [Reg.ofOffset, Reg.ofIndex_eq_iff, hindex]

section
variable {s : State} {off : Offset} {v : Word}

theorem State.writeReg_of_ctrl (h : Reg.ofOffset off = .ctrl) :
    s.writeReg off v = { s with ctrl := v.extractLsb' 0 4 } := by
  simp only [State.writeReg, h]

theorem State.writeReg_of_status (h : Reg.ofOffset off = .status) : s.writeReg off v = s.writeStatus v := by
  simp only [State.writeReg, h]

theorem State.writeReg_of_cmd (h : Reg.ofOffset off = .cmd) : s.writeReg off v = s.writeCmd v := by
  simp only [State.writeReg, h]

theorem State.writeReg_of_arg (h : Reg.ofOffset off = .arg) : s.writeReg off v = { s with arg := v } := by
  simp only [State.writeReg, h]

/-- The other registers are read-only. -/
theorem State.writeReg_of_readOnly (hctrl : Reg.ofOffset off ≠ .ctrl) (hstatus : Reg.ofOffset off ≠ .status)
    (hcmd : Reg.ofOffset off ≠ .cmd) (harg : Reg.ofOffset off ≠ .arg) : s.writeReg off v = s := by
  unfold State.writeReg
  cases h : Reg.ofOffset off
  case ctrl => exact absurd h hctrl
  case status => exact absurd h hstatus
  case cmd => exact absurd h hcmd
  case arg => exact absurd h harg
  all_goals rfl

end

/-- A 1 in `v[4]` or `v[5]` clears the bit, a 0 leaves it (10_state.md R23). -/
theorem State.writeStatus_eq (s : State) (v : Word) :
    s.writeStatus v =
      { s with
        done := if v.getLsbD 4 = true then false else s.done
        ovf := if v.getLsbD 5 = true then false else s.ovf } := by
  unfold State.writeStatus
  cases v.getLsbD 4 <;> cases v.getLsbD 5 <;> simp

theorem State.writeCmd_of_not_pending {s : State} (h : s.cmdp = false) (v : Word) : s.writeCmd v = s.latch v := by
  simp [State.writeCmd, h]

/-- The command port is occupied (60_exceptions.md R268). -/
theorem State.writeCmd_of_pending {s : State} (h : s.cmdp = true) (v : Word) :
    s.writeCmd v = s.errorEntry .cmdOvr v := by
  simp [State.writeCmd, h]

/-! ### The host's script and turns play no part in a register write -/

theorem State.errorEntry_withEnv (s : State) (e : Env) (code : ErrCode) (info : Word) :
    ({ s with env := e } : State).errorEntry code info = { s.errorEntry code info with env := e } := by
  unfold State.errorEntry
  split_ifs <;> rfl

theorem State.writeCmd_withEnv (s : State) (e : Env) (v : Word) :
    ({ s with env := e } : State).writeCmd v = { s.writeCmd v with env := e } := by
  unfold State.writeCmd
  split_ifs
  · exact s.errorEntry_withEnv e .cmdOvr v
  · rfl

theorem State.writeReg_withEnv (s : State) (e : Env) (off : Offset) (v : Word) :
    ({ s with env := e } : State).writeReg off v = { s.writeReg off v with env := e } := by
  unfold State.writeReg
  cases Reg.ofOffset off
  case cmd => exact s.writeCmd_withEnv e v
  all_goals rfl

/-- The host's turn performs its next action (45_sequencer.md R243). -/
theorem step_of_host_turn {s : State} {a : HostAct} {rest : List HostAct} {ts : List Turn}
    (hturns : s.env.turns = .host :: ts) (hscript : s.env.script = a :: rest) :
    step s = .next (performHost a rest { s with env := { s.env with turns := ts } }) := by
  simp only [step, advance, State.popTurn, hturns, takeTurn, hostStep, hscript]

theorem step_of_host_write {s : State} {off : Offset} {v : Word} {rest : List HostAct} {ts : List Turn}
    (hturns : s.env.turns = .host :: ts) (hscript : s.env.script = .write off v :: rest) :
    step s = .next { s.writeReg off v with env := { s.env with script := rest, turns := ts } } := by
  rw [step_of_host_turn hturns hscript, performHost, State.writeReg_withEnv, State.withScript]

/-- Settles O14, from the equation of a write for each register and from the offset of each register. -/
theorem registerWriteEffects : Obligations.RegisterWriteEffects := by
  refine ⟨fun s off v rest ts hturns hscript => step_of_host_write hturns hscript, fun s off v =>
    ⟨State.writeReg_of_ctrl, ?status, ?latched, ?overrun, State.writeReg_of_arg, State.writeReg_of_readOnly,
      Reg.ofOffset_eq_iff off .ctrl, Reg.ofOffset_eq_iff off .status, Reg.ofOffset_eq_iff off .cmd,
      Reg.ofOffset_eq_iff off .arg⟩⟩
  case status => exact fun h => (State.writeReg_of_status h).trans (s.writeStatus_eq v)
  case latched => exact fun h hfree => (State.writeReg_of_cmd h).trans (State.writeCmd_of_not_pending hfree v)
  case overrun => exact fun h hpending => (State.writeReg_of_cmd h).trans (State.writeCmd_of_pending hpending v)

end Sys2Proof.Machine
end

section
/-! SUPPORT. Well-formed command words (30_encoding.md R104): the conditions `wellformed` lists are the ones the decoder checks, and EXEC of any other word is error entry. -/

namespace Sys2Proof

/-- The format of a command is in its opcode alone (30_encoding.md R100). -/
theorem commandOf_format_zero_imm (op : BitVec 8) (imm : BitVec 16) :
    (commandOf op imm).map Prod.fst = (commandOf op 0#16).map Prod.fst := by
  unfold commandOf
  split <;> rfl

/-- `commandOf` knows the opcodes of R103, each with its format. -/
theorem commandOf_format (op : BitVec 8) (imm : BitVec 16) :
    (commandOf op imm).map Prod.fst =
      if opcodes.contains op then some (if opcodesS.contains op then .s else .n) else none := by
  rw [commandOf_format_zero_imm]
  revert op
  decide

/-- The three conditions of R104, on the fields of the word. -/
theorem wordWellFormed_iff (w : Word) :
    wordWellFormed w = true ↔
      opcodes.contains (opField w) = true ∧ rsvField w = 0#8 ∧
        (opcodesS.contains (opField w) = true ∨ immField w = 0#16) := by
  simp only [wordWellFormed, opField, rsvField, immField, Bool.and_eq_true, Bool.or_eq_true, beq_iff_eq, and_assoc]

/-- What `decode` accepts: a known opcode, reserved bits zero, and an immediate only in format S. -/
theorem exists_decode_eq_ok_iff (w : Word) :
    (∃ i, decode w = .ok i) ↔
      ∃ fmt, (commandOf (opField w) (immField w)).map Prod.fst = some fmt ∧ rsvField w = 0#8 ∧
        (fmt = .s ∨ immField w = 0#16) := by
  unfold decode
  cases commandOf (opField w) (immField w) with
  | none => simp
  | some command =>
    obtain ⟨fmt, i⟩ := command
    by_cases hrsv : rsvField w = 0#8
    · cases fmt
      case s => simp [hrsv]
      case n => by_cases himm : immField w = 0#16 <;> simp [hrsv, himm]
    · simp [hrsv]

/-- The well-formed words are the words that decode (30_encoding.md R104). -/
theorem wordWellFormed_iff_exists_decode (w : Word) : wordWellFormed w = true ↔ ∃ i, decode w = .ok i := by
  rw [wordWellFormed_iff, exists_decode_eq_ok_iff, commandOf_format]
  simp

end Sys2Proof

namespace Sys2Proof.Machine

/-- EXEC of a word that is not well formed clears CMDP and enters E_BADOP (45_sequencer.md R244). -/
theorem execStep_of_malformed {s : State} (execute : Instr → State → Answer) (h : wordWellFormed s.pcmd = false) :
    execStep execute s = .next (s.clearCmdp.errorEntry .badOp s.pcmd) := by
  unfold execStep
  cases hdecode : decode s.pcmd with
  | ok i => simp [(wordWellFormed_iff_exists_decode s.pcmd).mpr ⟨i, hdecode⟩] at h
  | error r => rfl

/-- Settles O3, from the agreement of `wellformed` with the decoder and from what error entry does in each kind of STATE. -/
theorem malformedWordIsBadOp : Obligations.MalformedWordIsBadOp := by
  refine ⟨wordWellFormed_iff_exists_decode, rfl, fun s h => ?_⟩
  rw [execStep_of_malformed exec h]
  exact ⟨fun hst => congrArg _ (State.errorEntry_of_error (s := s.clearCmdp) hst .badOp s.pcmd),
    fun hst => congrArg _ (State.errorEntry_of_idle (s := s.clearCmdp) hst .badOp s.pcmd),
    fun hst => congrArg _ (State.errorEntry_of_session (s := s.clearCmdp) hst .badOp s.pcmd)⟩

end Sys2Proof.Machine
end

section
/-! SUPPORT. The legality of the commands that run in IDLE only (45_sequencer.md R241): what they do in ERROR and in a session. -/

namespace Sys2Proof.Machine

theorem idleOnly_of_error {s : State} (h : s.st = .error) (body : Answer) : idleOnly s body = .next s := by
  simp [idleOnly, h]

theorem idleOnly_of_session {s : State} (h : s.st.inSession = true) (body : Answer) :
    idleOnly s body = .next (s.errorEntry .illState s.pcmd) := by
  obtain ⟨hidle, herror⟩ := (SeqState.inSession_iff _).mp h
  obtain ⟨hst, -⟩ | ⟨hst, -⟩ | ⟨-, heq⟩ := idleOnly_cases s body
  · exact absurd hst hidle
  · exact absurd hst herror
  · exact heq

/-- The meaning of every command in the IDLE-only rows of R241 is guarded by `idleOnly`. -/
theorem exec_eq_idleOnly {i : Instr} (h : idleCommand i = true) (s : State) : ∃ body, exec i s = idleOnly s body := by
  cases i
  case nop | srst | clrerr | abort => simp [idleCommand] at h
  all_goals exact ⟨_, rfl⟩

/-- The legality of the IDLE-only rows is one argument for all of them: the guard `idleOnly` answers before the body runs. -/
theorem legalInIdleOnly_of_idleCommand {i : Instr} {w : Word} (hi : idleCommand i = true) (hw : encode i = w) :
    legalInIdleOnly i w := by
  refine ⟨hw, fun s => ?_⟩
  obtain ⟨body, hbody⟩ := exec_eq_idleOnly hi s
  rw [hbody]
  exact ⟨fun hst => (idleOnly_of_session hst body).trans (congrArg _ (State.errorEntry_of_session hst _ _)),
    fun hst => idleOnly_of_error hst body⟩

end Sys2Proof.Machine
end

section
/-! SUPPORT. The frequency table (41_huffman_tree.md R130 to R132, R138): the size of a table after a write, the empty table, and what HCLR, HSET, HGET and an HBUILD on the empty table do in IDLE. -/

namespace Sys2Proof.Machine

/-! ### Tables -/

section
variable {α : Type}

/-- Symbols below all the listed ones are absent. -/
theorem Table.read_eq_none_of_lt {t : Table α} {k : Symbol} (h : ∀ e ∈ t, k < e.1) : t.read k = none := by
  induction t with
  | nil => rfl
  | cons a rest ih =>
    obtain ⟨j, w⟩ := a
    obtain ⟨hj, hrest⟩ := List.forall_mem_cons.mp h
    have hne : j ≠ k := fun heq => BitVec.lt_irrefl k (heq ▸ hj)
    simp [Table.read, hne, ih hrest]

/-- A write of an entry adds one to the size of a canonical table exactly when the Symbol was absent. -/
theorem Table.length_write_some {t : Table α} (hw : t.wf = true) (k : Symbol) (v : α) :
    (t.write k (some v)).length = if (t.read k).isSome then t.length else t.length + 1 := by
  induction t with
  | nil => rfl
  | cons a rest ih =>
    obtain ⟨j, w⟩ := a
    obtain ⟨hj, hrest⟩ := (Table.wf_cons j w rest).mp hw
    by_cases hlt : j < k
    · have hne : j ≠ k := fun heq => BitVec.lt_irrefl k (heq ▸ hlt)
      simp only [Table.write, Table.read, hlt, hne, if_true, if_false, List.length_cons, ih hrest]
      split_ifs <;> rfl
    · by_cases heq : j = k
      · simp [Table.write, Table.read, heq]
      · have hk : k < j := BitVec.lt_of_le_ne (BitVec.not_lt.mp hlt) (Ne.symm heq)
        have habsent : Table.read rest k = none := Table.read_eq_none_of_lt fun e he => BitVec.lt_trans hk (hj e he)
        simp [Table.write, Table.read, hlt, heq, habsent]

/-- With every Symbol absent nothing is listed. -/
theorem Table.eq_nil_of_read_eq_none {t : Table α} (h : ∀ k, t.read k = none) : t = [] := by
  cases t with
  | nil => rfl
  | cons a rest => exact absurd (h a.1) (by simp [Table.read])

end

/-! ### The command words, and the commands in IDLE -/

theorem encode_hset (sym : Symbol) : encode (.hset sym) = 0x1100#16 ++ sym :=
  congrArg (fun op : BitVec 16 => op ++ sym) (show 0x11#8 ++ 0#8 = 0x1100#16 from rfl)

theorem encode_hget (sym : Symbol) : encode (.hget sym) = 0x1200#16 ++ sym :=
  congrArg (fun op : BitVec 16 => op ++ sym) (show 0x12#8 ++ 0#8 = 0x1200#16 from rfl)

theorem exec_hclr_of_idle {s : State} (h : s.st = .idle) :
    exec .hclr s = .next { s.staleTables.setDone with ft := [], ct := [], nodes := [], troot := 0#17 } :=
  idleOnly_of_idle h _

theorem exec_hset_of_idle {s : State} (h : s.st = .idle) (sym : Symbol) :
    exec (.hset sym) s = .next { s.staleTables.setDone with ft := s.ft.write sym (some s.arg) } :=
  idleOnly_of_idle h _

theorem exec_hget_of_present {s : State} (h : s.st = .idle) {sym : Symbol} {f : Word} (hf : s.ft.read sym = some f) :
    exec (.hget sym) s = .next (s.setRes 1#32 f 0#32 0#32).setDone := by
  simp only [exec, execHget, idleOnly_of_idle h, hf]

theorem exec_hget_of_absent {s : State} (h : s.st = .idle) {sym : Symbol} (hf : s.ft.read sym = none) :
    exec (.hget sym) s = .next (s.setRes 0#32 0#32 0#32 0#32).setDone := by
  simp only [exec, execHget, idleOnly_of_idle h, hf]

/-- HBUILD needs a symbol (41_huffman_tree.md R138). -/
theorem exec_hbuild_of_nil {s : State} (h : s.st = .idle) (hft : s.ft = []) :
    exec .hbuild s = .next { s with st := .error, errcode := .empty, errinfo := 0#32 } := by
  have hnsym : s.nsym = 0 := by rw [State.nsym, hft]; rfl
  simp only [exec, execHbuild, idleOnly_of_idle h, hnsym, if_true, raise, State.errorEntry_of_idle h]

/-- A valid tree is the tree of a table with a symbol (10_state.md R39). -/
theorem MachineInv.tvalid_eq_false_of_nil {s : State} (hinv : MachineInv s) (hft : s.ft = []) : s.tvalid = false := by
  by_contra htree
  exact (hinv.tree_current (Bool.eq_true_of_not_eq_false htree)).1 hft

/-- Settles O26, from the state HCLR leaves in IDLE. -/
theorem hclrClearsTheTables : Obligations.HclrClearsTheTables :=
  ⟨legalInIdleOnly_of_idleCommand rfl rfl, fun _ hst => ⟨_, exec_hclr_of_idle hst, fun _ => ⟨rfl, rfl⟩, rfl, rfl, rfl⟩⟩

/-- Settles O27, from the laws of a table write. -/
theorem hsetPutsOneSymbol : Obligations.HsetPutsOneSymbol :=
  ⟨fun sym => legalInIdleOnly_of_idleCommand rfl (encode_hset sym), fun s sym hst hwf =>
    ⟨_, exec_hset_of_idle hst sym, Table.read_write_same s.ft sym s.arg,
      fun k hne => Table.read_write_other s.ft sym k _ hne, Table.write_wf s.ft sym _ hwf,
      Table.length_write_some hwf sym s.arg, rfl⟩⟩

/-- Settles O28, by the two cases of the entry. -/
theorem hgetReadsOneSymbol : Obligations.HgetReadsOneSymbol :=
  ⟨fun sym => legalInIdleOnly_of_idleCommand rfl (encode_hget sym), fun _ _ hst =>
    ⟨fun _ hpresent => exec_hget_of_present hst hpresent, fun habsent => exec_hget_of_absent hst habsent⟩⟩

/-- Settles O29: a table without symbols is the empty list, on which HBUILD raises its error. -/
theorem hbuildRejectsAnEmptyTable : Obligations.HbuildRejectsAnEmptyTable := by
  intro s hst habsent
  have hft : s.ft = [] := Table.eq_nil_of_read_eq_none habsent
  exact ⟨exec_hbuild_of_nil hst hft, fun hinv => hinv.tvalid_eq_false_of_nil hft⟩

end Sys2Proof.Machine
end

section
/-! SUPPORT. HNODE (41_huffman_tree.md R140): the fields of its result words, and what it does in IDLE. -/

namespace Sys2Proof.Machine

/-! ### The result words of a node -/

theorem nodeWord0_getLsbD_valid (n : Node) : (nodeWord0 n).getLsbD 31 = true := by
  simp only [nodeWord0, BitVec.getLsbD_append]
  simp

theorem nodeWord0_getLsbD_leaf (n : Node) : (nodeWord0 n).getLsbD 30 = n.leaf := by
  simp only [nodeWord0, BitVec.getLsbD_append]
  simp

theorem nodeWord0_extractLsb'_reserved (n : Node) : (nodeWord0 n).extractLsb' 17 13 = 0#13 := by
  rw [nodeWord0, BitVec.extractLsb'_append_eq_of_le le_rfl, Nat.sub_self, BitVec.extractLsb'_append_eq_right]

/-- The low bits hold the symbol of a leaf, the left child of a Node. -/
theorem nodeWord0_extractLsb'_low (n : Node) :
    ((nodeWord0 n).extractLsb' 0 17).toNat = if n.leaf then n.sym.toNat else n.left.toNat := by
  rw [nodeWord0, BitVec.extractLsb'_append_eq_right]
  split_ifs
  · exact BitVec.toNat_setWidth_of_le (by omega)
  · rfl

theorem nodeWord3_extractLsb'_minsym (n : Node) : (nodeWord3 n).extractLsb' 16 16 = n.minsym :=
  BitVec.extractLsb'_append_eq_left

/-- The low half of RES3 continues RES2: together they are the frequency. -/
theorem resultWords_toNat_eq_freq (n : Node) :
    (n.freq.extractLsb' 0 32).toNat + 2 ^ 32 * ((nodeWord3 n).extractLsb' 0 16).toNat = n.freq.toNat := by
  have hlt : n.freq.toNat < 2 ^ 48 := n.freq.isLt
  rw [nodeWord3, BitVec.extractLsb'_append_eq_right]
  simp only [BitVec.extractLsb'_toNat, Nat.shiftRight_eq_div_pow]
  omega

/-! ### The command in IDLE -/

/-- HNODE needs a valid tree (60_exceptions.md R265). -/
theorem exec_hnode_of_stale {s : State} (h : s.st = .idle) (htree : s.tvalid = false) :
    exec .hnode s = .next { s with st := .error, errcode := .noTree, errinfo := s.pcmd } := by
  simp [exec, execHnode, idleOnly_of_idle h, htree, raise, State.errorEntry_of_idle h]

theorem exec_hnode_of_node {s : State} (h : s.st = .idle) (htree : s.tvalid = true) {n : Node}
    (hn : s.nodes[s.arg.toNat]? = some n) :
    exec .hnode s =
      .next (s.setRes (nodeWord0 n) (n.right.setWidth 32) (n.freq.extractLsb' 0 32) (nodeWord3 n)).setDone := by
  simp only [exec, execHnode, idleOnly_of_idle h, htree, State.argNodeId, hn, if_true]

theorem exec_hnode_of_no_node {s : State} (h : s.st = .idle) (htree : s.tvalid = true)
    (hn : s.nodes[s.arg.toNat]? = none) : exec .hnode s = .next (s.setRes 0#32 0#32 0#32 0#32).setDone := by
  simp only [exec, execHnode, idleOnly_of_idle h, htree, State.argNodeId, hn, if_true]

/-- Settles O33, by the three cases: no tree, a node, an id that is none. -/
theorem hnodeReadsOneNode : Obligations.HnodeReadsOneNode := by
  refine ⟨legalInIdleOnly_of_idleCommand rfl rfl, fun _ => exec_hnode_of_stale, fun s hst htree =>
    ⟨fun n hn => ⟨_, exec_hnode_of_node hst htree hn, nodeWord0_getLsbD_valid n, nodeWord0_getLsbD_leaf n,
      nodeWord0_extractLsb'_reserved n, nodeWord0_extractLsb'_low n, ?right, resultWords_toNat_eq_freq n,
      nodeWord3_extractLsb'_minsym n, rfl⟩, ?noNode⟩⟩
  case right => exact BitVec.toNat_setWidth_of_le (by omega)
  case noNode => exact fun hlen => exec_hnode_of_no_node hst htree (List.getElem?_eq_none hlen)

end Sys2Proof.Machine
end

section
/-! SUPPORT. HCODE (42_huffman_code.md R168): the word of a code's value, and what it does in IDLE. -/

namespace Sys2Proof.Machine

theorem encode_hcode (sym : Symbol) : encode (.hcode sym) = 0x1500#16 ++ sym :=
  congrArg (fun op : BitVec 16 => op ++ sym) (show 0x15#8 ++ 0#8 = 0x1500#16 from rfl)

/-- The right shift of `codeWord` is the division of R168. -/
theorem codeWord_toNat (val k : Nat) : (codeWord val k).toNat = val / 2 ^ (32 * k) % 2 ^ 32 := by
  rw [codeWord, BitVec.toNat_ofNat, Nat.shiftRight_eq_div_pow]

/-- HCODE needs a valid code table (60_exceptions.md R265). -/
theorem exec_hcode_of_stale {s : State} (h : s.st = .idle) (htable : s.cvalid = false) (sym : Symbol) :
    exec (.hcode sym) s = .next { s with st := .error, errcode := .noTable, errinfo := s.pcmd } := by
  simp [exec, execHcode, idleOnly_of_idle h, htable, raise, State.errorEntry_of_idle h]

theorem exec_hcode_of_valid {s : State} (h : s.st = .idle) (htable : s.cvalid = true) (sym : Symbol) :
    exec (.hcode sym) s =
      .next (s.setRes ((ctEntry s.ct sym).len.setWidth 32) (codeWord (ctEntry s.ct sym).val s.arg.toNat)
        0#32 0#32).setDone := by
  simp only [exec, execHcode, idleOnly_of_idle h, htable, State.argWordIndex, if_true]

/-- Settles O39, by the two cases of CVALID. -/
theorem hcodeReadsOneWord : Obligations.HcodeReadsOneWord :=
  ⟨fun sym => legalInIdleOnly_of_idleCommand rfl (encode_hcode sym),
    fun _ sym hst htable => exec_hcode_of_stale hst htable sym,
    fun s sym hst htable => ⟨_, exec_hcode_of_valid hst htable sym, BitVec.toNat_setWidth_of_le (by omega),
      codeWord_toNat (ctEntry s.ct sym).val s.arg.toNat, rfl⟩⟩

end Sys2Proof.Machine
end

section
/-! SUPPORT. The LZW dictionary: the entries and sequences before and after an insertion, and what Lookup finds (43_lzw.md R183, R185). -/

namespace Sys2Proof.Machine

section
variable {d older : List DictEntry} {e : DictEntry} {p : LzwCode} {b : Byte}

/-! ### Entries and sequences -/

@[simp] theorem Dict.entry_cons_next (e : DictEntry) (older : List DictEntry) :
    Dict.entry (e :: older) (Dict.next older) = some e := if_pos rfl

theorem Dict.entry_cons_of_ne {c : Nat} (h : c ≠ Dict.next older) :
    Dict.entry (e :: older) c = Dict.entry older c := if_neg h

/-- Every code from 256 up to NEXT is assigned (10_state.md R41). -/
theorem Dict.exists_entry {c : Nat} (hbase : 256 ≤ c) (hnext : c < Dict.next d) : ∃ e, Dict.entry d c = some e := by
  induction d with
  | nil => exact absurd hnext (Nat.not_lt.mpr hbase)
  | cons e older ih =>
    by_cases hc : c = Dict.next older
    · exact ⟨e, hc ▸ Dict.entry_cons_next e older⟩
    · rw [Dict.entry_cons_of_ne hc]
      rw [Dict.next_cons] at hnext
      exact ih (by omega)

/-- A base code has no entry. -/
theorem Dict.entry_of_base {c : Nat} (h : c < 256) : Dict.entry d c = none := by
  cases hentry : Dict.entry d c with
  | none => rfl
  | some e => exact absurd (Dict.entry_range hentry).1 (Nat.not_le.mpr h)

/-- The newest code is its prefix code's sequence, then its byte (10_state.md R42). -/
theorem Dict.seq_cons_next {x : List Byte} (h : Dict.seq older e.pre.toNat = some x) :
    Dict.seq (e :: older) (Dict.next older) = some (x ++ [e.suf]) := by
  simp only [Dict.seq, if_true, h]

/-- A base code is its byte, whatever the entries (10_state.md R42). -/
theorem Dict.seq_of_base {c : Nat} (h : c < 256) : Dict.seq d c = some [BitVec.ofNat 8 c] := by
  induction d with
  | nil => exact if_pos h
  | cons e older ih =>
    have hne : c ≠ Dict.next older := by rw [Dict.next_eq]; omega
    rw [Dict.seq, if_neg hne, ih]

/-! ### Lookup -/

/-- A match among the older entries goes before the newest one. -/
theorem Dict.lookup_cons_of_some {c : LzwCode} (h : Dict.lookup older p b = some c) :
    Dict.lookup (e :: older) p b = some c := by
  simp only [Dict.lookup, h]

/-- Without one it is the newest entry or nothing. -/
theorem Dict.lookup_cons_of_none (h : Dict.lookup older p b = none) :
    Dict.lookup (e :: older) p b = if e = ⟨p, b⟩ then some (BitVec.ofNat 16 (Dict.next older)) else none := by
  obtain ⟨pre, suf⟩ := e
  simp only [Dict.lookup, h, DictEntry.mk.injEq]

/-- Lookup misses only when no code has the entry. -/
theorem Dict.entry_ne_of_lookup_eq_none (h : Dict.lookup d p b = none) (c : Nat) : Dict.entry d c ≠ some ⟨p, b⟩ := by
  induction d with
  | nil => exact (Option.some_ne_none _).symm
  | cons e older ih =>
    cases hold : Dict.lookup older p b with
    | some c₀ => rw [Dict.lookup_cons_of_some hold] at h; cases h
    | none =>
      have hne : e ≠ ⟨p, b⟩ := fun heq => by simp [Dict.lookup_cons_of_none hold, heq] at h
      by_cases hc : c = Dict.next older
      · rw [hc, Dict.entry_cons_next]
        exact fun heq => hne (Option.some.inj heq)
      · rw [Dict.entry_cons_of_ne hc]
        exact ih hold

/-- A code Lookup finds has the entry, and no code below it has: an older match is found first, and the newest entry is found only where the older ones have no match. Its code fits 16 bits because NEXT is at most 65536 (10_state.md R41). -/
theorem Dict.isLeast_of_lookup_eq_some (hcap : Dict.next d ≤ 65536) {c : LzwCode} (h : Dict.lookup d p b = some c) :
    IsLeast {c' | Dict.entry d c' = some ⟨p, b⟩} c.toNat := by
  induction d with
  | nil => cases h
  | cons e older ih =>
    rw [Dict.next_cons] at hcap
    cases hold : Dict.lookup older p b with
    | some c₀ =>
      obtain rfl : c₀ = c := Option.some.inj ((Dict.lookup_cons_of_some hold).symm.trans h)
      obtain ⟨hentry, hleast⟩ := ih (by omega) hold
      have hlt : c₀.toNat < Dict.next older := (Dict.entry_range hentry).2
      refine ⟨(Dict.entry_cons_of_ne hlt.ne).trans hentry, fun c' hc' => ?_⟩
      by_cases hnew : c' = Dict.next older
      · exact hnew ▸ hlt.le
      · exact hleast ((Dict.entry_cons_of_ne hnew).symm.trans hc')
    | none =>
      rw [Dict.lookup_cons_of_none hold] at h
      obtain ⟨rfl, hc⟩ := Option.ite_none_right_eq_some.mp h
      have hcode : c.toNat = Dict.next older := by
        rw [← Option.some.inj hc, BitVec.toNat_ofNat]
        omega
      rw [hcode]
      refine ⟨Dict.entry_cons_next _ older, fun c' hc' => ?_⟩
      by_contra hlt
      have hne : c' ≠ Dict.next older := by omega
      exact Dict.entry_ne_of_lookup_eq_none hold c' ((Dict.entry_cons_of_ne hne).symm.trans hc')

end

/-- Settles O42, from what a hit and a miss of Lookup say of the entries. -/
theorem lookupFindsTheLeastCode : Obligations.LookupFindsTheLeastCode := by
  refine fun d p b hcap => ⟨fun c hhit => ?_, Dict.entry_ne_of_lookup_eq_none⟩
  obtain ⟨hentry, hleast⟩ := Dict.isLeast_of_lookup_eq_some hcap hhit
  exact ⟨hentry, fun _ hc' => hleast hc'⟩

/-- Settles O44: the new entry is the head of the dictionary, whose code is the old NEXT. -/
theorem insertAssignsTheNextCode : Obligations.InsertAssignsTheNextCode := by
  intro s p b _ hp hwf
  obtain ⟨first, rest, hseq⟩ := Dict.seq_some_of_lt_next hwf hp
  exact ⟨s.insert_next p b, Dict.entry_cons_next ⟨p, b⟩ s.dict, fun _ hc => Dict.entry_cons_of_ne hc,
    ⟨_, hseq, Dict.seq_cons_next hseq⟩, Dict.wf_insert hwf hp b⟩

end Sys2Proof.Machine
end

section
/-! SUPPORT. ENC, DEC and DLOOK in IDLE (43_lzw.md R180 to R182): the sessions' start, and the readout of one code. -/

namespace Sys2Proof.Machine

/-- Settles O40, from the states ENC and DEC leave in IDLE. -/
theorem lzwSessionsStartFresh : Obligations.LzwSessionsStartFresh :=
  ⟨legalInIdleOnly_of_idleCommand rfl rfl, legalInIdleOnly_of_idleCommand rfl rfl, fun _ hst =>
    ⟨⟨_, idleOnly_of_idle hst _, rfl, rfl⟩, ⟨_, idleOnly_of_idle hst _, rfl, rfl⟩⟩⟩

theorem encode_dlook (c : LzwCode) : encode (.dlook c) = 0x2400#16 ++ c :=
  congrArg (fun op : BitVec 16 => op ++ c) (show 0x24#8 ++ 0#8 = 0x2400#16 from rfl)

/-! ### The result words of a code -/

section
variable {d : List DictEntry} {c : LzwCode}

theorem lookWord0_of_entry {e : DictEntry} (h : Dict.entry d c.toNat = some e) :
    lookWord0 d c = BitVec.ofNat 32 (2 ^ 31 + e.pre.toNat) := by
  have hvalue : (1#1 ++ 0#1 ++ 0#14 ++ e.pre : Word).toNat = 2 ^ 31 + e.pre.toNat := by
    rw [BitVec.toNat_append, ← Nat.shiftLeft_add_eq_or_of_lt e.pre.isLt]
    rfl
  rw [lookWord0, h, ← hvalue, BitVec.ofNat_toNat, BitVec.setWidth_eq]

theorem lookWord0_of_base (h : Dict.entry d c.toNat = none) : lookWord0 d c = 0xC0000000#32 := by
  rw [lookWord0, h]
  rfl

theorem lookSuffix_of_entry {e : DictEntry} (h : Dict.entry d c.toNat = some e) : lookSuffix d c = e.suf := by
  simp only [lookSuffix, h]

theorem lookSuffix_of_base (h : Dict.entry d c.toNat = none) : lookSuffix d c = BitVec.ofNat 8 c.toNat := by
  simp only [lookSuffix, h]
  rfl

theorem lookWord1_eq (first suffix : Byte) :
    lookWord1 first suffix = BitVec.ofNat 32 (first.toNat * 256 + suffix.toNat) := by
  have hvalue : (lookWord1 first suffix).toNat = first.toNat * 256 + suffix.toNat := by
    rw [lookWord1, BitVec.toNat_append, BitVec.toNat_append, ← Nat.shiftLeft_add_eq_or_of_lt suffix.isLt]
    simp [Nat.shiftLeft_eq]
  rw [← hvalue, BitVec.ofNat_toNat, BitVec.setWidth_eq]

end

/-! ### DLOOK in IDLE -/

section
variable {s : State} {c : LzwCode}

theorem exec_dlook_of_unassigned (h : s.st = .idle) (hc : s.next ≤ c.toNat) :
    exec (.dlook c) s = .next (s.setRes 0#32 0#32 0#32 0#32).setDone := by
  rw [exec, execDlook, idleOnly_of_idle h, if_pos hc]

/-- A code that has a sequence is below NEXT. -/
theorem exec_dlook_of_seq (h : s.st = .idle) {first : Byte} {rest : List Byte}
    (hseq : Dict.seq s.dict c.toNat = some (first :: rest)) :
    exec (.dlook c) s =
      .next (s.setRes (lookWord0 s.dict c) (lookWord1 first (lookSuffix s.dict c))
        (BitVec.ofNat 32 (first :: rest).length) 0#32).setDone := by
  have hlt : ¬ s.next ≤ c.toNat := fun hle => by simp [Dict.seq_none_of_next_le hle] at hseq
  simp only [exec, execDlook, idleOnly_of_idle h, if_neg hlt, hseq]

theorem exec_dlook_of_base (h : s.st = .idle) (hc : c.toNat < 256) :
    exec (.dlook c) s =
      .next (s.setRes 0xC0000000#32 (BitVec.ofNat 32 (c.toNat * 256 + c.toNat)) 1#32 0#32).setDone := by
  have hentry : Dict.entry s.dict c.toNat = none := Dict.entry_of_base hc
  rw [exec_dlook_of_seq h (Dict.seq_of_base hc), lookWord0_of_base hentry, lookSuffix_of_base hentry, lookWord1_eq,
    BitVec.toNat_ofNat, Nat.mod_eq_of_lt hc]
  rfl

theorem exec_dlook_of_entry (h : s.st = .idle) {e : DictEntry} {first : Byte} {rest : List Byte}
    (hentry : Dict.entry s.dict c.toNat = some e) (hseq : Dict.seq s.dict c.toNat = some (first :: rest)) :
    exec (.dlook c) s =
      .next (s.setRes (BitVec.ofNat 32 (2 ^ 31 + e.pre.toNat)) (BitVec.ofNat 32 (first.toNat * 256 + e.suf.toNat))
        (BitVec.ofNat 32 (first :: rest).length) 0#32).setDone := by
  rw [exec_dlook_of_seq h hseq, lookWord0_of_entry hentry, lookSuffix_of_entry hentry, lookWord1_eq]

end

/-- Settles O45, by the three ranges of the code: at or above NEXT, base, assigned. -/
theorem dlookReadsOneEntry : Obligations.DlookReadsOneEntry := by
  refine ⟨fun c => legalInIdleOnly_of_idleCommand rfl (encode_dlook c), fun s c hst hwf =>
    ⟨exec_dlook_of_unassigned hst, exec_dlook_of_base hst, fun hbase hnext => ?_⟩⟩
  obtain ⟨e, hentry⟩ := Dict.exists_entry hbase hnext
  obtain ⟨first, rest, hseq⟩ := Dict.seq_some_of_lt_next hwf hnext
  exact ⟨e, first, rest, hentry, hseq, exec_dlook_of_entry hst hentry hseq⟩

end Sys2Proof.Machine
end

section
/-! SUPPORT. The bytes of an encode session (43_lzw.md R190) and the END beat of every session (43_lzw.md R196, R205, 44_serializer.md R225, R228). -/

namespace Sys2Proof.Machine

/-! ### The updates the beats are made of -/

theorem setWidth_extractLsb'_low (c : LzwCode) : (c.extractLsb' 0 8).setWidth 16 = c &&& 0xFF#16 := by
  apply BitVec.eq_of_toNat_eq
  have hmask : c.toNat &&& (0xFF#16).toNat = c.toNat % 256 := Nat.and_two_pow_sub_one_eq_mod c.toNat 8
  simp only [BitVec.toNat_setWidth, BitVec.extractLsb'_toNat, BitVec.toNat_and, Nat.shiftRight_zero, hmask]
  omega

theorem setWidth_extractLsb'_high (c : LzwCode) : (c.extractLsb' 8 8).setWidth 16 = c >>> 8 := by
  apply BitVec.eq_of_toNat_eq
  simp only [BitVec.toNat_setWidth, BitVec.extractLsb'_toNat, BitVec.toNat_ushiftRight, Nat.shiftRight_eq_div_pow]
  omega

/-- SerWrite counts two beats (44_serializer.md R222). -/
theorem State.serWrite_eq (s : State) (c : LzwCode) :
    s.serWrite c =
      { s with outcnt := s.outcnt + 2#32, emit := s.emit ++ [.data (c &&& 0xFF#16), .data (c >>> 8)] } := by
  simp [State.serWrite, State.emitBeat, setWidth_extractLsb'_low, setWidth_extractLsb'_high, BitVec.add_assoc]

theorem State.finish_eq (s : State) :
    s.finish = { s with emit := s.emit ++ [.fin], st := .idle, done := true } := rfl

section
variable {s : State}

/-- An encoder with a match still has one after the restart. -/
theorem State.restartMatch_of_hascur (h : s.hascur = true) (b : Byte) :
    s.restartMatch b = { s with cur := b.setWidth 16 } := by
  simp only [State.restartMatch, ← h]

theorem raise_of_session (h : s.st.inSession = true) (code : ErrCode) (info : Word) :
    raise code info s = .next { s with emit := s.emit ++ [.aborted], st := .error, errcode := code, errinfo := info } :=
  congrArg _ (State.errorEntry_of_session h code info)

end

/-! ### A byte that extends a match -/

section
variable {s : State} {b : Byte}

theorem encExtend_of_hit {c : LzwCode} (hhit : Dict.lookup s.dict s.cur b = some c) :
    encExtend b s = .next { s with cur := c } := by
  simp only [encExtend, hhit]

theorem encExtend_of_miss (hcur : s.hascur = true) (hmiss : Dict.lookup s.dict s.cur b = none)
    (hroom : s.next < 65536) :
    encExtend b s = .next
      { s with
        outcnt := s.outcnt + 2#32, emit := s.emit ++ [.data (s.cur &&& 0xFF#16), .data (s.cur >>> 8)]
        dict := ⟨s.cur, b⟩ :: s.dict, cur := b.setWidth 16 } := by
  have hfull : ¬ s.full = true := by rw [State.full_iff]; omega
  simp only [encExtend, hmiss, if_neg hfull, State.serWrite_eq]
  refine congrArg _ (State.restartMatch_of_hascur ?_ b)
  exact hcur

theorem encExtend_of_strict (hsession : s.st.inSession = true) (hmiss : Dict.lookup s.dict s.cur b = none)
    (hfull : 65536 ≤ s.next) (hstrict : s.strictL = true) :
    encExtend b s = .next
      { s with emit := s.emit ++ [.aborted], st := .error, errcode := .dictOvf, errinfo := b.setWidth 32 } := by
  simp only [encExtend, hmiss, s.full_iff.mpr hfull, hstrict, if_true, raise_of_session hsession]

theorem encExtend_of_frozen (hcur : s.hascur = true) (hmiss : Dict.lookup s.dict s.cur b = none)
    (hfull : 65536 ≤ s.next) (hfrozen : s.strictL = false) :
    encExtend b s = .next
      { s with
        outcnt := s.outcnt + 2#32, emit := s.emit ++ [.data (s.cur &&& 0xFF#16), .data (s.cur >>> 8)]
        ovf := true, cur := b.setWidth 16 } := by
  have hstrict : ¬ s.strictL = true := by rw [hfrozen]; exact Bool.false_ne_true
  simp only [encExtend, hmiss, if_pos (s.full_iff.mpr hfull), if_neg hstrict, State.serWrite_eq]
  refine congrArg _ (State.restartMatch_of_hascur ?_ b)
  exact hcur

end

/-! ### The beats of the sessions -/

section
variable {s : State}

theorem consume_enc_data_of_no_match (h : s.st = .enc) (hcur : s.hascur = false) (v : Payload) :
    consume (.data v) s = .next (s.countIn.restartMatch (payloadByte v)) := by
  simp only [consume, h, encData, hcur, Bool.false_eq_true, if_false]

theorem consume_enc_data_of_match (h : s.st = .enc) (hcur : s.hascur = true) (v : Payload) :
    consume (.data v) s = encExtend (payloadByte v) s.countIn := by
  simp only [consume, h, encData, hcur, if_true]

theorem consume_enc_fin_of_match (h : s.st = .enc) (hcur : s.hascur = true) :
    consume .fin s = .next ({ s.serWrite s.cur with hascur := false } : State).finish := by
  simp only [consume, h, encEnd, hcur, if_true]

theorem consume_enc_fin_of_no_match (h : s.st = .enc) (hcur : s.hascur = false) : consume .fin s = .next s.finish := by
  have hend : consume .fin s = encEnd s := by simp only [consume, h]
  have hsame : ({ s with hascur := false } : State) = s := by rw [← hcur]
  simp only [hend, encEnd, hcur, Bool.false_eq_true, if_false, hsame]

/-- A half-received code at the END beat (44_serializer.md R226). -/
theorem consume_fin_of_odd_byte (h : s.st = .dec ∨ s.st = .unpack) (hlo : s.havelo = true) :
    consume .fin s = raise .trunc (s.lo.setWidth 32) s := by
  rcases h with h | h
  · simp only [consume, h, decEnd, hlo, truncated, if_true]
  · simp only [consume, h, unpackEnd, hlo, truncated, if_true]

theorem consume_dec_fin (h : s.st = .dec) (hlo : s.havelo = false) :
    consume .fin s = .next ({ s with hasprev := false } : State).finish := by
  simp only [consume, h, decEnd, hlo, Bool.false_eq_true, if_false]

theorem consume_unpack_fin (h : s.st = .unpack) (hlo : s.havelo = false) : consume .fin s = .next s.finish := by
  simp only [consume, h, unpackEnd, hlo, Bool.false_eq_true, if_false]

theorem consume_pack_fin (h : s.st = .pack) : consume .fin s = .next s.finish := by
  simp only [consume, h, packEnd]

end

/-- Settles O46, by the five cases of R190. -/
theorem encoderTakesOneByte : Obligations.EncoderTakesOneByte := by
  intro s v hst
  refine ⟨fun hcur => consume_enc_data_of_no_match hst hcur v, fun c hcur hhit => ?hit, fun hcur hmiss hroom => ?miss,
    fun hcur hmiss hfull hstrict => ?strict, fun hcur hmiss hfull hfrozen => ?frozen⟩
  all_goals rw [consume_enc_data_of_match hst hcur v]
  case hit => exact encExtend_of_hit hhit
  case miss => exact encExtend_of_miss hcur hmiss hroom
  case strict => exact encExtend_of_strict (congrArg SeqState.inSession hst) hmiss hfull hstrict
  case frozen => exact encExtend_of_frozen hcur hmiss hfull hfrozen

/-- Settles O47, by the sessions and whether one holds a match or an odd byte. -/
theorem sessionsEndByTheirEndBeat : Obligations.SessionsEndByTheirEndBeat := by
  refine fun s => ⟨fun hst hcur => ?enc, consume_enc_fin_of_no_match, fun hst hlo => ?odd, consume_dec_fin,
    consume_unpack_fin, consume_pack_fin⟩
  case enc =>
    rw [consume_enc_fin_of_match hst hcur, State.serWrite_eq]
    simp [State.finish_eq]
  case odd =>
    have hsession : s.st.inSession = true := by rcases hst with h | h <;> rw [h] <;> rfl
    rw [consume_fin_of_odd_byte hst hlo, raise_of_session hsession]

end Sys2Proof.Machine
end

section
/-! SUPPORT. The serializer (44_serializer.md): the start of PACK and UNPACK, the code a PACK beat writes, and the pair of bytes that makes a code in DEC and UNPACK. -/

namespace Sys2Proof.Machine

/-! ### The start of a session -/

theorem exec_pack_of_idle {s : State} (h : s.st = .idle) : exec .pack s = .next (s.clearCounts.enter .pack) :=
  idleOnly_of_idle h _

theorem exec_unpack_of_idle {s : State} (h : s.st = .idle) :
    exec .unpack s = .next (({ s with lo := 0#8, havelo := false } : State).clearCounts.enter .unpack) :=
  idleOnly_of_idle h _

/-! ### The code of two bytes -/

/-- The byte-input modes ignore `v[15:8]` (20_memory.md R77). -/
theorem payloadByte_toNat (v : Payload) : (payloadByte v).toNat = v.toNat % 256 := by
  rw [payloadByte, BitVec.extractLsb'_toNat, Nat.shiftRight_zero]

/-- The first byte is the low one (44_serializer.md R223). -/
theorem pairCode_toNat (second first : Byte) :
    (pairCode second first).toNat = first.toNat + 256 * second.toNat := by
  have hfirst : first.toNat < 2 ^ 8 := first.isLt
  rw [pairCode, BitVec.toNat_append, ← Nat.shiftLeft_add_eq_or_of_lt hfirst, Nat.shiftLeft_eq]
  omega

theorem pairCode_payloadByte (v : Payload) (first : Byte) :
    pairCode (payloadByte v) first = BitVec.ofNat 16 (first.toNat + 256 * (v.toNat % 256)) := by
  rw [← payloadByte_toNat, ← pairCode_toNat, BitVec.ofNat_toNat, BitVec.setWidth_eq]

/-! ### The DATA beats of the sessions -/

section
variable {s : State}

theorem consume_pack_data (h : s.st = .pack) (v : Payload) : consume (.data v) s = .next (s.countIn.serWrite v) := by
  simp only [consume, h, packData]

/-- DEC and UNPACK keep the first byte of a pair alike (44_serializer.md R227, 43_lzw.md R200). -/
theorem consume_data_of_first_byte (h : s.st = .dec ∨ s.st = .unpack) (hlo : s.havelo = false) (v : Payload) :
    consume (.data v) s = .next { s.countIn with lo := payloadByte v, havelo := true } := by
  rcases h with h | h
  · simp only [consume, h, decData, hlo, Bool.false_eq_true, if_false]
  · simp only [consume, h, unpackData, hlo, Bool.false_eq_true, if_false]

theorem consume_unpack_data_of_second_byte (h : s.st = .unpack) (hlo : s.havelo = true) (v : Payload) :
    consume (.data v) s =
      .next (({ s.countIn with havelo := false } : State).emitBeat (.data (pairCode (payloadByte v) s.lo))) := by
  simp only [consume, h, unpackData, hlo, if_true]

theorem consume_dec_data_of_second_byte (h : s.st = .dec) (hlo : s.havelo = true) (v : Payload) :
    consume (.data v) s = decodeCode (pairCode (payloadByte v) s.lo) { s.countIn with havelo := false } := by
  simp only [consume, h, decData, hlo, if_true]

end

/-- Settles O48, by the first byte of a pair and by the second, which the code's value completes. -/
theorem streamBytesPairUp : Obligations.StreamBytesPairUp := by
  refine fun s v => ⟨fun hst hlo => consume_data_of_first_byte hst hlo v, fun hst hlo => ?unpack, fun hst hlo => ?dec⟩
  case unpack =>
    rw [consume_unpack_data_of_second_byte hst hlo, pairCode_payloadByte]
    rfl
  case dec =>
    rw [consume_dec_data_of_second_byte hst hlo, pairCode_payloadByte]
    rfl

/-- Settles O53, from the states PACK and UNPACK leave in IDLE and from the two beats of SerWrite. -/
theorem serializerStartsAndPacks : Obligations.SerializerStartsAndPacks := by
  refine ⟨legalInIdleOnly_of_idleCommand rfl rfl, legalInIdleOnly_of_idleCommand rfl rfl, fun s hst =>
    ⟨exec_pack_of_idle hst, exec_unpack_of_idle hst⟩, fun s v hst => ?_⟩
  rw [consume_pack_data hst, State.serWrite_eq]
  rfl

end Sys2Proof.Machine
end

section
/-! SUPPORT. The control commands NOP, CLRERR and ABORT (45_sequencer.md R250, R252, R253): the rejection of an immediate in format N, and what each command answers by STATE. -/

namespace Sys2Proof.Machine

/-- A format N command takes no immediate (30_encoding.md R104). -/
theorem decode_of_immediateInFormatN {w : Word} {i : Instr} (hop : commandOf (opField w) (immField w) = some (.n, i))
    (hrsv : rsvField w = 0#8) (himm : immField w ≠ 0#16) : decode w = .error .immediateInFormatN := by
  simp only [decode, hop, hrsv, ne_eq, not_true_eq_false, if_false, himm, not_false_eq_true, if_true]

theorem unlessError_of_error {s : State} (h : s.st = .error) (body : Answer) : unlessError s body = .next s :=
  if_pos h

theorem State.abortSession_eq (s : State) :
    s.abortSession =
      { s with
        inq := [], emit := s.emit ++ [.aborted]
        hascur := false, hasprev := false, havelo := false, st := .idle } := rfl

theorem exec_nop (s : State) : exec .nop s = .next s.setDone := rfl

section
variable {s : State}

theorem exec_clrerr_of_error (h : s.st = .error) : exec .clrerr s = .next s.errorReturn.setDone := if_pos h

theorem exec_clrerr_of_ne_error (h : s.st ≠ .error) : exec .clrerr s = .next s.setDone := if_neg h

theorem exec_abort_of_session (h : s.st.inSession = true) : exec .abort s = .next s.abortSession.setDone := by
  have herror : s.st ≠ .error := ((SeqState.inSession_iff _).mp h).2
  rw [exec, execAbort, unlessError_of_ne herror, if_pos h]

theorem exec_abort_of_idle (h : s.st = .idle) : exec .abort s = .next s.setDone := by
  have herror : s.st ≠ .error := by simp [h]
  have hsession : ¬ s.st.inSession = true := by simp [SeqState.inSession_iff, h]
  rw [exec, execAbort, unlessError_of_ne herror, if_neg hsession]

theorem exec_abort_of_error (h : s.st = .error) : exec .abort s = .next s := unlessError_of_error h _

end

/-- Settles O23: 0x00000001 has the opcode of NOP and an immediate that is not 0. -/
theorem nopSetsDone : Obligations.NopSetsDone :=
  ⟨rfl, decode_of_immediateInFormatN rfl rfl (by decide), exec_nop⟩

/-- Settles O24, by whether the core is in ERROR. -/
theorem clrerrReturnsToIdle : Obligations.ClrerrReturnsToIdle :=
  ⟨rfl, fun _ => ⟨exec_clrerr_of_error, exec_clrerr_of_ne_error⟩⟩

/-- Settles O25, by the three kinds of STATE in R241. -/
theorem abortEndsTheSession : Obligations.AbortEndsTheSession := by
  refine ⟨rfl, fun s => ⟨fun hsession => ?_, exec_abort_of_idle, exec_abort_of_error⟩⟩
  rw [exec_abort_of_session hsession, State.abortSession_eq, State.setDone]

end Sys2Proof.Machine
end

section
/-! SUPPORT. The command overrun and the I/O errors (60_exceptions.md R266, R268, R270, 20_memory.md R78): what EXEC does in ERROR, what error entry records, and the ERR beat, the RSV beat and SINK_ERR of a session. -/

namespace Sys2Proof.Machine

/-! ### EXEC in ERROR -/

/-- In ERROR every command but the three that are legal there is discarded (45_sequencer.md R241). -/
theorem exec_of_error {i : Instr} {s : State} (hst : s.st = .error) (hnop : i ≠ .nop) (hsrst : i ≠ .srst)
    (hclrerr : i ≠ .clrerr) : exec i s = .next s := by
  have hdiscarded : idleCommand i = true ∨ i = .abort := by
    cases i
    case nop => exact absurd rfl hnop
    case srst => exact absurd rfl hsrst
    case clrerr => exact absurd rfl hclrerr
    case abort => exact Or.inr rfl
    all_goals exact Or.inl rfl
  obtain hidle | rfl := hdiscarded
  · obtain ⟨body, hbody⟩ := exec_eq_idleOnly hidle s
    rw [hbody, idleOnly_of_error hst]
  · exact exec_abort_of_error hst

theorem execStep_of_decode {s : State} {i : Instr} (execute : Instr → State → Answer) (h : decode s.pcmd = .ok i) :
    execStep execute s = execute i s.clearCmdp := by
  simp only [execStep, h]

/-- In ERROR the pending word is discarded, well formed or not, unless it is a command that is legal there. -/
theorem execStep_of_error {s : State} (hst : s.st = .error) (hnop : decode s.pcmd ≠ .ok .nop)
    (hsrst : decode s.pcmd ≠ .ok .srst) (hclrerr : decode s.pcmd ≠ .ok .clrerr) :
    execStep exec s = .next s.clearCmdp := by
  have hcleared : s.clearCmdp.st = .error := hst
  cases hword : wordWellFormed s.pcmd
  case false => rw [execStep_of_malformed exec hword, State.errorEntry_of_error hcleared]
  case true =>
    obtain ⟨i, hi⟩ := (wordWellFormed_iff_exists_decode s.pcmd).mp hword
    rw [hi] at hnop hsrst hclrerr
    rw [execStep_of_decode exec hi]
    exact exec_of_error hcleared (fun h => hnop (congrArg _ h)) (fun h => hsrst (congrArg _ h))
      (fun h => hclrerr (congrArg _ h))

/-! ### The command overrun -/

/-- Outside ERROR error entry records the error (60_exceptions.md R262). -/
theorem State.errorEntry_recorded {s : State} (h : s.st ≠ .error) (code : ErrCode) (info : Word) :
    (s.errorEntry code info).errcode = code ∧ (s.errorEntry code info).errinfo = info := by
  rw [State.errorEntry, if_neg h]
  exact ⟨rfl, rfl⟩

theorem State.writeReg_cmd_of_pending {s : State} (h : s.cmdp = true) (v : Word) :
    s.writeReg 0x0C#6 v = s.errorEntry .cmdOvr v :=
  (State.writeReg_of_cmd rfl).trans (State.writeCmd_of_pending h v)

/-- Settles O16: the write is error entry, which keeps the pending command, and EXEC then runs in ERROR. -/
theorem commandOverrunKeepsThePendingCommand : Obligations.CommandOverrunKeepsThePendingCommand := by
  intro s v hpending
  rw [State.writeReg_cmd_of_pending hpending]
  have herror := s.errorEntry_st .cmdOvr v
  have hpcmd := s.errorEntry_pcmd .cmdOvr v
  refine ⟨fun hnop hsrst hclrerr => ?_, (s.errorEntry_cmdp .cmdOvr v).trans hpending, hpcmd,
    fun hst => State.errorEntry_of_error hst .cmdOvr v, fun hst => ⟨herror, State.errorEntry_recorded hst .cmdOvr v⟩⟩
  rw [← hpcmd] at hnop hsrst hclrerr
  exact execStep_of_error herror hnop hsrst hclrerr

/-! ### The I/O errors -/

theorem beatStep_of_inq {s : State} {b : InBeat} {bs : List InBeat} (h : s.inq = b :: bs) :
    beatStep s = consume b { s with inq := bs } := by
  simp only [beatStep, h]

section
variable {s : State} (hsession : s.st.inSession = true)
include hsession

/-- ERR and RSV mean the same in every session (45_sequencer.md R246). -/
theorem consume_of_session : consume .err s = sourceError s ∧ consume .rsv s = reservedBeat s := by
  cases hst : s.st
  case idle | error => simp [SeqState.inSession_iff, hst] at hsession
  all_goals simp only [consume, hst, and_self]

theorem consume_err_of_session :
    consume .err s = .next { s with emit := s.emit ++ [.aborted], st := .error, errcode := .io, errinfo := 1#32 } :=
  (consume_of_session hsession).1.trans (raise_of_session hsession .io 1#32)

theorem consume_rsv_of_session :
    consume .rsv s = .next { s with emit := s.emit ++ [.aborted], st := .error, errcode := .io, errinfo := 3#32 } :=
  (consume_of_session hsession).2.trans (raise_of_session hsession .io 3#32)

theorem State.sinkError_of_session :
    s.sinkError = { s with emit := s.emit ++ [.aborted], st := .error, errcode := .io, errinfo := 2#32 } :=
  (if_pos hsession).trans (State.errorEntry_of_session hsession .io 2#32)

end

theorem State.sinkError_of_not_session {s : State} (h : s.st.inSession = false) : s.sinkError = s :=
  if_neg (Bool.eq_false_iff.mp h)

/-- The host's script and turns play no part in SINK_ERR. -/
theorem State.sinkError_withEnv (s : State) (e : Env) :
    ({ s with env := e } : State).sinkError = { s.sinkError with env := e } := by
  unfold State.sinkError
  split_ifs
  · exact s.errorEntry_withEnv e .io 2#32
  · rfl

theorem step_of_host_sinkError {s : State} {rest : List HostAct} {ts : List Turn} (hturns : s.env.turns = .host :: ts)
    (hscript : s.env.script = .sinkError :: rest) :
    step s = .next { s.sinkError with env := { s.env with script := rest, turns := ts } } := by
  rw [step_of_host_turn hturns hscript, performHost, State.sinkError_withEnv, State.withScript]

/-- Settles O17, from the beats of a session and from SINK_ERR in a session and outside one. -/
theorem ioErrorsOnlyInSessions : Obligations.IoErrorsOnlyInSessions := by
  refine ⟨fun s bs hsession => ⟨fun hinq => ?err, fun hinq => ?rsv⟩, fun s rest ts hturns hscript =>
    ⟨fun hsession => ?sinkInSession, fun houtside => ?sinkOutside⟩⟩
  case err => exact (beatStep_of_inq hinq).trans (consume_err_of_session hsession)
  case rsv => exact (beatStep_of_inq hinq).trans (consume_rsv_of_session hsession)
  case sinkInSession => rw [step_of_host_sinkError hturns hscript, State.sinkError_of_session hsession]
  case sinkOutside => rw [step_of_host_sinkError hturns hscript, State.sinkError_of_not_session houtside]

end Sys2Proof.Machine
end

section
/-! SUPPORT. The decoder and the encoder are inverse (30_encoding.md R100 to R104): what a word's fields say of the command it decodes to. -/

namespace Sys2Proof

/-- A word is its three fields (R100). -/
theorem fields_append (w : Word) : opField w ++ rsvField w ++ immField w = w := by
  simp only [opField, rsvField, immField]
  rw [BitVec.extractLsb'_append_extractLsb'_eq_extractLsb' (by rfl),
    BitVec.extractLsb'_append_extractLsb'_eq_extractLsb' (by rfl)]
  exact BitVec.extractLsb'_eq_self

/-- What `decode` accepts, and as which command. -/
theorem decode_eq_ok_iff (w : Word) (i : Instr) :
    decode w = .ok i ↔
      ∃ fmt, commandOf (opField w) (immField w) = some (fmt, i) ∧ rsvField w = 0#8 ∧
        (fmt = .s ∨ immField w = 0#16) := by
  unfold decode
  cases commandOf (opField w) (immField w) with
  | none => simp
  | some command =>
    obtain ⟨fmt, j⟩ := command
    by_cases hrsv : rsvField w = 0#8
    · cases fmt
      case s => simp [hrsv]
      case n => by_cases himm : immField w = 0#16 <;> simp [hrsv, himm]
    · simp [hrsv]

/-- The opcode map gives a command for its own opcode and immediate (R103). -/
theorem commandOf_opcodeOf (i : Instr) :
    ∃ fmt, commandOf (opcodeOf i) (immOf i) = some (fmt, i) ∧ (fmt = .s ∨ immOf i = 0#16) := by
  cases i
  case hset | hget | hcode | dlook => exact ⟨.s, rfl, Or.inl rfl⟩
  all_goals exact ⟨.n, rfl, Or.inr rfl⟩

/-- The opcode map gives no command for another opcode, and only format S keeps the immediate (R103). -/
theorem opcodeOf_of_commandOf {op : BitVec 8} {imm : BitVec 16} {fmt : Format} {i : Instr}
    (h : commandOf op imm = some (fmt, i)) : opcodeOf i = op ∧ immOf i = if fmt = .s then imm else 0#16 := by
  unfold commandOf at h
  split at h
  case h_17 => cases h
  all_goals
    obtain ⟨rfl, rfl⟩ := Prod.mk.inj (Option.some.inj h)
    exact ⟨BitVec.eq_of_toNat_eq (Eq.symm ‹_›), rfl⟩

/-- Settles O1: both sides say that the word has the command's opcode, reserved bits 0 and the command's immediate. -/
theorem decodeIsInverseOfEncode : Obligations.DecodeIsInverseOfEncode := by
  refine fun w i => ⟨fun hdecode => ?_, fun hencode => ?_⟩
  · obtain ⟨fmt, hcommand, hrsv, himm⟩ := (decode_eq_ok_iff w i).mp hdecode
    obtain ⟨hop, himmOf⟩ := opcodeOf_of_commandOf hcommand
    have hkept : immOf i = immField w := by
      rw [himmOf]
      split_ifs with hfmt
      · rfl
      · exact (himm.resolve_left hfmt).symm
    rw [encode, hop, hkept, ← hrsv, fields_append]
  · obtain ⟨hop, hrsv, himm⟩ := Laws.encode_fields (opcodeOf i) 0#8 (immOf i)
    rw [decode_eq_ok_iff, ← hencode, encode, hop, hrsv, himm]
    obtain ⟨fmt, hcommand, hfmt⟩ := commandOf_opcodeOf i
    exact ⟨fmt, hcommand, rfl, hfmt⟩

/-- Settles O2: each word is the encoding of its command. -/
theorem opcodeMapWordsDecode : Obligations.OpcodeMapWordsDecode := by
  simp only [Obligations.OpcodeMapWordsDecode, decodeIsInverseOfEncode _ _]
  decide

end Sys2Proof
end

section
/-! SUPPORT. The core's three steps (45_sequencer.md R242 to R247, R254, R255): when each is enabled, what the step of a listed turn is, and that a beat does not look at the rest of INQ. -/

namespace Sys2Proof.Machine

/-! ### When a step is enabled -/

section
variable {s : State}

theorem decode_eq_ok_srst_iff (w : Word) : decode w = .ok .srst ↔ w = srstWord := by
  rw [decodeIsInverseOfEncode]
  exact eq_comm

theorem State.execEnabled_iff :
    s.execEnabled = true ↔ s.cmdp = true ∧ (s.emit = [] ∨ decode s.pcmd = .ok .srst) := by
  simp [State.execEnabled, decode_eq_ok_srst_iff]

theorem State.beatEnabled_iff :
    s.beatEnabled = true ↔ s.st.inSession = true ∧ s.cmdp = false ∧ s.emit = [] ∧ s.inq ≠ [] := by
  simp [State.beatEnabled, and_assoc]

theorem State.drainEnabled_iff :
    s.drainEnabled = true ↔ s.emit ≠ [] ∧ s.outq.length < s.params.outDepth := by
  simp [State.drainEnabled]

theorem State.quiescent_iff :
    s.quiescent = true ↔ s.cmdp = false ∧ s.emit = [] ∧ (s.st = .idle ∨ s.st = .error ∨ s.inq = []) := by
  cases hst : s.st <;> simp [State.quiescent, hst, SeqState.inSession, and_assoc]

/-- With room in OUTQ only a quiescent core has no step enabled. -/
theorem State.quiescent_of_no_step (hroom : s.outq.length < s.params.outDepth) (hexec : s.execEnabled = false)
    (hbeat : s.beatEnabled = false) (hdrain : s.drainEnabled = false) : s.quiescent = true := by
  have hemit : s.emit = [] := by simpa [State.drainEnabled, hroom] using hdrain
  have hcmdp : s.cmdp = false := by simpa [State.execEnabled, hemit] using hexec
  have hinput : s.st.inSession = false ∨ s.inq = [] := by
    simpa [State.beatEnabled, hemit, hcmdp, or_iff_not_imp_left] using hbeat
  simpa [State.quiescent, hcmdp, hemit] using hinput

end

/-- Settles O7: BEAT needs CMDP = 0 and EMIT empty, EXEC needs CMDP = 1, DRAIN needs EMIT not empty. -/
theorem coreStepsExcludeEachOther : Obligations.CoreStepsExcludeEachOther := by
  intro s
  rw [State.execEnabled_iff, State.beatEnabled_iff, State.drainEnabled_iff]
  refine ⟨?_, ?_, fun ⟨_, hsrst⟩ ⟨hemit, _⟩ => hsrst.resolve_left hemit⟩
  · rintro ⟨⟨hpending, -⟩, -, hfree, -⟩
    simp [hpending] at hfree
  · rintro ⟨⟨-, -, hempty, -⟩, hemit, -⟩
    exact hemit hempty

/-! ### The step of a turn -/

section
variable {s : State}

theorem step_of_turn {t : Turn} {ts : List Turn} (h : s.env.turns = t :: ts) :
    step s = takeTurn exec t { s with env := { s.env with turns := ts } } := by
  simp only [step, advance, State.popTurn, h]

theorem step_of_no_turn (h : s.env.turns = []) : step s = takeTurn exec s.defaultTurn s := by
  simp only [step, advance, State.popTurn, h]

theorem step_of_exec_turn {ts : List Turn} (h : s.env.turns = .exec :: ts) :
    step s = if s.execEnabled then execStep exec { s with env := { s.env with turns := ts } }
      else .next { s with env := { s.env with turns := ts } } := step_of_turn h

theorem step_of_beat_turn {ts : List Turn} (h : s.env.turns = .beat :: ts) :
    step s = if s.beatEnabled then beatStep { s with env := { s.env with turns := ts } }
      else .next { s with env := { s.env with turns := ts } } := step_of_turn h

theorem step_of_drain_turn {ts : List Turn} (h : s.env.turns = .drain :: ts) :
    step s = if s.drainEnabled then .next (drainStep { s with env := { s.env with turns := ts } })
      else .next { s with env := { s.env with turns := ts } } := step_of_turn h

theorem drainStep_of_emit {b : OutBeat} {bs : List OutBeat} (h : s.emit = b :: bs) :
    drainStep s = { s with emit := bs, outq := s.outq ++ [b] } := by
  simp only [drainStep, h]

theorem hostStep_of_no_action (h : s.env.script = []) : hostStep s = s := by
  simp only [hostStep, h]

end

/-- Settles O4, from when EXEC is enabled and from its place as the first of the default order. -/
theorem stepExecutesThePendingCommand : Obligations.StepExecutesThePendingCommand := by
  refine ⟨fun s i hpending hfree hdecode => ?_, fun s rest hturns => ⟨fun hpending hfree => ?_, fun hwait => ?_⟩⟩
  · have henabled : s.execEnabled = true :=
      State.execEnabled_iff.mpr ⟨hpending, hfree.imp_right fun hi => hdecode.trans (congrArg _ hi)⟩
    refine ⟨fun hturns => ?_, fun rest hturns => ?_⟩
    · rw [step_of_no_turn hturns, State.defaultTurn, if_pos henabled, takeTurn, if_pos henabled,
        execStep_of_decode exec hdecode, State.clearCmdp]
    · rw [step_of_exec_turn hturns, if_pos henabled]
      exact execStep_of_decode exec hdecode
  · rw [step_of_exec_turn hturns, if_pos (State.execEnabled_iff.mpr ⟨hpending, hfree⟩)]
  · rw [step_of_exec_turn hturns, if_neg]
    rw [State.execEnabled_iff]
    rintro ⟨hpending, hfree⟩
    rcases hwait with hnone | ⟨hemit, hword⟩
    · simp [hnone] at hpending
    · exact hfree.elim hemit hword

/-- Settles O5, from when BEAT is enabled. -/
theorem beatStepConsumesTheHeadOfInq : Obligations.BeatStepConsumesTheHeadOfInq := by
  refine fun s rest hturns => ⟨fun b bs hsession hfree hemit hinq => ?_, fun hwait => ?_⟩
  · have hne : s.inq ≠ [] := by simp [hinq]
    rw [step_of_beat_turn hturns, if_pos (State.beatEnabled_iff.mpr ⟨hsession, hfree, hemit, hne⟩)]
    exact beatStep_of_inq hinq
  · rw [step_of_beat_turn hturns, if_neg]
    rw [State.beatEnabled_iff]
    rintro ⟨hsession, hfree, hemit, hinq⟩
    rcases hwait with h | h | h | h
    · simp [hsession] at h
    · simp [hfree] at h
    · exact h hemit
    · exact hinq h

/-- Settles O6, from when each of the three steps is enabled. -/
theorem drainMovesOneBeat : Obligations.DrainMovesOneBeat := by
  refine ⟨fun s hemit => ⟨?beat, fun hexec => ?exec, ?drain⟩, fun s rest hturns => ⟨fun b bs hb hroom => ?moves,
    fun hwait => ?waits⟩⟩
  case beat => exact Bool.eq_false_iff.mpr fun hbeat => hemit (State.beatEnabled_iff.mp hbeat).2.2.1
  case exec => exact (State.execEnabled_iff.mp hexec).2.resolve_left hemit
  case drain => rw [State.drainEnabled_iff, and_iff_right hemit]
  case moves =>
    have hne : s.emit ≠ [] := by simp [hb]
    rw [step_of_drain_turn hturns, if_pos (State.drainEnabled_iff.mpr ⟨hne, hroom⟩)]
    exact congrArg _ (drainStep_of_emit hb)
  case waits =>
    rw [step_of_drain_turn hturns, if_neg]
    rw [State.drainEnabled_iff]
    rintro ⟨hemit, hroom⟩
    exact hwait.elim hemit (Nat.not_le.mpr hroom)

/-- Settles O9, from the conditions R254 lists and from those of the three steps. -/
theorem quiescentCoreKeepsItsState : Obligations.QuiescentCoreKeepsItsState := by
  refine ⟨fun s => ⟨State.quiescent_iff, ?ended, State.no_step_of_quiescent, State.quiescent_of_no_step⟩,
    fun s hturns hscript hexec hbeat hdrain => ?stays⟩
  case ended => simp [State.runEnded]
  case stays =>
    have hturn : s.defaultTurn = .host := by simp [State.defaultTurn, hexec, hbeat, hdrain]
    rw [step_of_no_turn hturns, hturn, takeTurn, hostStep_of_no_action hscript]

/-! ### A push beside a BEAT step (45_sequencer.md R255) -/

/-- The answer with another INQ in its next state. -/
def Answer.withInq (q : List InBeat) : Answer → Answer
  | .next t => .next { t with inq := q }
  | .fault r => .fault r
  | .refused r => .refused r

section
variable (s : State) (q : List InBeat)

theorem raise_withInq (code : ErrCode) (info : Word) :
    raise code info { s with inq := q } = Answer.withInq q (raise code info s) := by
  unfold raise State.errorEntry
  split_ifs <;> rfl

theorem State.emitBytes_withInq (bytes : List Byte) :
    ({ s with inq := q } : State).emitBytes bytes = { s.emitBytes bytes with inq := q } := by
  induction bytes generalizing s with
  | nil => rfl
  | cons x rest ih => exact ih (s.emitBeat (.data (x.setWidth 16)))

theorem State.full_withInq : ({ s with inq := q } : State).full = s.full := rfl

theorem encExtend_withInq (b : Byte) : encExtend b { s with inq := q } = Answer.withInq q (encExtend b s) := by
  cases hlookup : Dict.lookup s.dict s.cur b with
  | some c => simp only [encExtend, hlookup, Answer.withInq]
  | none =>
    simp only [encExtend, hlookup, State.full_withInq, raise_withInq]
    split_ifs <;> rfl

theorem encData_withInq (v : Payload) : encData v { s with inq := q } = Answer.withInq q (encData v s) := by
  unfold encData
  split_ifs
  · exact encExtend_withInq s.countIn q (payloadByte v)
  · rfl

theorem encEnd_withInq : encEnd { s with inq := q } = Answer.withInq q (encEnd s) := by
  unfold encEnd
  split_ifs <;> rfl

theorem State.growDecoder_withInq (first : Byte) :
    ({ s with inq := q } : State).growDecoder first = { s.growDecoder first with inq := q } := by
  rw [State.growDecoder, State.growDecoder, State.full_withInq]
  split_ifs <;> rfl

theorem decodeLater_withInq (c : LzwCode) :
    decodeLater c { s with inq := q } = Answer.withInq q (decodeLater c s) := by
  have hexpansion : expansion { s with inq := q } c = expansion s c := rfl
  have hnext : ({ s with inq := q } : State).next = s.next := rfl
  simp only [decodeLater, State.full_withInq, hnext, raise_withInq, hexpansion]
  split_ifs
  · rfl
  · rfl
  · rcases expansion s c with - | - | ⟨first, rest⟩
    · rfl
    · rfl
    · simp only [State.emitBytes_withInq, State.growDecoder_withInq, Answer.withInq]

theorem decodeCode_withInq (c : LzwCode) : decodeCode c { s with inq := q } = Answer.withInq q (decodeCode c s) := by
  simp only [decodeCode, decodeLater_withInq, raise_withInq]
  split_ifs <;> rfl

theorem decData_withInq (v : Payload) : decData v { s with inq := q } = Answer.withInq q (decData v s) := by
  unfold decData
  split_ifs
  · exact decodeCode_withInq { s.countIn with havelo := false } q (pairCode (payloadByte v) s.lo)
  · rfl

theorem decEnd_withInq : decEnd { s with inq := q } = Answer.withInq q (decEnd s) := by
  simp only [decEnd, truncated, raise_withInq]
  split_ifs <;> rfl

theorem unpackData_withInq (v : Payload) :
    unpackData v { s with inq := q } = Answer.withInq q (unpackData v s) := by
  unfold unpackData
  split_ifs <;> rfl

theorem unpackEnd_withInq : unpackEnd { s with inq := q } = Answer.withInq q (unpackEnd s) := by
  simp only [unpackEnd, truncated, raise_withInq]
  split_ifs <;> rfl

/-- A beat does not look at the rest of INQ and leaves it alone (45_sequencer.md R246). -/
theorem consume_withInq (b : InBeat) : consume b { s with inq := q } = Answer.withInq q (consume b s) := by
  cases hst : s.st <;> cases b <;> simp only [consume, hst]
  case enc.data v => exact hst ▸ encData_withInq s q v
  case enc.fin => exact hst ▸ encEnd_withInq s q
  case dec.data v => exact hst ▸ decData_withInq s q v
  case dec.fin => exact hst ▸ decEnd_withInq s q
  case unpack.data v => exact hst ▸ unpackData_withInq s q v
  case unpack.fin => exact hst ▸ unpackEnd_withInq s q
  case enc.err | dec.err | pack.err | unpack.err => exact hst ▸ raise_withInq s q .io 1#32
  case enc.rsv | dec.rsv | pack.rsv | unpack.rsv => exact hst ▸ raise_withInq s q .io 3#32
  all_goals
    rw [← hst]
    rfl

theorem consume_inq {s t : State} {b : InBeat} (h : consume b s = .next t) : t.inq = s.inq := by
  have hsame : consume b s = Answer.withInq s.inq (consume b s) := consume_withInq s s.inq b
  rw [h] at hsame
  have hnext : t = { t with inq := s.inq } := Host.Outcome.next.inj hsame
  rw [hnext]

end

/-- Settles O8: the beat finds the same head and leaves the rest of INQ, with the pushed beat at its end. -/
theorem pushAndBeatCommute : Obligations.PushAndBeatCommute := by
  intro s t b hbeat _ hstep
  obtain ⟨-, -, -, hinq⟩ := State.beatEnabled_iff.mp hbeat
  obtain ⟨x, rest, hx⟩ := List.exists_cons_of_ne_nil hinq
  have hpushed : (s.pushBeat b).inq = x :: (rest ++ [b]) := by simp [State.pushBeat, hx]
  rw [beatStep_of_inq hx] at hstep
  have hrest : t.inq = rest := consume_inq hstep
  calc beatStep (s.pushBeat b)
      = consume x { ({ s with inq := rest } : State) with inq := rest ++ [b] } := beatStep_of_inq hpushed
    _ = Answer.withInq (rest ++ [b]) (.next t) := by rw [consume_withInq, hstep]
    _ = .next (t.pushBeat b) := by rw [State.pushBeat, hrest, Answer.withInq]

end Sys2Proof.Machine
end

section
/-! SUPPORT. The registers of the window, STATUS, push and pop (10_state.md R21, R23, 20_memory.md R72, R75, R76): what they read and move. -/

namespace Sys2Proof.Machine

/-! ### Register reads -/

theorem Reg.ofOffset_aligned (off : Offset) : Reg.ofOffset (off &&& 0x3C#6) = Reg.ofOffset off := by
  revert off
  decide

theorem State.readReg_aligned (s : State) (off : Offset) : s.readReg (off &&& 0x3C#6) = s.readReg off := by
  simp only [State.readReg, Reg.ofOffset_aligned]

/-- The host's script and turns play no part in a register read. -/
theorem State.readReg_withEnv (s : State) (e : Env) (off : Offset) :
    ({ s with env := e } : State).readReg off = s.readReg off := by
  unfold State.readReg
  cases Reg.ofOffset off <;> rfl

/-- Settles O10, from the host's turn and from bits [1:0] of an offset being ignored. -/
theorem registerReadHasNoSideEffect : Obligations.RegisterReadHasNoSideEffect := by
  refine fun s off rest ts hturns hscript => ⟨?_, (s.readReg_aligned off).symm⟩
  rw [step_of_host_turn hturns hscript, performHost, State.readReg_withEnv]
  rfl

/-- Settles O11: each offset is that of its register. -/
theorem registerMapReads : Obligations.RegisterMapReads :=
  fun _ => ⟨rfl, rfl, rfl, rfl, rfl, rfl, rfl, rfl, rfl, rfl, rfl, rfl, rfl, rfl, rfl, rfl⟩

/-! ### STATUS -/

section
variable (s : State)

/-- STATE is STATUS[2:0]. -/
theorem State.status_state : s.status.extractLsb' 0 3 = s.st.bits := by
  rw [State.status, BitVec.extractLsb'_append_eq_right]

/-- ERRCODE is STATUS[11:8], above the three bits of STATE and five flags. -/
theorem State.status_errcode : s.status.extractLsb' 8 4 = s.errcode.bits := by
  simp only [State.status]
  repeat rw [BitVec.extractLsb'_append_eq_of_le (by decide)]
  exact BitVec.extractLsb'_append_eq_right

theorem State.status_reserved : s.status.extractLsb' 16 16 = 0#16 := by
  simp only [State.status]
  repeat rw [BitVec.extractLsb'_append_eq_of_le (by decide)]
  rfl

/-- The flags below and above ERRCODE, by their bits. -/
theorem State.status_flags :
    s.status.getLsbD 3 = s.cmdp ∧ s.status.getLsbD 4 = s.done ∧ s.status.getLsbD 5 = s.ovf ∧
    s.status.getLsbD 6 = s.tvalid ∧ s.status.getLsbD 7 = s.cvalid ∧
    s.status.getLsbD 13 = s.emitp ∧ s.status.getLsbD 14 = s.inne ∧ s.status.getLsbD 15 = s.full := by
  simp only [State.status, BitVec.getLsbD_append]
  simp

theorem State.emitp_eq : s.emitp = decide (s.emit ≠ []) := by
  cases h : s.emit <;> simp [State.emitp, h]

theorem State.inne_eq : s.inne = decide (s.inq ≠ []) := by
  cases h : s.inq <;> simp [State.inne, h]

end

/-- NEXT is never above 65536 (10_state.md R41). -/
theorem State.full_eq {s : State} (h : s.next ≤ 65536) : s.full = decide (s.next = 65536) := by
  rw [Bool.eq_iff_iff, State.full_iff, decide_eq_true_iff]
  omega

/-- Settles O12, field by field. -/
theorem statusFields : Obligations.StatusFields := by
  intro s hnext
  obtain ⟨hcmdp, hdone, hovf, htvalid, hcvalid, hemitp, hinne, hfull⟩ := s.status_flags
  refine ⟨?state, hcmdp, hdone, hovf, htvalid, hcvalid, ?errcode, s.status_getLsbD_irq, hemitp.trans s.emitp_eq,
    hinne.trans s.inne_eq, hfull.trans (State.full_eq hnext), s.status_reserved⟩
  case state =>
    rw [s.status_state]
    cases s.st <;> rfl
  case errcode =>
    rw [s.status_errcode]
    cases s.errcode <;> rfl

/-! ### push and pop -/

section
variable {s : State} {rest : List HostAct}

theorem performHost_push_of_room (h : s.inq.length < s.params.inDepth) (b : InBeat) :
    performHost (.push b) rest s = (s.pushBeat b).withScript rest := if_pos (decide_eq_true h)

theorem performHost_push_of_full (h : s.params.inDepth ≤ s.inq.length) (b : InBeat) :
    performHost (.push b) rest s = s := if_neg fun hroom => Nat.not_lt.mpr h (of_decide_eq_true hroom)

theorem performHost_pop_of_cons {b : OutBeat} {bs : List OutBeat} (h : s.outq = b :: bs) :
    performHost .pop rest s = (({ s with outq := bs } : State).observe (.beat b)).withScript rest := by
  simp only [performHost, h]

theorem performHost_pop_of_nil (h : s.outq = []) : performHost .pop rest s = s := by
  simp only [performHost, h]

end

/-- Settles O15, by the room in INQ for a push and by the first beat of OUTQ for a pop. -/
theorem pushAndPopAreFifo : Obligations.PushAndPopAreFifo := by
  refine fun s rest ts hturns => ⟨fun b hscript hroom => ?push, fun b hscript hfull => ?pushWaits,
    fun b bs hscript houtq => ?pop, fun hscript houtq => ?popWaits⟩
  all_goals refine (step_of_host_turn hturns hscript).trans (congrArg _ ?_)
  case push => exact performHost_push_of_room (s := { s with env := { s.env with turns := ts } }) hroom b
  case pushWaits => exact performHost_push_of_full (s := { s with env := { s.env with turns := ts } }) hfull b
  case pop => exact performHost_pop_of_cons houtq
  case popWaits => exact performHost_pop_of_nil houtq

end Sys2Proof.Machine
end

section
/-! SUPPORT. Error entry, the legality of the commands, the stale tables and the reset event (60_exceptions.md R262, R265, 45_sequencer.md R241, 70_reset_and_hazards.md R290). -/

namespace Sys2Proof.Machine

/-- Settles O18, by the three kinds of STATE. -/
theorem errorEntryRecordsTheFirst : Obligations.ErrorEntryRecordsTheFirst :=
  fun _ code info => ⟨fun h => State.errorEntry_of_error h code info, fun h => State.errorEntry_of_idle h code info,
    fun h => State.errorEntry_of_session h code info⟩

/-- Settles O20, from the guard of the commands that run in IDLE only and from what EXEC discards in ERROR. -/
theorem commandLegality : Obligations.CommandLegality := by
  refine fun i s => ⟨fun hsession hidle => ((legalInIdleOnly_of_idleCommand hidle rfl).2 s).1 hsession,
    fun hst hi => exec_of_error hst ?_ ?_ ?_⟩
  all_goals
    rintro rfl
    simp [idleCommand] at hi

/-- HGEN needs a valid tree (60_exceptions.md R265). -/
theorem exec_hgen_of_stale {s : State} (h : s.st = .idle) (htree : s.tvalid = false) :
    exec .hgen s = .next { s with st := .error, errcode := .noTree, errinfo := s.pcmd } := by
  simp [exec, execHgen, idleOnly_of_idle h, htree, raise, State.errorEntry_of_idle h]

/-- Settles O21, from the three commands that need a table. -/
theorem staleTablesAreErrors : Obligations.StaleTablesAreErrors :=
  fun _ sym hst => ⟨fun htree => ⟨exec_hgen_of_stale hst htree, exec_hnode_of_stale hst htree⟩,
    fun htable => exec_hcode_of_stale hst htable sym⟩

theorem State.resetCore_status (s : State) : s.resetCore.status = 0#32 :=
  (show s.resetCore.status = State.reset.status from rfl).trans (by decide)

/-- Settles O22: both are the reset event. -/
theorem resetGivesEveryElementItsValue : Obligations.ResetGivesEveryElementItsValue :=
  fun s _ => ⟨s.resetCore, rfl, rfl, rfl, rfl, rfl, s.resetCore_status, rfl⟩

end Sys2Proof.Machine
end

section
/-! SUPPORT. The sequences of the dictionary (10_state.md R42) and Lookup as the test on sequences (43_lzw.md R184). -/

namespace Sys2Proof.Machine

section
variable {d older : List DictEntry} {e : DictEntry} {c : Nat} {x : List Byte}

/-! ### The sequence of an assigned code -/

theorem Dict.wf_cons : Dict.wf (e :: older) = true ↔ e.pre.toNat < Dict.next older ∧ Dict.wf older = true := by
  simp [Dict.wf]

theorem Dict.seq_cons_of_ne (h : c ≠ Dict.next older) : Dict.seq (e :: older) c = Dict.seq older c := if_neg h

theorem Dict.lt_next_of_seq (h : Dict.seq d c = some x) : c < Dict.next d := by
  by_contra hle
  simp [Dict.seq_none_of_next_le (Nat.not_lt.mp hle)] at h

/-- An assigned code stands for the sequence of a smaller code, then its own byte (10_state.md R42). -/
theorem Dict.seq_of_entry (hwf : Dict.wf d = true) (h : Dict.entry d c = some e) :
    e.pre.toNat < c ∧ ∃ p, Dict.seq d e.pre.toNat = some p ∧ Dict.seq d c = some (p ++ [e.suf]) := by
  induction d with
  | nil => cases h
  | cons a older ih =>
    obtain ⟨hfalls, hwf⟩ := Dict.wf_cons.mp hwf
    by_cases hc : c = Dict.next older
    · subst hc
      obtain rfl : a = e := Option.some.inj ((Dict.entry_cons_next a older).symm.trans h)
      obtain ⟨first, rest, hseq⟩ := Dict.seq_some_of_lt_next hwf hfalls
      exact ⟨hfalls, _, (Dict.seq_cons_of_ne hfalls.ne).trans hseq, Dict.seq_cons_next hseq⟩
    · rw [Dict.entry_cons_of_ne hc] at h
      obtain ⟨hlt, p, hp, hseq⟩ := ih hwf h
      have hpre : e.pre.toNat ≠ Dict.next older := (hlt.trans (Dict.entry_range h).2).ne
      exact ⟨hlt, p, (Dict.seq_cons_of_ne hpre).trans hp, (Dict.seq_cons_of_ne hc).trans hseq⟩

/-- Every code of the chain adds one byte, and the chain falls. -/
theorem Dict.seq_length_le (hwf : Dict.wf d = true) (h : Dict.seq d c = some x) : x.length ≤ max 1 (c - 254) := by
  induction c using Nat.strong_induction_on generalizing x with
  | _ c ih =>
    by_cases hbase : c < 256
    · rw [Dict.seq_of_base hbase] at h
      obtain rfl := Option.some.inj h
      exact le_max_left _ _
    · obtain ⟨e, hentry⟩ := Dict.exists_entry (Nat.not_lt.mp hbase) (Dict.lt_next_of_seq h)
      obtain ⟨hlt, p, hp, hseq⟩ := Dict.seq_of_entry hwf hentry
      obtain rfl : p ++ [e.suf] = x := Option.some.inj (hseq.symm.trans h)
      have hprefix := ih e.pre.toNat hlt hp
      rw [List.length_append, List.length_singleton]
      omega

/-! ### With distinct entries a sequence has one code -/

theorem Dict.exists_entry_of_mem (h : e ∈ d) : ∃ c, Dict.entry d c = some e := by
  induction d with
  | nil => cases h
  | cons a older ih =>
    rcases List.mem_cons.mp h with rfl | h
    · exact ⟨_, Dict.entry_cons_next e older⟩
    · obtain ⟨c, hc⟩ := ih h
      exact ⟨c, (Dict.entry_cons_of_ne (Dict.entry_range hc).2.ne).trans hc⟩

theorem Dict.mem_of_entry (h : Dict.entry d c = some e) : e ∈ d := by
  induction d with
  | nil => cases h
  | cons a older ih =>
    by_cases hc : c = Dict.next older
    · rw [hc, Dict.entry_cons_next] at h
      exact Option.some.inj h ▸ List.mem_cons_self
    · exact List.mem_cons_of_mem a (ih ((Dict.entry_cons_of_ne hc).symm.trans h))

theorem Dict.entry_inj (hnodup : d.Nodup) {c₁ c₂ : Nat} (h₁ : Dict.entry d c₁ = some e)
    (h₂ : Dict.entry d c₂ = some e) : c₁ = c₂ := by
  induction d with
  | nil => cases h₁
  | cons a older ih =>
    obtain ⟨hnew, hnodup⟩ := List.nodup_cons.mp hnodup
    by_cases hc₁ : c₁ = Dict.next older <;> by_cases hc₂ : c₂ = Dict.next older
    · exact hc₁.trans hc₂.symm
    · rw [hc₁, Dict.entry_cons_next] at h₁
      rw [Dict.entry_cons_of_ne hc₂, ← h₁] at h₂
      exact absurd (Dict.mem_of_entry h₂) hnew
    · rw [hc₂, Dict.entry_cons_next] at h₂
      rw [Dict.entry_cons_of_ne hc₁, ← h₂] at h₁
      exact absurd (Dict.mem_of_entry h₁) hnew
    · exact ih hnodup ((Dict.entry_cons_of_ne hc₁).symm.trans h₁) ((Dict.entry_cons_of_ne hc₂).symm.trans h₂)

/-- A sequence of a byte after a non-empty sequence belongs to an assigned code. -/
theorem Dict.entry_of_seq_append (hwf : Dict.wf d = true) (hx : x ≠ []) {b : Byte}
    (h : Dict.seq d c = some (x ++ [b])) : ∃ e, Dict.entry d c = some e ∧ e.suf = b ∧ Dict.seq d e.pre.toNat = some x := by
  have hassigned : 256 ≤ c := by
    by_contra hbase
    rw [Dict.seq_of_base (Nat.not_le.mp hbase)] at h
    have hlength := congrArg List.length (Option.some.inj h)
    have := List.length_pos_iff.mpr hx
    simp only [List.length_append, List.length_singleton] at hlength
    omega
  obtain ⟨e, hentry⟩ := Dict.exists_entry hassigned (Dict.lt_next_of_seq h)
  obtain ⟨-, p, hp, hseq⟩ := Dict.seq_of_entry hwf hentry
  obtain ⟨rfl, hsuf⟩ := List.append_inj' (Option.some.inj (hseq.symm.trans h)) rfl
  exact ⟨e, hentry, List.head_eq_of_cons_eq hsuf, hp⟩

theorem Dict.seq_inj (hwf : Dict.wf d = true) (hnodup : d.Nodup) {c₁ c₂ : Nat} (h₁ : Dict.seq d c₁ = some x)
    (h₂ : Dict.seq d c₂ = some x) : c₁ = c₂ := by
  induction x using List.reverseRecOn generalizing c₁ c₂ with
  | nil => exact absurd h₁ Dict.seq_ne_nil
  | append_singleton x b ih =>
    rcases eq_or_ne x [] with rfl | hx
    · have hbase : ∀ {c}, Dict.seq d c = some ([] ++ [b]) → c = b.toNat := by
        intro c hc
        have hlt : c < 256 := by
          by_contra hassigned
          obtain ⟨e, hentry⟩ := Dict.exists_entry (Nat.not_lt.mp hassigned) (Dict.lt_next_of_seq hc)
          obtain ⟨-, p, hp, hseq⟩ := Dict.seq_of_entry hwf hentry
          obtain ⟨rfl, -⟩ := List.append_inj' (Option.some.inj (hseq.symm.trans hc)) rfl
          exact Dict.seq_ne_nil hp
        rw [Dict.seq_of_base hlt] at hc
        rw [← List.head_eq_of_cons_eq (Option.some.inj hc), BitVec.toNat_ofNat, Nat.mod_eq_of_lt hlt]
      exact (hbase h₁).trans (hbase h₂).symm
    · obtain ⟨⟨p₁, b₁⟩, hentry₁, rfl, hp₁⟩ := Dict.entry_of_seq_append hwf hx h₁
      obtain ⟨⟨p₂, b₂⟩, hentry₂, rfl, hp₂⟩ := Dict.entry_of_seq_append hwf hx h₂
      obtain rfl : p₁ = p₂ := BitVec.eq_of_toNat_eq (ih hp₁ hp₂)
      exact Dict.entry_inj hnodup hentry₁ hentry₂

/-! ### Lookup -/

variable {p code : LzwCode} {b : Byte}

theorem Dict.seq_of_lookup (hwf : Dict.wf d = true) (hcap : Dict.next d ≤ 65536) (hx : Dict.seq d p.toNat = some x)
    (h : Dict.lookup d p b = some code) : Dict.seq d code.toNat = some (x ++ [b]) := by
  obtain ⟨-, y, hy, hseq⟩ := Dict.seq_of_entry hwf (Dict.isLeast_of_lookup_eq_some hcap h).1
  obtain rfl : y = x := Option.some.inj (hy.symm.trans hx)
  exact hseq

theorem Dict.lookup_of_seq (hwf : Dict.wf d = true) (hnodup : d.Nodup) (hcap : Dict.next d ≤ 65536)
    (hx : Dict.seq d p.toNat = some x) (h : Dict.seq d code.toNat = some (x ++ [b])) :
    Dict.lookup d p b = some code := by
  have hne : x ≠ [] := fun hnil => Dict.seq_ne_nil (hnil ▸ hx)
  obtain ⟨⟨p', b'⟩, hentry, rfl, hp'⟩ := Dict.entry_of_seq_append hwf hne h
  obtain rfl : p' = p := BitVec.eq_of_toNat_eq (Dict.seq_inj hwf hnodup hp' hx)
  cases hlookup : Dict.lookup d p' b' with
  | none => exact absurd hentry (Dict.entry_ne_of_lookup_eq_none hlookup _)
  | some found =>
    have hfound := (Dict.isLeast_of_lookup_eq_some hcap hlookup).1
    exact congrArg some (BitVec.eq_of_toNat_eq (Dict.entry_inj hnodup hfound hentry))

/-- A miss of Lookup says that the entry is new. -/
theorem Dict.not_mem_of_lookup_eq_none (h : Dict.lookup d p b = none) : (⟨p, b⟩ : DictEntry) ∉ d := fun hmem =>
  (Dict.exists_entry_of_mem hmem).elim (Dict.entry_ne_of_lookup_eq_none h)

end

/-- Settles O41, by the three ranges of the code. -/
theorem sequencesFollowTheChains : Obligations.SequencesFollowTheChains := by
  refine fun d c hwf => ⟨Dict.seq_of_base, fun hassigned hnext => ?_, Dict.seq_none_of_next_le⟩
  obtain ⟨e, hentry⟩ := Dict.exists_entry hassigned hnext
  obtain ⟨hlt, p, hp, hseq⟩ := Dict.seq_of_entry hwf hentry
  have hlength := Dict.seq_length_le hwf hseq
  exact ⟨e, p, hentry, hlt, hp, hseq, by omega⟩

/-! ### The beats of an encode session -/

/-- A byte that extends a match (43_lzw.md R192 to R195): a hit, a miss with room, and a miss when full in strict mode or frozen. -/
theorem encExtend_cases (b : Byte) (s : State) :
    (∃ c, Dict.lookup s.dict s.cur b = some c ∧ encExtend b s = .next { s with cur := c }) ∨
    (Dict.lookup s.dict s.cur b = none ∧
      (s.next < 65536 ∧ encExtend b s = .next (((s.serWrite s.cur).insert s.cur b).restartMatch b) ∨
       65536 ≤ s.next ∧ s.strictL = true ∧ encExtend b s = raise .dictOvf (b.setWidth 32) s ∨
       65536 ≤ s.next ∧ s.strictL = false ∧ encExtend b s = .next ((s.serWrite s.cur).setOvf.restartMatch b))) := by
  cases hlookup : Dict.lookup s.dict s.cur b with
  | some c => exact Or.inl ⟨c, rfl, encExtend_of_hit hlookup⟩
  | none =>
    refine Or.inr ⟨rfl, ?_⟩
    by_cases hfull : s.full = true
    · have hnext : 65536 ≤ s.next := s.full_iff.mp hfull
      cases hstrict : s.strictL
      · exact Or.inr (Or.inr ⟨hnext, rfl, by simp [encExtend, hlookup, hfull, hstrict]⟩)
      · exact Or.inr (Or.inl ⟨hnext, rfl, by simp [encExtend, hlookup, hfull, hstrict]⟩)
    · have hnext : s.next < 65536 := by rw [State.full_iff] at hfull; omega
      exact Or.inl ⟨hnext, by simp [encExtend, hlookup, hfull]⟩

/-! SerWrite writes EMIT and OUTCNT only (44_serializer.md R222). -/

@[simp] theorem State.serWrite_dict (s : State) (c : LzwCode) : (s.serWrite c).dict = s.dict := rfl
@[simp] theorem State.serWrite_st (s : State) (c : LzwCode) : (s.serWrite c).st = s.st := rfl
@[simp] theorem State.serWrite_strictL (s : State) (c : LzwCode) : (s.serWrite c).strictL = s.strictL := rfl

theorem encExtend_nodup {s t : State} {b : Byte} (hnodup : s.dict.Nodup) (h : encExtend b s = .next t) :
    t.dict.Nodup := by
  obtain ⟨c, -, heq⟩ | ⟨hmiss, ⟨-, heq⟩ | ⟨-, -, heq⟩ | ⟨-, -, heq⟩⟩ := encExtend_cases b s
  all_goals obtain rfl := Host.Outcome.next.inj (heq.symm.trans h)
  · exact hnodup
  · simpa using ⟨Dict.not_mem_of_lookup_eq_none hmiss, hnodup⟩
  · simpa using hnodup
  · exact hnodup

theorem consume_enc_nodup {s t : State} {b : InBeat} (hst : s.st = .enc) (hnodup : s.dict.Nodup)
    (h : consume b s = .next t) : t.dict.Nodup := by
  have hsession : s.st.inSession = true := congrArg SeqState.inSession hst
  cases b with
  | data v =>
    cases hcur : s.hascur
    · rw [consume_enc_data_of_no_match hst hcur] at h
      obtain rfl := Host.Outcome.next.inj h
      exact hnodup
    · rw [consume_enc_data_of_match hst hcur] at h
      exact encExtend_nodup (s := s.countIn) hnodup h
  | fin =>
    cases hcur : s.hascur
    · rw [consume_enc_fin_of_no_match hst hcur] at h
      obtain rfl := Host.Outcome.next.inj h
      exact hnodup
    · rw [consume_enc_fin_of_match hst hcur, State.serWrite_eq] at h
      obtain rfl := Host.Outcome.next.inj h
      exact hnodup
  | err =>
    rw [consume_err_of_session hsession] at h
    obtain rfl := Host.Outcome.next.inj h
    exact hnodup
  | rsv =>
    rw [consume_rsv_of_session hsession] at h
    obtain rfl := Host.Outcome.next.inj h
    exact hnodup

/-- Settles O43: an insertion follows a miss, which says that the entry is new, and with distinct entries a sequence has one code. -/
theorem lookupFindsTheExtendedSequence : Obligations.LookupFindsTheExtendedSequence :=
  ⟨fun _ _ _ hst hnodup h => consume_enc_nodup hst hnodup h, fun _ _ _ _ _ hwf hnodup hcap hx =>
    ⟨Dict.seq_of_lookup hwf hcap hx, Dict.lookup_of_seq hwf hnodup hcap hx⟩⟩

end Sys2Proof.Machine
end

section
/-! SUPPORT. The decoder (43_lzw.md R201 to R204, R207): the expansion of a code, the insertion after it, and the codes it rejects. -/

namespace Sys2Proof.Machine

/-! ### The updates the decoder is made of -/

theorem State.emitBytes_eq (s : State) (bytes : List Byte) :
    s.emitBytes bytes =
      { s with
        emit := s.emit ++ bytes.map fun x => .data (x.setWidth 16)
        outcnt := s.outcnt + BitVec.ofNat 32 bytes.length } := by
  have hfields : s.emitBytes bytes =
      { s with emit := (s.emitBytes bytes).emit, outcnt := (s.emitBytes bytes).outcnt } := by
    induction bytes generalizing s with
    | nil => rfl
    | cons x rest ih => exact ih (s.emitBeat (.data (x.setWidth 16)))
  rw [hfields, State.emitBytes_emit, State.emitBytes_outcnt]

theorem State.growDecoder_of_full {s : State} (h : s.next = 65536) (first : Byte) :
    s.growDecoder first = { s with ovf := true } := if_pos (s.full_iff.mpr h.ge)

theorem State.growDecoder_of_room {s : State} (h : s.next < 65536) (first : Byte) :
    s.growDecoder first = { s with dict := ⟨s.prev, first⟩ :: s.dict } :=
  if_neg fun hfull => absurd (s.full_iff.mp hfull) (Nat.not_le.mpr h)

section
variable {s : State} {c : LzwCode}

/-! ### The expansion of a code -/

theorem expansion_of_assigned (h : c.toNat < s.next) : expansion s c = Dict.seq s.dict c.toNat := if_pos h

/-- The code that is about to be assigned: the previous sequence, then its own first byte (43_lzw.md R207). -/
theorem expansion_of_next {first : Byte} {tail : List Byte} (h : c.toNat = s.next)
    (hprev : Dict.seq s.dict s.prev.toNat = some (first :: tail)) :
    expansion s c = some (first :: (tail ++ [first])) := by
  rw [expansion, if_neg h.not_lt, hprev]
  rfl

/-- Where the chains fall and PREV is assigned, every code up to NEXT has an expansion. -/
theorem exists_expansion (hwf : Dict.wf s.dict = true) (hprev : s.prev.toNat < s.next) (hc : c.toNat ≤ s.next) :
    ∃ first rest, expansion s c = some (first :: rest) ∧
      (c.toNat < s.next → Dict.seq s.dict c.toNat = some (first :: rest)) ∧
      (c.toNat = s.next → ∃ tail, Dict.seq s.dict s.prev.toNat = some (first :: tail) ∧ rest = tail ++ [first]) := by
  rcases hc.lt_or_eq with hlt | heq
  · obtain ⟨first, rest, hseq⟩ := Dict.seq_some_of_lt_next hwf hlt
    exact ⟨first, rest, (expansion_of_assigned hlt).trans hseq, fun _ => hseq, fun heq => absurd heq hlt.ne⟩
  · obtain ⟨first, tail, hseq⟩ := Dict.seq_some_of_lt_next hwf hprev
    exact ⟨first, tail ++ [first], expansion_of_next heq hseq, fun hlt => absurd heq hlt.ne,
      fun _ => ⟨tail, hseq, rfl⟩⟩

/-! ### The decoder's branches -/

theorem decodeCode_of_first (hfirst : s.hasprev = false) (hc : c.toNat < 256) :
    decodeCode c s = .next { s.emitBeat (.data c) with prev := c, hasprev := true } := by
  have hbase : ¬ Config.baseCodes ≤ c.toNat := Nat.not_le.mpr hc
  rw [decodeCode, hfirst, if_neg Bool.false_ne_true, if_neg hbase]

theorem decodeCode_of_first_desync (hfirst : s.hasprev = false) (hc : 256 ≤ c.toNat) :
    decodeCode c s = raise .desync (c.setWidth 32) s := by
  have hassigned : Config.baseCodes ≤ c.toNat := hc
  rw [decodeCode, hfirst, if_neg Bool.false_ne_true, if_pos hassigned]

theorem decodeCode_of_later (hlater : s.hasprev = true) : decodeCode c s = decodeLater c s := if_pos hlater

theorem decodeLater_of_strict (hfull : 65536 ≤ s.next) (hstrict : s.strictL = true) :
    decodeLater c s = raise .dictOvf (c.setWidth 32) s := by
  rw [decodeLater, s.full_iff.mpr hfull, hstrict, Bool.and_self, if_pos rfl]

section
variable (hopen : ¬ (65536 ≤ s.next ∧ s.strictL = true))
include hopen

theorem State.not_full_and_strict : ¬ (s.full && s.strictL) = true := by
  rwa [Bool.and_eq_true, State.full_iff]

theorem decodeLater_of_desync (hc : s.next < c.toNat) : decodeLater c s = raise .desync (c.setWidth 32) s := by
  rw [decodeLater, if_neg (State.not_full_and_strict hopen), if_pos hc]

theorem decodeLater_of_expansion (hc : c.toNat ≤ s.next) {first : Byte} {rest : List Byte}
    (hexpansion : expansion s c = some (first :: rest)) :
    decodeLater c s = .next { (s.emitBytes (first :: rest)).growDecoder first with prev := c } := by
  rw [decodeLater, if_neg (State.not_full_and_strict hopen), if_neg (Nat.not_lt.mpr hc), hexpansion]

end
end

/-- The state after a code whose sequence was emitted: with room the new entry, with the dictionary full OVF. -/
theorem State.growDecoder_emitBytes {s : State} (hcap : s.next ≤ 65536) (first : Byte) (rest : List Byte) :
    (s.emitBytes (first :: rest)).growDecoder first =
      { s with
        emit := s.emit ++ (first :: rest).map (fun x => .data (x.setWidth 16))
        outcnt := s.outcnt + BitVec.ofNat 32 (rest.length + 1)
        dict := if s.next = 65536 then s.dict else ⟨s.prev, first⟩ :: s.dict
        ovf := if s.next = 65536 then true else s.ovf } := by
  have hnext : (s.emitBytes (first :: rest)).next = s.next := congrArg Dict.next (s.emitBytes_dict _)
  by_cases hfull : s.next = 65536
  · rw [State.growDecoder_of_full (hnext.trans hfull), State.emitBytes_eq, if_pos hfull, if_pos hfull]
    rfl
  · rw [State.growDecoder_of_room (hnext ▸ lt_of_le_of_ne hcap hfull), State.emitBytes_eq, if_neg hfull, if_neg hfull]
    rfl

/-- Settles O49, by whether the code is the first of the session. -/
theorem decoderExpandsTheCode : Obligations.DecoderExpandsTheCode := by
  refine fun s c hinv _ => ⟨decodeCode_of_first, fun hlater hopen hc => ?_⟩
  have hcap : s.next ≤ 65536 := hinv.dict_capped
  have hopen' : ¬ (65536 ≤ s.next ∧ s.strictL = true) := fun h => hopen ⟨hcap.antisymm h.1, h.2⟩
  obtain ⟨first, rest, hexpansion, hassigned, hnext⟩ :=
    exists_expansion hinv.dict_falls (hinv.prev_assigned hlater) hc
  refine ⟨first, rest, hassigned, hnext, ?_⟩
  rw [decodeCode_of_later hlater, decodeLater_of_expansion hopen' hc hexpansion, State.growDecoder_emitBytes hcap]

/-- Settles O50, by the three codes the decoder rejects. -/
theorem decoderRaisesOnBadCodes : Obligations.DecoderRaisesOnBadCodes := by
  intro s c hst
  have hsession : s.st.inSession = true := congrArg SeqState.inSession hst
  refine ⟨fun hfirst hc => ?first, fun hlater hfull hstrict => ?strict, fun hlater hroom hc => ?above⟩
  all_goals rw [← raise_of_session hsession]
  case first => exact decodeCode_of_first_desync hfirst hc
  case strict => exact (decodeCode_of_later hlater).trans (decodeLater_of_strict hfull.ge hstrict)
  case above =>
    have hopen : ¬ (65536 ≤ s.next ∧ s.strictL = true) := fun h => absurd h.1 (Nat.not_le.mpr hroom)
    exact (decodeCode_of_later hlater).trans (decodeLater_of_desync hopen hc)

end Sys2Proof.Machine
end

section
/-! SUPPORT. The canonical form of a table (10_state.md R36): its Symbols are strictly rising, so they are distinct and at most 65536, and the entries fix the list. -/

namespace Sys2Proof.Machine

section
variable {α : Type} {t : Table α} {k : Symbol} {v : α}

theorem Table.wf_iff_pairwise : t.wf = true ↔ t.Pairwise fun a b => a.1 < b.1 := by
  induction t with
  | nil => simp
  | cons a rest ih => rw [Table.wf_cons, List.pairwise_cons, ih]

theorem Table.nodup_symbols (hwf : t.wf = true) : (t.map Prod.fst).Nodup :=
  List.pairwise_map.mpr ((Table.wf_iff_pairwise.mp hwf).imp fun hlt => BitVec.ne_of_lt hlt)

theorem Table.length_le (hwf : t.wf = true) : t.length ≤ 65536 := by
  have hcard := ((Table.nodup_symbols hwf).map (f := BitVec.toFin) fun _ _ => BitVec.eq_of_toFin_eq).length_le_card
  rwa [List.length_map, List.length_map, Fintype.card_fin] at hcard

theorem Table.read_eq_some_iff (hwf : t.wf = true) : t.read k = some v ↔ (k, v) ∈ t := by
  induction t with
  | nil => simp
  | cons a rest ih =>
    obtain ⟨j, w⟩ := a
    obtain ⟨hj, hrest⟩ := (Table.wf_cons j w rest).mp hwf
    by_cases heq : j = k
    · subst heq
      have habsent : (j, v) ∉ rest := fun hmem => BitVec.lt_irrefl _ (hj _ hmem)
      simp [Table.read, habsent, eq_comm]
    · simp [Table.read, heq, Ne.symm heq, ih hrest]

theorem Table.read_eq_none_iff : t.read k = none ↔ ∀ e ∈ t, e.1 ≠ k := by
  induction t with
  | nil => simp
  | cons a rest ih =>
    obtain ⟨j, w⟩ := a
    by_cases heq : j = k <;> simp [Table.read, heq, ih]

/-- Canonical tables with the same entries are the same list. -/
theorem Table.eq_of_read_eq {t' : Table α} (hwf : t.wf = true) (hwf' : t'.wf = true)
    (h : ∀ k, t.read k = t'.read k) : t = t' := by
  have hmem : ∀ e : Symbol × α, e ∈ t ↔ e ∈ t' := fun e => by
    rw [← Table.read_eq_some_iff hwf, ← Table.read_eq_some_iff hwf', h]
  have hnodup : ∀ {u : Table α}, u.wf = true → u.Nodup := fun hu => (Table.nodup_symbols hu).of_map
  refine ((List.perm_ext_iff_of_nodup (hnodup hwf) (hnodup hwf')).mpr hmem).eq_of_pairwise (fun a b _ _ hab hba => ?_)
    (Table.wf_iff_pairwise.mp hwf) (Table.wf_iff_pairwise.mp hwf')
  exact absurd (BitVec.lt_trans hab hba) (BitVec.lt_irrefl _)

end

end Sys2Proof.Machine
end

section
/-! SUPPORT. The merge order of HBUILD (41_huffman_tree.md R133, R134): what an extraction takes, and that the loop is the relation `Merges`. -/

namespace Sys2Proof.Machine

/-! ### The priority order and the extraction -/

theorem Node.before_iff (a b : Node) : a.before b = true ↔ keyLess a b := by
  simp [Node.before, keyLess, BitVec.lt_def, BitVec.toNat_inj]

theorem keyLess_of_keyLess_of_not {a b c : Node} (hab : keyLess a b) (hbc : ¬ keyLess c b) : ¬ keyLess c a := by
  unfold keyLess at *
  omega

section
variable {q rest : List Ranked} {x : Ranked}

theorem takeLeast_eq_none_iff : takeLeast q = none ↔ q = [] := by
  cases q with
  | nil => simp [takeLeast]
  | cons y ys =>
    unfold takeLeast
    cases takeLeast ys with
    | none => simp
    | some taken => by_cases h : y.node.before taken.1.node = true <;> simp [h]

/-- An extraction takes one tree, keeps the others, and no other one comes before it. -/
theorem takeLeast_spec (h : takeLeast q = some (x, rest)) :
    q.Perm (x :: rest) ∧ ∀ y ∈ rest, ¬ keyLess y.node x.node := by
  induction q generalizing x rest with
  | nil => cases h
  | cons y ys ih =>
    cases htail : takeLeast ys with
    | none =>
      obtain rfl := takeLeast_eq_none_iff.mp htail
      obtain ⟨rfl, rfl⟩ : y = x ∧ [] = rest := by simpa [takeLeast] using h
      exact ⟨List.Perm.refl _, fun z hz => absurd hz List.not_mem_nil⟩
    | some taken =>
      obtain ⟨m, others⟩ := taken
      obtain ⟨hperm, hleast⟩ := ih htail
      by_cases hbefore : y.node.before m.node = true
      · obtain ⟨rfl, rfl⟩ : y = x ∧ m :: others = rest := by simpa [takeLeast, htail, hbefore] using h
        have hless : keyLess y.node m.node := (Node.before_iff _ _).mp hbefore
        refine ⟨hperm.cons y, List.forall_mem_cons.mpr ⟨?_, fun z hz => ?_⟩⟩
        · unfold keyLess at *
          omega
        · exact keyLess_of_keyLess_of_not hless (hleast z hz)
      · obtain ⟨rfl, rfl⟩ : m = x ∧ y :: others = rest := by simpa [takeLeast, htail, hbefore] using h
        exact ⟨(hperm.cons y).trans (List.Perm.swap _ _ _), List.forall_mem_cons.mpr
          ⟨fun hless => hbefore ((Node.before_iff _ _).mpr hless), hleast⟩⟩

theorem exists_takeLeast (h : q ≠ []) : ∃ x rest, takeLeast q = some (x, rest) := by
  cases htaken : takeLeast q with
  | none => exact absurd (takeLeast_eq_none_iff.mp htaken) h
  | some taken => exact ⟨taken.1, taken.2, rfl⟩

end

/-! ### One turn of the loop -/

theorem joinAll_singleton (fuel : Nat) (arena : List Node) (x : Ranked) :
    joinAll (fuel + 1) [x] arena = (arena, x.id) := rfl

theorem joinAll_of_two {q q1 q2 : List Ranked} {a b : Ranked} (ha : takeLeast q = some (a, q1))
    (hb : takeLeast q1 = some (b, q2)) (fuel : Nat) (arena : List Node) :
    joinAll (fuel + 1) q arena =
      joinAll fuel (⟨arena.length, joinNode a b⟩ :: q2) (arena ++ [joinNode a b]) := by
  simp only [joinAll, ha, hb]

/-- With two trees or more both extractions answer. -/
theorem exists_two_takeLeast {q : List Ranked} (h : 2 ≤ q.length) :
    ∃ a q1 b q2, takeLeast q = some (a, q1) ∧ takeLeast q1 = some (b, q2) := by
  obtain ⟨a, q1, ha⟩ := exists_takeLeast (q := q) (by rintro rfl; simp at h)
  have hlength := (takeLeast_spec ha).1.length_eq
  obtain ⟨b, q2, hb⟩ := exists_takeLeast (q := q1) (by rintro rfl; simp at hlength; omega)
  exact ⟨a, q1, b, q2, ha, hb⟩

/-! ### Forests on which the loop is exact -/

/-- What the loop needs of its forest so that it never cuts a number off and every least key is strictly least: ids of the arena and room in it, distinct least symbols, and a total frequency that fits (41_huffman_tree.md R133, R136). -/
structure Mergeable (q : List Ranked) (arena : List Node) : Prop where
  ids : ∀ x ∈ q, x.id < arena.length
  minsyms : (q.map fun x => x.node.minsym).Nodup
  total : (q.map fun x => x.node.freq.toNat).sum < 2 ^ 48
  room : arena.length + q.length ≤ 2 ^ 17

theorem Mergeable.perm {q q' : List Ranked} {arena : List Node} (h : Mergeable q arena) (hperm : q.Perm q') :
    Mergeable q' arena where
  ids x hx := h.ids x (hperm.mem_iff.mpr hx)
  minsyms := (hperm.map _).nodup_iff.mp h.minsyms
  total := (hperm.map fun x => x.node.freq.toNat).sum_eq ▸ h.total
  room := hperm.length_eq ▸ h.room

theorem joinNode_minsym (a b : Ranked) : (joinNode a b).minsym = a.node.minsym ∨ (joinNode a b).minsym = b.node.minsym := by
  simp only [joinNode]
  split_ifs <;> simp

section
variable {q2 : List Ranked} {arena : List Node} {a b : Ranked} (h : Mergeable (a :: b :: q2) arena)
include h

/-- The Node of a turn, with its numbers exact. -/
theorem Mergeable.joins_joinNode : joins (joinNode a b) a b := by
  have ha := h.ids a (by simp)
  have hb := h.ids b (by simp)
  have hroom := h.room
  have htotal := h.total
  simp only [List.map_cons, List.sum_cons, List.length_cons] at htotal hroom
  refine ⟨rfl, rfl, ?_, ?_, ?_, ?_⟩
  · exact Nat.mod_eq_of_lt (by omega)
  · exact Nat.mod_eq_of_lt (by omega)
  · exact Nat.mod_eq_of_lt (by omega)
  · simp only [joinNode, BitVec.lt_def]
    split_ifs <;> omega

/-- The forest after a turn. -/
theorem Mergeable.join : Mergeable (⟨arena.length, joinNode a b⟩ :: q2) (arena ++ [joinNode a b]) where
  ids := by
    simp only [List.mem_cons, forall_eq_or_imp, List.length_append, List.length_singleton]
    exact ⟨Nat.lt_succ_self _, fun x hx => Nat.lt_succ_of_lt (h.ids x (by simp [hx]))⟩
  minsyms := by
    have hdistinct := h.minsyms
    simp only [List.map_cons, List.nodup_cons, List.mem_cons, not_or] at hdistinct ⊢
    obtain ⟨⟨-, ha⟩, hb, hq2⟩ := hdistinct
    rcases joinNode_minsym a b with heq | heq <;> rw [heq]
    · exact ⟨ha, hq2⟩
    · exact ⟨hb, hq2⟩
  total := by
    obtain ⟨-, -, -, -, hfreq, -⟩ := h.joins_joinNode
    have htotal := h.total
    simp only [List.map_cons, List.sum_cons, hfreq] at htotal ⊢
    omega
  room := by
    have hroom := h.room
    simp only [List.length_cons, List.length_append, List.length_nil] at hroom ⊢
    omega

end

/-- With distinct least symbols a tree that no other one comes before is strictly least. -/
theorem Mergeable.strictly_least {q : List Ranked} {arena : List Node} {x : Ranked} (h : Mergeable (x :: q) arena)
    (hleast : ∀ y ∈ q, ¬ keyLess y.node x.node) : ∀ y ∈ q, keyLess x.node y.node := by
  intro y hy
  have hne : x.node.minsym ≠ y.node.minsym := fun heq =>
    (List.nodup_cons.mp h.minsyms).1 (List.mem_map.mpr ⟨y, hy, heq.symm⟩)
  have hneNat : x.node.minsym.toNat ≠ y.node.minsym.toNat := fun heq => hne (BitVec.eq_of_toNat_eq heq)
  have hnot := hleast y hy
  unfold keyLess at *
  omega

/-- The loop merges in the order of R134. -/
theorem joinAll_merges {fuel : Nat} {q : List Ranked} {arena : List Node} (h : Mergeable q arena) (hne : q ≠ [])
    (hfuel : q.length ≤ fuel) : Merges q arena (joinAll fuel q arena).1 (joinAll fuel q arena).2 := by
  induction fuel generalizing q arena with
  | zero => exact absurd (List.length_eq_zero_iff.mp (Nat.le_zero.mp hfuel)) hne
  | succ fuel ih =>
    by_cases htwo : 2 ≤ q.length
    · obtain ⟨a, q1, b, q2, ha, hb⟩ := exists_two_takeLeast htwo
      obtain ⟨hperm1, hleast1⟩ := takeLeast_spec ha
      obtain ⟨hperm2, hleast2⟩ := takeLeast_spec hb
      have hq1 : Mergeable (a :: q1) arena := h.perm hperm1
      have hq2 : Mergeable (a :: b :: q2) arena := hq1.perm (hperm2.cons a)
      have hrest : Mergeable (b :: q2) arena := {
        ids := fun x hx => hq2.ids x (List.mem_cons_of_mem a hx)
        minsyms := (List.nodup_cons.mp hq2.minsyms).2
        total := lt_of_le_of_lt (Nat.le_add_left _ _) hq2.total
        room := (Nat.le_succ _).trans hq2.room }
      have hlength : (⟨arena.length, joinNode a b⟩ :: q2 : List Ranked).length ≤ fuel := by
        have h1 := hperm1.length_eq
        have h2 := hperm2.length_eq
        simp only [List.length_cons] at h1 h2 ⊢
        omega
      rw [joinAll_of_two ha hb]
      exact Merges.join a b (joinNode a b) hperm1 (hq1.strictly_least hleast1) hperm2 (hrest.strictly_least hleast2)
        hq2.joins_joinNode (ih hq2.join (List.cons_ne_nil _ _) hlength)
    · have hone : q.length = 1 := by
        have := List.length_pos_iff.mpr hne
        omega
      obtain ⟨x, rfl⟩ := List.length_eq_one_iff.mp hone
      exact Merges.last x arena

/-! ### The forest of the leaves -/

section
variable {leaves : List Node}

theorem mem_forestOf {x : Ranked} : x ∈ forestOf leaves ↔ leaves[x.id]? = some x.node := by
  obtain ⟨i, n⟩ := x
  simp [forestOf, List.mk_mem_zipIdx_iff_getElem?]

theorem forestOf_map_node {β : Type} (f : Node → β) : ((forestOf leaves).map fun x => f x.node) = leaves.map f := by
  calc ((forestOf leaves).map fun x => f x.node) = (leaves.zipIdx.map Prod.fst).map f := by
        rw [forestOf, List.map_map, List.map_map]
        rfl
    _ = leaves.map f := by rw [List.zipIdx_map_fst]

theorem forestOf_map_id : ((forestOf leaves).map fun x => x.id) = List.range leaves.length := by
  rw [List.range_eq_range', ← List.zipIdx_map_snd]
  simp [forestOf, Function.comp_def]

theorem forestOf_length : (forestOf leaves).length = leaves.length := by simp [forestOf]

end

section
variable {ft : Table Word}

@[simp] theorem leavesOf_length : (leavesOf ft).length = ft.length := List.length_map _

theorem leafNode_freq_toNat (sym : Symbol) (f : Word) : (leafNode sym f).freq.toNat = f.toNat :=
  BitVec.toNat_setWidth_of_le (by omega)

/-- 65536 frequencies of 32 bits fit 48 bits (41_huffman_tree.md R136). -/
theorem sum_frequencies_lt (hwf : ft.wf = true) : (ft.map fun e => e.2.toNat).sum < 2 ^ 48 := by
  have hbound : (ft.map fun e => e.2.toNat).sum ≤ (ft.map fun e => e.2.toNat).length • (2 ^ 32 - 1) := by
    refine List.sum_le_card_nsmul _ _ fun x hx => ?_
    obtain ⟨e, -, rfl⟩ := List.mem_map.mp hx
    exact Nat.le_sub_one_of_lt e.2.isLt
  have hlength := Table.length_le hwf
  rw [List.length_map, smul_eq_mul] at hbound
  omega

theorem mergeable_forestOf (hwf : ft.wf = true) : Mergeable (forestOf (leavesOf ft)) (leavesOf ft) where
  ids x hx := (List.getElem?_eq_some_iff.mp (mem_forestOf.mp hx)).1
  minsyms := by
    rw [forestOf_map_node, leavesOf, List.map_map]
    exact Table.nodup_symbols hwf
  total := by
    have hfreqs : (leavesOf ft).map (fun n => n.freq.toNat) = ft.map fun e => e.2.toNat := by
      rw [leavesOf, List.map_map]
      exact List.map_congr_left fun e _ => leafNode_freq_toNat e.1 e.2
    rw [forestOf_map_node fun n => n.freq.toNat, hfreqs]
    exact sum_frequencies_lt hwf
  room := by
    have := Table.length_le hwf
    rw [forestOf_length, leavesOf_length]
    omega

theorem buildTree_merges (hwf : ft.wf = true) (hne : ft ≠ []) :
    Merges (forestOf (leavesOf ft)) (leavesOf ft) (buildTree ft).1 (buildTree ft).2 := by
  have hlength : (forestOf (leavesOf ft)).length = ft.length := forestOf_length.trans leavesOf_length
  refine joinAll_merges (mergeable_forestOf hwf) (fun hnil => hne ?_) hlength.le
  rw [hnil] at hlength
  exact List.length_eq_zero_iff.mp hlength.symm

end

end Sys2Proof.Machine
end

section
/-! SUPPORT. The tree that merging builds (10_state.md R38, 41_huffman_tree.md R139): the arena is sound, and its root is the tree of all the leaves. -/

namespace Sys2Proof.Machine

/-- Entries stay where they are when the arena grows. -/
theorem getElem?_append_of_eq_some {nodes : List Node} {i : Nat} {n : Node} (h : nodes[i]? = some n) (m : Node) :
    (nodes ++ [m])[i]? = some n := (List.getElem?_append_left (List.getElem?_eq_some_iff.mp h).1).trans h

/-- The two extractions of a turn together. -/
theorem perm_cons_cons {q q1 q2 : List Ranked} {a b : Ranked} (ha : q.Perm (a :: q1)) (hb : q1.Perm (b :: q2)) :
    q.Perm (a :: b :: q2) := ha.trans (hb.cons a)

/-! ### The arena grows by Nodes only -/

section
variable {q : List Ranked} {arena final : List Node} {root : Nat}

theorem Merges.exists_append (h : Merges q arena final root) :
    ∃ added, final = arena ++ added ∧ ∀ n ∈ added, n.leaf = false := by
  induction h with
  | last x arena => exact ⟨[], (List.append_nil _).symm, fun n hn => absurd hn List.not_mem_nil⟩
  | join a b n _ _ _ _ joined _ ih =>
    obtain ⟨added, rfl, hadded⟩ := ih
    exact ⟨n :: added, by rw [List.append_assoc, List.singleton_append], List.forall_mem_cons.mpr ⟨joined.1, hadded⟩⟩

theorem Merges.length_eq (h : Merges q arena final root) : final.length + 1 = arena.length + q.length := by
  induction h with
  | last x arena => rfl
  | join a b n takes_a _ takes_b _ _ _ ih =>
    have hlength := (perm_cons_cons takes_a takes_b).length_eq
    simp only [List.length_append, List.length_cons, List.length_nil] at ih hlength ⊢
    omega

/-- The root is the newest Node, or the only tree of the forest. -/
theorem Merges.root_eq (h : Merges q arena final root) (hsingle : ∀ x, q = [x] → x.id + 1 = arena.length) :
    root + 1 = final.length := by
  induction h with
  | last x arena => exact hsingle x rfl
  | join a b n takes_a _ takes_b _ _ _ ih =>
    refine ih fun x hx => ?_
    obtain ⟨rfl, -⟩ := List.cons.inj hx
    rw [List.length_append, List.length_singleton]

end

/-! ### Soundness -/

theorem nodeSound_append {arena : List Node} {i : Nat} {n : Node} (h : nodeSound arena i n) (m : Node) :
    nodeSound (arena ++ [m]) i n := by
  unfold nodeSound at *
  split_ifs at * with hleaf
  · exact h
  · obtain ⟨hleft, hright, hne, hsym, a, b, ha, hb, hsum⟩ := h
    exact ⟨hleft, hright, hne, hsym, a, b, getElem?_append_of_eq_some ha m, getElem?_append_of_eq_some hb m, hsum⟩

theorem nodeSound_leafNode (arena : List Node) (i : Nat) (sym : Symbol) (f : Word) :
    nodeSound arena i (leafNode sym f) := ⟨rfl, rfl, rfl⟩

theorem hasChild_append {arena : List Node} {m : Node} {p i : Nat} :
    hasChild (arena ++ [m]) p i ↔
      hasChild arena p i ∨ p = arena.length ∧ m.leaf = false ∧ (m.left.toNat = i ∨ m.right.toNat = i) := by
  unfold hasChild
  rcases lt_trichotomy p arena.length with hp | rfl | hp
  · rw [List.getElem?_append_left hp]
    simp [hp.ne]
  · rw [List.getElem?_concat_length, List.getElem?_eq_none le_rfl]
    simp
  · rw [List.getElem?_eq_none (by simp; omega), List.getElem?_eq_none hp.le]
    simp [hp.ne']

/-- A child of a sound Node is an earlier entry. -/
theorem lt_of_hasChild {arena : List Node} (hsound : ∀ i n, arena[i]? = some n → nodeSound arena i n) {p i : Nat}
    (h : hasChild arena p i) : i < arena.length := by
  obtain ⟨n, hn, hleaf, hchild⟩ := h
  have hnode := hsound p n hn
  rw [nodeSound, hleaf, if_neg Bool.false_ne_true] at hnode
  obtain ⟨hleft, hright, -⟩ := hnode
  have hp := (List.getElem?_eq_some_iff.mp hn).1
  omega

/-- The arena of a forest: `TreeSound`, but with a tree for each member of the forest. -/
structure ForestSound (q : List Ranked) (arena : List Node) : Prop where
  roots : ∀ x ∈ q, arena[x.id]? = some x.node
  distinct : (q.map Ranked.id).Nodup
  entries : ∀ i n, arena[i]? = some n → nodeSound arena i n
  one_parent : ∀ i, i < arena.length → i ∉ q.map Ranked.id →
    ∃ p, hasChild arena p i ∧ ∀ p', hasChild arena p' i → p' = p
  roots_free : ∀ x ∈ q, ∀ p, ¬ hasChild arena p x.id

theorem ForestSound.perm {q q' : List Ranked} {arena : List Node} (h : ForestSound q arena) (hperm : q.Perm q') :
    ForestSound q' arena where
  roots x hx := h.roots x (hperm.mem_iff.mpr hx)
  distinct := (hperm.map _).nodup_iff.mp h.distinct
  entries := h.entries
  one_parent i hi hnot := h.one_parent i hi fun hmem => hnot ((hperm.map _).mem_iff.mp hmem)
  roots_free x hx := h.roots_free x (hperm.mem_iff.mpr hx)

theorem ForestSound.lt_length {q : List Ranked} {arena : List Node} (h : ForestSound q arena) {x : Ranked}
    (hx : x ∈ q) : x.id < arena.length := (List.getElem?_eq_some_iff.mp (h.roots x hx)).1

/-- The children of the new Node are the two trees of the turn. -/
theorem hasChild_join {arena : List Node} {a b : Ranked} {n : Node} (hjoins : joins n a b) {p i : Nat} :
    hasChild (arena ++ [n]) p i ↔ hasChild arena p i ∨ p = arena.length ∧ (a.id = i ∨ b.id = i) := by
  obtain ⟨hleaf, -, hleft, hright, -⟩ := hjoins
  rw [hasChild_append, hleft, hright, and_iff_right hleaf]

section
variable {q2 : List Ranked} {arena : List Node} {a b : Ranked} {n : Node}
  (h : ForestSound (a :: b :: q2) arena) (hjoins : joins n a b)
include h hjoins

theorem ForestSound.nodeSound_join : nodeSound (arena ++ [n]) arena.length n := by
  obtain ⟨hleaf, hsym, hleft, hright, hfreq, hminsym⟩ := hjoins
  have hne : a.id ≠ b.id := by
    have hdistinct := h.distinct
    simp only [List.map_cons, List.nodup_cons, List.mem_cons, not_or] at hdistinct
    exact hdistinct.1.1
  rw [nodeSound, hleaf, if_neg Bool.false_ne_true, hleft, hright]
  exact ⟨h.lt_length (by simp), h.lt_length (by simp), fun heq => hne (by rw [← hleft, ← hright, heq]), hsym, a.node,
    b.node, getElem?_append_of_eq_some (h.roots a (by simp)) n, getElem?_append_of_eq_some (h.roots b (by simp)) n,
    hfreq, hminsym⟩

theorem ForestSound.join : ForestSound (⟨arena.length, n⟩ :: q2) (arena ++ [n]) where
  roots := List.forall_mem_cons.mpr ⟨List.getElem?_concat_length, fun x hx =>
    (List.getElem?_append_left (h.lt_length (by simp [hx]))).trans (h.roots x (by simp [hx]))⟩
  distinct := by
    have hdistinct := h.distinct
    simp only [List.map_cons, List.nodup_cons] at hdistinct ⊢
    refine ⟨fun hmem => ?_, hdistinct.2.2⟩
    obtain ⟨x, hx, hid⟩ := List.mem_map.mp hmem
    exact (h.lt_length (x := x) (by simp [hx])).ne hid
  entries i m hm := by
    rcases lt_or_ge i arena.length with hi | hi
    · exact nodeSound_append (h.entries i m ((List.getElem?_append_left hi).symm.trans hm)) n
    · have hlt := (List.getElem?_eq_some_iff.mp hm).1
      rw [List.length_append, List.length_singleton] at hlt
      obtain rfl : i = arena.length := by omega
      obtain rfl : n = m := Option.some.inj (List.getElem?_concat_length.symm.trans hm)
      exact h.nodeSound_join hjoins
  one_parent i hi hnot := by
    simp only [List.length_append, List.length_singleton, List.map_cons, List.mem_cons, not_or] at hi hnot
    by_cases hchild : a.id = i ∨ b.id = i
    · have hfree : ∀ p, ¬ hasChild arena p i := by
        rcases hchild with rfl | rfl
        · exact h.roots_free a (by simp)
        · exact h.roots_free b (by simp)
      exact ⟨arena.length, (hasChild_join hjoins).mpr (Or.inr ⟨rfl, hchild⟩), fun p' hp' =>
        ((hasChild_join hjoins).mp hp').elim (fun hold => absurd hold (hfree p')) And.left⟩
    · have hold : i ∉ (a :: b :: q2).map Ranked.id := by
        simp only [List.map_cons, List.mem_cons, not_or, eq_comm (a := i)]
        exact ⟨fun heq => hchild (Or.inl heq), fun heq => hchild (Or.inr heq), hnot.2⟩
      obtain ⟨p, hp, hunique⟩ := h.one_parent i (by omega) hold
      exact ⟨p, (hasChild_join hjoins).mpr (Or.inl hp), fun p' hp' =>
        ((hasChild_join hjoins).mp hp').elim (hunique p') fun hnew => absurd hnew.2 hchild⟩
  roots_free := by
    have hdistinct := h.distinct
    simp only [List.map_cons, List.nodup_cons, List.mem_cons, not_or, List.mem_map, not_exists, not_and] at hdistinct
    obtain ⟨⟨-, ha⟩, hb, -⟩ := hdistinct
    refine List.forall_mem_cons.mpr ⟨fun p hp => ?_, fun x hx p hp => ?_⟩
    · have hlta := h.lt_length (x := a) (by simp)
      have hltb := h.lt_length (x := b) (by simp)
      rcases (hasChild_join hjoins).mp hp with hold | ⟨-, hchild⟩
      · exact absurd (lt_of_hasChild h.entries hold) (lt_irrefl _)
      · exact hchild.elim hlta.ne hltb.ne
    · rcases (hasChild_join hjoins).mp hp with hold | ⟨-, hchild⟩
      · exact h.roots_free x (by simp [hx]) p hold
      · exact hchild.elim (fun heq => ha x hx heq.symm) fun heq => hb x hx heq.symm

end

/-- Merging a sound forest gives a sound tree. -/
theorem Merges.treeSound {q : List Ranked} {arena final : List Node} {root : Nat} (h : Merges q arena final root)
    (hsound : ForestSound q arena) : TreeSound final root := by
  induction h with
  | last x arena =>
    exact {
      root_in := (List.getElem?_eq_some_iff.mp (hsound.roots x (by simp))).1
      entries := hsound.entries
      one_parent := fun i hi hne => hsound.one_parent i hi (by simpa using hne)
      root_free := hsound.roots_free x (by simp) }
  | join a b n takes_a _ takes_b _ joined _ ih =>
    exact ih ((hsound.perm (perm_cons_cons takes_a takes_b)).join joined)

theorem forestSound_forestOf (ft : Table Word) : ForestSound (forestOf (leavesOf ft)) (leavesOf ft) := by
  have hleaf : ∀ n ∈ leavesOf ft, ∃ sym f, n = leafNode sym f := fun n hn => by
    obtain ⟨e, -, rfl⟩ := List.mem_map.mp hn
    exact ⟨e.1, e.2, rfl⟩
  have hchildless : ∀ p i, ¬ hasChild (leavesOf ft) p i := fun p i ⟨n, hn, hnode, _⟩ => by
    obtain ⟨sym, f, rfl⟩ := hleaf n (List.mem_of_getElem? hn)
    simp [leafNode] at hnode
  exact {
    roots := fun x hx => mem_forestOf.mp hx
    distinct := forestOf_map_id ▸ List.nodup_range
    entries := fun i n hn => by
      obtain ⟨sym, f, rfl⟩ := hleaf n (List.mem_of_getElem? hn)
      exact nodeSound_leafNode _ i sym f
    one_parent := fun i hi hnot => absurd (forestOf_map_id ▸ List.mem_range.mpr hi) hnot
    roots_free := fun x _ p => hchildless p x.id }

/-! ### The tree as a term -/

/-- A Huffman tree as a term: the leaves carry their Symbols and frequencies. -/
inductive Shape where
  | leaf (sym : Symbol) (f : Word)
  | node (left right : Shape)

namespace Shape

/-- The leaves from left to right, as entries of a frequency table. -/
def leaves : Shape → List (Symbol × Word)
  | leaf sym f => [(sym, f)]
  | node l r => l.leaves ++ r.leaves

/-- The frequency of a tree: the sum over its leaves. -/
def weight (t : Shape) : Nat := (t.leaves.map fun e => e.2.toNat).sum

/-- The sum of the frequencies of the inner nodes. -/
def nodeWeights : Shape → Nat
  | leaf _ _ => 0
  | node l r => l.nodeWeights + r.nodeWeights + (node l r).weight

@[simp] theorem weight_leaf (sym : Symbol) (f : Word) : (leaf sym f).weight = f.toNat := by simp [weight, leaves]

@[simp] theorem weight_node (l r : Shape) : (node l r).weight = l.weight + r.weight := by simp [weight, leaves]

theorem leaves_length_pos (t : Shape) : 0 < t.leaves.length := by
  induction t with
  | leaf sym f => exact Nat.one_pos
  | node l r ihl _ => rw [leaves, List.length_append]; omega

end Shape

/-- The entry `n` is the root of the tree `t` in the arena. -/
inductive Rooted (nodes : List Node) : Node → Shape → Prop where
  | leaf (sym : Symbol) (f : Word) : Rooted nodes (leafNode sym f) (.leaf sym f)
  | node {n a b : Node} {l r : Shape} (inner : n.leaf = false) (left : nodes[n.left.toNat]? = some a)
      (right : nodes[n.right.toNat]? = some b) (rooted_left : Rooted nodes a l) (rooted_right : Rooted nodes b r)
      (freq : n.freq.toNat = a.freq.toNat + b.freq.toNat)
      (minsym : n.minsym.toNat = min a.minsym.toNat b.minsym.toNat) : Rooted nodes n (.node l r)

namespace Rooted

variable {nodes : List Node} {n : Node} {t : Shape}

theorem append (h : Rooted nodes n t) (m : Node) : Rooted (nodes ++ [m]) n t := by
  induction h with
  | leaf sym f => exact .leaf sym f
  | node inner left right _ _ freq minsym ihl ihr =>
    exact .node inner (getElem?_append_of_eq_some left m) (getElem?_append_of_eq_some right m) ihl ihr freq minsym

theorem freq_eq (h : Rooted nodes n t) : n.freq.toNat = t.weight := by
  induction h with
  | leaf sym f => rw [leafNode_freq_toNat, Shape.weight_leaf]
  | node _ _ _ _ _ freq _ ihl ihr => rw [freq, ihl, ihr, Shape.weight_node]

/-- The least symbol is that of a leaf, and no leaf has a smaller one. -/
theorem minsym_isLeast (h : Rooted nodes n t) :
    (∃ e ∈ t.leaves, n.minsym = e.1) ∧ ∀ e ∈ t.leaves, n.minsym.toNat ≤ e.1.toNat := by
  induction h with
  | leaf sym f => simp [Shape.leaves, leafNode]
  | @node n a b l r _ _ _ _ _ _ minsym ihl ihr =>
    obtain ⟨⟨ea, hea, ha⟩, hla⟩ := ihl
    obtain ⟨⟨eb, heb, hb⟩, hlb⟩ := ihr
    simp only [Shape.leaves, List.mem_append]
    refine ⟨?_, ?_⟩
    · rcases le_total a.minsym.toNat b.minsym.toNat with hle | hle
      · exact ⟨ea, Or.inl hea, (BitVec.eq_of_toNat_eq (minsym.trans (min_eq_left hle))).trans ha⟩
      · exact ⟨eb, Or.inr heb, (BitVec.eq_of_toNat_eq (minsym.trans (min_eq_right hle))).trans hb⟩
    · rintro e (he | he)
      · exact minsym.trans_le ((min_le_left _ _).trans (hla e he))
      · exact minsym.trans_le ((min_le_right _ _).trans (hlb e he))

end Rooted

/-- The sum of the frequencies of the Nodes of an arena (42_huffman_code.md R166). -/
def nodeSum (nodes : List Node) : Nat := ((nodes.filter fun n => !n.leaf).map fun n => n.freq.toNat).sum

theorem nodeSum_append (nodes : List Node) {n : Node} (h : n.leaf = false) :
    nodeSum (nodes ++ [n]) = nodeSum nodes + n.freq.toNat := by
  simp [nodeSum, h]

/-- A tree of the forest, with its shape. -/
def Grown (arena : List Node) (x : Ranked) (t : Shape) : Prop := arena[x.id]? = some x.node ∧ Rooted arena x.node t

/-- Merging keeps the leaves of the forest, and the Nodes it adds are the inner nodes of the tree. -/
theorem Merges.exists_shape {q : List Ranked} {arena final : List Node} {root : Nat} (h : Merges q arena final root)
    {ts : List Shape} (hts : List.Forall₂ (Grown arena) q ts) :
    ∃ n t, final[root]? = some n ∧ Rooted final n t ∧ t.leaves.Perm (ts.flatMap Shape.leaves) ∧
      nodeSum final + (ts.map Shape.nodeWeights).sum = nodeSum arena + t.nodeWeights := by
  induction h generalizing ts with
  | last x arena =>
    obtain ⟨t, rest, ⟨hroot, hrooted⟩, hnil, rfl⟩ := List.forall₂_cons_left_iff.mp hts
    obtain rfl := List.forall₂_nil_left_iff.mp hnil
    exact ⟨x.node, t, hroot, hrooted, by simp, by simp⟩
  | @join a b n q q1 q2 arena _ _ takes_a _ takes_b _ joined _ ih =>
    obtain ⟨inner, -, hleft, hright, hfreq, hminsym⟩ := joined
    obtain ⟨ts', hts', hperm⟩ := List.perm_comp_forall₂ (perm_cons_cons takes_a takes_b).symm hts
    obtain ⟨ta, _, ha, hrest, rfl⟩ := List.forall₂_cons_left_iff.mp hts'
    obtain ⟨tb, ts2, hb, hts2, rfl⟩ := List.forall₂_cons_left_iff.mp hrest
    have hnew : Rooted (arena ++ [n]) n (.node ta tb) :=
      .node inner (hleft ▸ getElem?_append_of_eq_some ha.1 n) (hright ▸ getElem?_append_of_eq_some hb.1 n)
        (ha.2.append n) (hb.2.append n) hfreq hminsym
    obtain ⟨m, t, hroot, hrooted, hleaves, hsum⟩ := ih (ts := .node ta tb :: ts2)
      (.cons ⟨List.getElem?_concat_length, hnew⟩ (hts2.imp fun x t hx => ⟨getElem?_append_of_eq_some hx.1 n, hx.2.append n⟩))
    refine ⟨m, t, hroot, hrooted, hleaves.trans ?_, ?_⟩
    · refine List.Perm.trans (List.Perm.of_eq ?_) (hperm.flatMap_right Shape.leaves)
      simp [Shape.leaves]
    · have hweights := (hperm.map Shape.nodeWeights).sum_eq
      have hweight := hnew.freq_eq
      simp only [List.map_cons, List.sum_cons, Shape.nodeWeights, nodeSum_append arena inner] at hsum hweights
      omega

end Sys2Proof.Machine
end

section
/-! SUPPORT. HBUILD (41_huffman_tree.md R134 to R139): the tree of a frequency table in canonical form, the results and the frame. -/

namespace Sys2Proof.Machine

/-! ### The tree of a frequency table -/

/-- `nodes` and `root` are the tree of the frequency table `ft`, merged from its leaves in the order of R134. -/
def TreeOf (ft : Table Word) (nodes : List Node) (root : Nat) : Prop :=
  Merges (forestOf (leavesOf ft)) (leavesOf ft) nodes root

theorem treeOf_buildTree {ft : Table Word} (hwf : ft.wf = true) (hne : ft ≠ []) :
    TreeOf ft (buildTree ft).1 (buildTree ft).2 := buildTree_merges hwf hne

namespace TreeOf

variable {ft : Table Word} {nodes : List Node} {root : Nat}

theorem length_eq (h : TreeOf ft nodes root) : nodes.length + 1 = 2 * ft.length := by
  have hlength := Merges.length_eq h
  rw [forestOf_length, leavesOf_length] at hlength
  omega

theorem root_eq (h : TreeOf ft nodes root) : root + 1 = nodes.length := by
  refine Merges.root_eq h fun x hx => ?_
  have hone : (leavesOf ft).length = 1 := by rw [← forestOf_length, hx, List.length_singleton]
  have hlt := (List.getElem?_eq_some_iff.mp (mem_forestOf.mp (hx ▸ List.mem_singleton_self x))).1
  omega

/-- The root is the last of at most 131071 ids. -/
theorem root_lt (h : TreeOf ft nodes root) (hwf : ft.wf = true) : root < 2 ^ 17 := by
  have hlength := h.length_eq
  have hroot := h.root_eq
  have hcap := Table.length_le hwf
  omega

theorem sound (h : TreeOf ft nodes root) : TreeSound nodes root := Merges.treeSound h (forestSound_forestOf ft)

/-- The leaves come first, and only Nodes follow. -/
theorem exists_append (h : TreeOf ft nodes root) :
    ∃ added, nodes = leavesOf ft ++ added ∧ ∀ n ∈ added, n.leaf = false := Merges.exists_append h

theorem leaf_at (h : TreeOf ft nodes root) {k : Nat} {sym : Symbol} {f : Word} (hk : ft[k]? = some (sym, f)) :
    nodes[k]? = some (leafNode sym f) := by
  obtain ⟨added, rfl, -⟩ := h.exists_append
  have hlt : k < (leavesOf ft).length := by rw [leavesOf_length]; exact (List.getElem?_eq_some_iff.mp hk).1
  rw [List.getElem?_append_left hlt, leavesOf, List.getElem?_map, hk]
  rfl

theorem node_at (h : TreeOf ft nodes root) {k : Nat} (hk : ft.length ≤ k) {n : Node} (hn : nodes[k]? = some n) :
    n.leaf = false := by
  obtain ⟨added, rfl, hadded⟩ := h.exists_append
  rw [List.getElem?_append_right (leavesOf_length.trans_le hk)] at hn
  exact hadded n (List.mem_of_getElem? hn)

theorem exists_shape (h : TreeOf ft nodes root) :
    ∃ n t, nodes[root]? = some n ∧ Rooted nodes n t ∧ t.leaves.Perm ft ∧ nodeSum nodes = t.nodeWeights := by
  have hgrown : List.Forall₂ (Grown (leavesOf ft)) (forestOf (leavesOf ft)) (ft.map fun e => .leaf e.1 e.2) := by
    rw [List.forall₂_iff_get]
    refine ⟨by simp [forestOf_length], fun i hi hi' => ⟨mem_forestOf.mp (List.get_mem _ _), ?_⟩⟩
    simpa [forestOf, leavesOf] using Rooted.leaf _ _
  have hleaves : (ft.map fun e => Shape.leaf e.1 e.2).flatMap Shape.leaves = ft := by
    simp [List.flatMap_map, Shape.leaves]
  have hweights : ((ft.map fun e => Shape.leaf e.1 e.2).map Shape.nodeWeights).sum = 0 := by
    simp [Function.comp_def, Shape.nodeWeights]
  have hnodes : nodeSum (leavesOf ft) = 0 := by
    simp [nodeSum, leavesOf, List.filter_map, Function.comp_def, leafNode]
  obtain ⟨n, t, hroot, hrooted, hperm, hsum⟩ := Merges.exists_shape h hgrown
  exact ⟨n, t, hroot, hrooted, hleaves ▸ hperm, by omega⟩

/-- The root has the frequency of all leaves and the least Symbol. -/
theorem root_entry (h : TreeOf ft nodes root) :
    ∃ n, nodes[root]? = some n ∧ n.freq.toNat = (ft.map fun e => e.2.toNat).sum ∧
      (∀ e ∈ ft, n.minsym.toNat ≤ e.1.toNat) ∧ ∃ e ∈ ft, n.minsym = e.1 := by
  obtain ⟨n, t, hroot, hrooted, hperm, -⟩ := h.exists_shape
  obtain ⟨⟨e, he, hmin⟩, hle⟩ := hrooted.minsym_isLeast
  refine ⟨n, hroot, ?_, fun e he => hle e (hperm.mem_iff.mpr he), e, hperm.mem_iff.mp he, hmin⟩
  rw [hrooted.freq_eq, Shape.weight]
  exact (hperm.map fun e => e.2.toNat).sum_eq

end TreeOf

/-! ### The command -/

/-- HBUILD in IDLE with a symbol present (41_huffman_tree.md R134). -/
theorem exec_hbuild_of_idle {s : State} (h : s.st = .idle) (hne : s.ft ≠ []) :
    exec .hbuild s = .next
      { s with
        nodes := (buildTree s.ft).1, troot := BitVec.ofNat 17 (buildTree s.ft).2, tvalid := true, cvalid := false
        done := true
        res0 := BitVec.ofNat 32 (buildTree s.ft).2, res1 := BitVec.ofNat 32 s.nsym
        res2 := BitVec.ofNat 32 (buildTree s.ft).1.length, res3 := 0#32 } := by
  have hnsym : s.nsym ≠ 0 := fun hzero => hne (List.length_eq_zero_iff.mp hzero)
  rw [exec, execHbuild, idleOnly_of_idle h, if_neg hnsym]
  rfl

/-- TROOT holds the root in 17 bits. -/
theorem troot_toNat {ft : Table Word} (hwf : ft.wf = true) (hne : ft ≠ []) :
    (BitVec.ofNat 17 (buildTree ft).2).toNat = (buildTree ft).2 := by
  rw [BitVec.toNat_ofNat, Nat.mod_eq_of_lt ((treeOf_buildTree hwf hne).root_lt hwf)]

/-- Settles O30, from what merging keeps and adds. -/
theorem hbuildBuildsASoundTree : Obligations.HbuildBuildsASoundTree := by
  intro s hst hwf hne
  have htree := treeOf_buildTree hwf hne
  have hroot := htree.root_eq
  have hlength := htree.length_eq
  have hroot_eq : (buildTree s.ft).2 = 2 * s.nsym - 2 := by rw [State.nsym]; omega
  have hlength_eq : (buildTree s.ft).1.length = 2 * s.nsym - 1 := by rw [State.nsym]; omega
  obtain ⟨root, hentry, hfreq, hleast, hmin⟩ := htree.root_entry
  refine ⟨_, root, exec_hbuild_of_idle hst hne, ?_⟩
  simp only [troot_toNat hwf hne, State.tnodes]
  exact ⟨htree.sound, hlength_eq, hroot_eq, fun k sym f hk => htree.leaf_at hk, fun k n hk hn => htree.node_at hk hn,
    hentry, hfreq, hleast, hmin, by rw [hroot_eq, hlength_eq]⟩

/-- The smaller of two least symbols, either way of asking. -/
theorem joinNode_eq (a b : Ranked) :
    joinNode a b =
      { leaf := false, sym := 0#16, left := BitVec.ofNat 17 a.id, right := BitVec.ofNat 17 b.id
        freq := a.node.freq + b.node.freq
        minsym := if a.node.minsym.toNat ≤ b.node.minsym.toNat then a.node.minsym else b.node.minsym } := by
  rcases lt_trichotomy a.node.minsym.toNat b.node.minsym.toNat with hlt | heq | hgt
  · simp [joinNode, BitVec.lt_def, hlt, hlt.le]
  · simp [joinNode, BitVec.eq_of_toNat_eq heq]
  · simp [joinNode, BitVec.lt_def, hgt.not_gt, hgt.not_ge]

/-- Settles O31, from the extraction, one turn of the loop, and the loop from the leaves. -/
theorem extractionTakesTheLeastKey : Obligations.ExtractionTakesTheLeastKey := by
  refine ⟨fun q hq => exists_takeLeast hq, fun q x rest htaken => ?least, fun fuel arena =>
    ⟨joinAll_singleton fuel arena, fun q htwo => ?turn⟩, fun s hst hwf hne => ?merges⟩
  case least =>
    obtain ⟨hperm, hleast⟩ := takeLeast_spec htaken
    refine ⟨hperm, fun y hy => ?_⟩
    have hnot := hleast y hy
    rw [← BitVec.toNat_inj]
    unfold keyLess at hnot
    omega
  case turn =>
    obtain ⟨a, q1, b, q2, ha, hb⟩ := exists_two_takeLeast htwo
    exact ⟨a, q1, b, q2, joinNode a b, ha, hb, joinNode_eq a b, joinAll_of_two ha hb fuel arena⟩
  case merges =>
    refine ⟨_, exec_hbuild_of_idle hst hne, ?_⟩
    simp only [troot_toNat hwf hne]
    exact buildTree_merges hwf hne

/-- Settles O32: canonical tables with the same entries are equal, and the tree is a function of the table. -/
theorem treeDependsOnTheMappingOnly : Obligations.TreeDependsOnTheMappingOnly := by
  intro s₁ s₂ t₁ t₂ hst₁ hst₂ hwf₁ hwf₂ hne hread h₁ h₂
  have hft : s₁.ft = s₂.ft := Table.eq_of_read_eq hwf₁ hwf₂ hread
  rw [exec_hbuild_of_idle hst₁ hne] at h₁
  rw [exec_hbuild_of_idle hst₂ (hft ▸ hne), ← hft] at h₂
  obtain rfl := Host.Outcome.next.inj h₁
  obtain rfl := Host.Outcome.next.inj h₂
  exact ⟨rfl, rfl, rfl, rfl⟩

end Sys2Proof.Machine
end

section
/-! SUPPORT. The paths of a tree and the codes HGEN records for them (42_huffman_code.md R160 to R164). -/

namespace Sys2Proof.Machine

/-! ### A path as a code -/

/-- The value of a path: the bit taken at the root is the highest (10_state.md R40). -/
def pathValue (path : List Bool) : Nat := path.foldl (fun v b => 2 * v + b.toNat) 0

/-- The code of a path. -/
def pathCode (path : List Bool) : Code := ⟨BitVec.ofNat 16 path.length, pathValue path⟩

theorem pathValue_concat (path : List Bool) (b : Bool) : pathValue (path ++ [b]) = 2 * pathValue path + b.toNat := by
  simp [pathValue]

theorem pathValue_lt (path : List Bool) : pathValue path < 2 ^ path.length := by
  induction path using List.reverseRecOn with
  | nil => exact Nat.one_pos
  | append_singleton path b ih =>
    have hbit := b.toNat_lt
    rw [pathValue_concat, List.length_append, List.length_singleton, pow_succ]
    omega

/-- The bits of the value, from the highest, are the path. -/
theorem map_testBit_pathValue (path : List Bool) :
    ((List.range path.length).map fun i => (pathValue path).testBit (path.length - 1 - i)) = path := by
  induction path using List.reverseRecOn with
  | nil => rfl
  | append_singleton path b ih =>
    have hlast : (2 * pathValue path + b.toNat).testBit 0 = b := by cases b <;> simp [Nat.testBit_zero]
    have hupper : ∀ k, (2 * pathValue path + b.toNat).testBit (k + 1) = (pathValue path).testBit k := fun k => by
      have hhalf : (2 * pathValue path + b.toNat) / 2 = pathValue path := by have := b.toNat_lt; omega
      rw [Nat.testBit_succ, hhalf]
    rw [pathValue_concat, List.length_append, List.length_singleton, List.range_succ, List.map_append]
    congr 1
    · conv_rhs => rw [← ih]
      refine List.map_congr_left fun i hi => ?_
      have hlt := List.mem_range.mp hi
      rw [← hupper]
      congr 1
      omega
    · simp [hlast]

section
variable {path : List Bool} (h : path.length < 2 ^ 16)
include h

theorem pathCode_len : (pathCode path).len.toNat = path.length := Nat.mod_eq_of_lt h

theorem pathCode_bits : (pathCode path).bits = path := by
  rw [Code.bits, pathCode_len h]
  exact map_testBit_pathValue path

theorem pathCode_val_lt : (pathCode path).val < 2 ^ (pathCode path).len.toNat := by
  rw [pathCode_len h]
  exact pathValue_lt path

theorem pathCode_ne_default (hne : path ≠ []) : pathCode path ≠ ⟨0#16, 0⟩ := by
  intro heq
  have hlen := pathCode_len h
  rw [heq] at hlen
  exact hne (List.length_eq_zero_iff.mp hlen.symm)

end

/-! ### The paths of a tree -/

namespace Shape

/-- The paths to the leaves, from the root reached by `p`. -/
def paths : Shape → List Bool → List (Symbol × List Bool)
  | leaf sym _, p => [(sym, p)]
  | node l r, p => l.paths (p ++ [false]) ++ r.paths (p ++ [true])

/-- The paths HGEN records: that of a bare leaf is "0" (42_huffman_code.md R162). -/
def codePaths : Shape → List (Symbol × List Bool)
  | leaf sym _ => [(sym, [false])]
  | node l r => (node l r).paths []

theorem paths_symbols (t : Shape) (p : List Bool) : (t.paths p).map Prod.fst = t.leaves.map Prod.fst := by
  induction t generalizing p with
  | leaf sym f => rfl
  | node l r ihl ihr => simp only [paths, leaves, List.map_append, ihl, ihr]

theorem codePaths_symbols (t : Shape) : t.codePaths.map Prod.fst = t.leaves.map Prod.fst := by
  cases t with
  | leaf sym f => rfl
  | node l r => exact paths_symbols (node l r) []

/-- Every path starts with that of the root, and is shorter than the tree has leaves. -/
theorem mem_paths {t : Shape} {p : List Bool} {e : Symbol × List Bool} (h : e ∈ t.paths p) :
    ∃ w, e.2 = p ++ w ∧ w.length < t.leaves.length := by
  induction t generalizing p with
  | leaf sym f =>
    obtain rfl := List.mem_singleton.mp h
    exact ⟨[], by simp, Nat.one_pos⟩
  | node l r ihl ihr =>
    have hl := l.leaves_length_pos
    have hr := r.leaves_length_pos
    simp only [leaves, List.length_append]
    rcases List.mem_append.mp h with h | h
    · obtain ⟨w, hw, hlt⟩ := ihl h
      exact ⟨false :: w, by simp [hw], by simp only [List.length_cons]; omega⟩
    · obtain ⟨w, hw, hlt⟩ := ihr h
      exact ⟨true :: w, by simp [hw], by simp only [List.length_cons]; omega⟩

theorem codePaths_length {t : Shape} {e : Symbol × List Bool} (h : e ∈ t.codePaths) :
    e.2 ≠ [] ∧ e.2.length ≤ max 1 (t.leaves.length - 1) := by
  cases t with
  | leaf sym f =>
    obtain rfl := List.mem_singleton.mp h
    exact ⟨List.cons_ne_nil _ _, le_max_left _ _⟩
  | node l r =>
    obtain ⟨w, hw, hlt⟩ := mem_paths h
    refine ⟨fun hnil => ?_, le_max_of_le_right (by rw [hw, List.nil_append]; omega)⟩
    rcases List.mem_append.mp h with h | h <;>
    · obtain ⟨w, hw, -⟩ := mem_paths h
      simp [hw] at hnil

/-- No path continues another one: where two paths part, one goes left and one right (42_huffman_code.md R164). -/
theorem paths_prefix_free {t : Shape} {p : List Bool} {e₁ e₂ : Symbol × List Bool} (h₁ : e₁ ∈ t.paths p)
    (h₂ : e₂ ∈ t.paths p) (hprefix : e₁.2 <+: e₂.2) : e₁ = e₂ := by
  induction t generalizing p with
  | leaf sym f => exact (List.mem_singleton.mp h₁).trans (List.mem_singleton.mp h₂).symm
  | node l r ihl ihr =>
    rcases List.mem_append.mp h₁ with hl₁ | hr₁ <;> rcases List.mem_append.mp h₂ with hl₂ | hr₂
    · exact ihl hl₁ hl₂
    · obtain ⟨w₁, hw₁, -⟩ := mem_paths hl₁
      obtain ⟨w₂, hw₂, -⟩ := mem_paths hr₂
      simp [hw₁, hw₂, List.prefix_append_right_inj] at hprefix
    · obtain ⟨w₁, hw₁, -⟩ := mem_paths hr₁
      obtain ⟨w₂, hw₂, -⟩ := mem_paths hl₂
      simp [hw₁, hw₂, List.prefix_append_right_inj] at hprefix
    · exact ihr hr₁ hr₂

theorem codePaths_prefix_free {t : Shape} {e₁ e₂ : Symbol × List Bool} (h₁ : e₁ ∈ t.codePaths)
    (h₂ : e₂ ∈ t.codePaths) (hprefix : e₁.2 <+: e₂.2) : e₁ = e₂ := by
  cases t with
  | leaf sym f => exact (List.mem_singleton.mp h₁).trans (List.mem_singleton.mp h₂).symm
  | node l r => exact paths_prefix_free h₁ h₂ hprefix

/-- The weighted length counts every frequency once for each inner node above its leaf (42_huffman_code.md R166). -/
theorem sum_weighted_paths {t : Shape} {p : List Bool} {len : Symbol → Nat}
    (h : ∀ e ∈ t.paths p, len e.1 = e.2.length) :
    (t.leaves.map fun e => e.2.toNat * len e.1).sum = t.nodeWeights + t.weight * p.length := by
  induction t generalizing p with
  | leaf sym f => simp [leaves, nodeWeights, h (sym, p) (List.mem_singleton_self _)]
  | node l r ihl ihr =>
    have hl := ihl fun e he => h e (List.mem_append_left _ he)
    have hr := ihr fun e he => h e (List.mem_append_right _ he)
    simp only [leaves, List.map_append, List.sum_append, hl, hr, nodeWeights, weight_node, List.length_append,
      List.length_singleton]
    ring

end Shape

/-! ### The walk of HGEN -/

namespace Rooted

variable {nodes : List Node} {n : Node} {t : Shape}

/-- The walk records the code of every path; as many turns as the tree has leaves are enough. -/
theorem walk_eq (h : Rooted nodes n t) {i fuel : Nat} (hi : nodes[i]? = some n) (hfuel : t.leaves.length ≤ fuel)
    (p : List Bool) :
    walk nodes fuel i p.length (pathValue p) = some ((t.paths p).map fun e => (e.1, pathCode e.2)) := by
  induction h generalizing i fuel p with
  | leaf sym f =>
    obtain ⟨fuel, rfl⟩ := Nat.exists_eq_succ_of_ne_zero (Nat.ne_of_gt hfuel)
    simp only [walk, hi]
    rfl
  | @node n a b l r inner left right _ _ _ _ ihl ihr =>
    have hl := l.leaves_length_pos
    have hr := r.leaves_length_pos
    rw [Shape.leaves, List.length_append] at hfuel
    obtain ⟨fuel, rfl⟩ := Nat.exists_eq_succ_of_ne_zero (n := fuel) (by omega)
    have hleft := ihl left (fuel := fuel) (by omega) (p ++ [false])
    have hright := ihr right (fuel := fuel) (by omega) (p ++ [true])
    simp only [pathValue_concat, List.length_append, List.length_singleton, Bool.toNat_false, Bool.toNat_true,
      Nat.add_zero] at hleft hright
    simp only [walk, hi, inner, hleft, hright, Shape.paths, List.map_append, Bool.false_eq_true, if_false]

theorem leafCodes_eq (h : Rooted nodes n t) {root : Nat} (hroot : nodes[root]? = some n)
    (hfuel : t.leaves.length ≤ nodes.length) :
    leafCodes nodes root = some (t.codePaths.map fun e => (e.1, pathCode e.2)) := by
  cases h with
  | leaf sym f =>
    simp only [leafCodes, hroot]
    rfl
  | node inner left right hl hr freq minsym =>
    have hwalk := (Rooted.node inner left right hl hr freq minsym).walk_eq hroot hfuel []
    simp only [leafCodes, hroot, inner, Bool.false_eq_true, if_false]
    exact hwalk

/-- The bits of a path lead from the root to the leaf of its symbol. -/
theorem follow_path (h : Rooted nodes n t) {i : Nat} (hi : nodes[i]? = some n) {p : List Bool}
    {e : Symbol × List Bool} (he : e ∈ t.paths p) :
    ∃ w j f, e.2 = p ++ w ∧ follow nodes i w = some j ∧ nodes[j]? = some (leafNode e.1 f) ∧ (e.1, f) ∈ t.leaves := by
  induction h generalizing i p with
  | leaf sym f =>
    obtain rfl := List.mem_singleton.mp he
    exact ⟨[], i, f, (List.append_nil _).symm, rfl, hi, List.mem_singleton_self _⟩
  | node inner left right _ _ _ _ ihl ihr =>
    rcases List.mem_append.mp he with he | he
    · obtain ⟨w, j, f, hw, hfollow, hleaf, hmem⟩ := ihl left he
      refine ⟨false :: w, j, f, by simp [hw], ?_, hleaf, List.mem_append_left _ hmem⟩
      simpa [follow, hi, inner] using hfollow
    · obtain ⟨w, j, f, hw, hfollow, hleaf, hmem⟩ := ihr right he
      refine ⟨true :: w, j, f, by simp [hw], ?_, hleaf, List.mem_append_right _ hmem⟩
      simpa [follow, hi, inner] using hfollow

end Rooted

/-! ### The code table -/

/-- CT filled with codes of distinct symbols lists exactly these. -/
theorem read_tableOf_iff {codes : List (Symbol × Code)} (hnodup : (codes.map Prod.fst).Nodup)
    (hcodes : ∀ e ∈ codes, e.2 ≠ ⟨0#16, 0⟩) {k : Symbol} {c : Code} :
    (tableOf codes).read k = some c ↔ (k, c) ∈ codes := by
  have hfill : ∀ ct : Table Code, (codes.foldl (fun ct e => ctWrite ct e.1 e.2) ct).read k = some c ↔
      (k, c) ∈ codes ∨ k ∉ codes.map Prod.fst ∧ ct.read k = some c := by
    induction codes with
    | nil => simp
    | cons e rest ih =>
      obtain ⟨j, c'⟩ := e
      obtain ⟨hj, hnodup⟩ := List.nodup_cons.mp hnodup
      obtain ⟨hne, hrest⟩ := List.forall_mem_cons.mp hcodes
      intro ct
      rw [List.foldl_cons, ih hnodup hrest, ctWrite, Code.listed, if_neg hne]
      by_cases heq : k = j
      · subst heq
        have hnot : (k, c) ∉ rest := fun hmem => hj (List.mem_map.mpr ⟨_, hmem, rfl⟩)
        rw [Table.read_write_same]
        simp [hnot, hj, eq_comm]
      · rw [Table.read_write_other _ _ _ _ heq]
        simp [heq]
  exact (hfill []).trans (by simp)

/-- The code table `ct` of a tree `t` over the symbols of `ft`: it lists the code of every path and nothing else. -/
structure CodedBy (ft : Table Word) (ct : Table Code) (t : Shape) : Prop where
  leaves : t.leaves.Perm ft
  read : ∀ k c, ct.read k = some c ↔ ∃ path, (k, path) ∈ t.codePaths ∧ pathCode path = c
  short : ∀ e ∈ t.codePaths, e.2.length < 2 ^ 16

section
variable {ft : Table Word} {nodes : List Node} {root : Nat} {ct : Table Code} {t : Shape}

/-- HGEN's walk answers on the tree of a frequency table, and fills CT with the codes of its paths. -/
theorem TreeOf.exists_coded (h : TreeOf ft nodes root) (hwf : ft.wf = true) :
    ∃ n t, nodes[root]? = some n ∧ Rooted nodes n t ∧ nodeSum nodes = t.nodeWeights ∧
      ∃ ct, codeTable nodes root = some ct ∧ CodedBy ft ct t := by
  obtain ⟨n, t, hroot, hrooted, hperm, hsum⟩ := h.exists_shape
  have hleaves := hperm.length_eq
  have hlength := h.length_eq
  have hcap := Table.length_le hwf
  have hpos := t.leaves_length_pos
  have hshort : ∀ e ∈ t.codePaths, e.2.length < 2 ^ 16 := fun e he => by
    have := (Shape.codePaths_length he).2
    omega
  refine ⟨n, t, hroot, hrooted, hsum, _, by rw [codeTable, hrooted.leafCodes_eq hroot (by omega)], hperm,
    fun k c => ?_, hshort⟩
  have hnodup : ((t.codePaths.map fun e => (e.1, pathCode e.2)).map Prod.fst).Nodup := by
    have hsymbols : (t.codePaths.map fun e => (e.1, pathCode e.2)).map Prod.fst = t.leaves.map Prod.fst := by
      rw [List.map_map, ← t.codePaths_symbols]
      rfl
    exact hsymbols ▸ (hperm.map Prod.fst).nodup_iff.mpr (Table.nodup_symbols hwf)
  have hcodes : ∀ e ∈ t.codePaths.map (fun e => (e.1, pathCode e.2)), e.2 ≠ ⟨0#16, 0⟩ := fun e he => by
    obtain ⟨path, hpath, rfl⟩ := List.mem_map.mp he
    exact pathCode_ne_default (hshort path hpath) (Shape.codePaths_length hpath).1
  rw [read_tableOf_iff hnodup hcodes]
  simp

namespace CodedBy

variable (h : CodedBy ft ct t)
include h

theorem ctEntry_eq {k : Symbol} {path : List Bool} (hpath : (k, path) ∈ t.codePaths) : ctEntry ct k = pathCode path := by
  rw [ctEntry, (h.read k _).mpr ⟨path, hpath, rfl⟩, Option.getD_some]

theorem exists_path {k : Symbol} {f : Word} (hk : (k, f) ∈ ft) : ∃ path, (k, path) ∈ t.codePaths := by
  have hmem : k ∈ t.codePaths.map Prod.fst :=
    t.codePaths_symbols ▸ List.mem_map_of_mem (f := Prod.fst) (h.leaves.mem_iff.mpr hk)
  obtain ⟨⟨j, path⟩, hpath, rfl⟩ := List.mem_map.mp hmem
  exact ⟨path, hpath⟩

theorem ctEntry_of_absent {k : Symbol} (hk : ft.read k = none) : ctEntry ct k = ⟨0#16, 0⟩ := by
  cases hread : ct.read k with
  | none => rw [ctEntry, hread, Option.getD_none]
  | some c =>
    obtain ⟨path, hpath, -⟩ := (h.read k c).mp hread
    have hmem : k ∈ t.leaves.map Prod.fst := t.codePaths_symbols ▸ List.mem_map_of_mem (f := Prod.fst) hpath
    obtain ⟨e, he, rfl⟩ := List.mem_map.mp hmem
    exact absurd rfl (Table.read_eq_none_iff.mp hk e (h.leaves.mem_iff.mp he))

/-- A listed code has a bit, and its value fits (10_state.md R40). -/
theorem listed {k : Symbol} {c : Code} (hread : ct.read k = some c) : 0 < c.len.toNat ∧ c.val < 2 ^ c.len.toNat := by
  obtain ⟨path, hpath, rfl⟩ := (h.read k c).mp hread
  have hshort := h.short _ hpath
  refine ⟨?_, pathCode_val_lt hshort⟩
  rw [pathCode_len hshort]
  exact List.length_pos_iff.mpr (Shape.codePaths_length hpath).1

end CodedBy

end

end Sys2Proof.Machine
end

section
/-! SUPPORT. HGEN (42_huffman_code.md R160 to R166): its results, and what it leaves in a state of the invariant. -/

namespace Sys2Proof.Machine

/-! ### The results -/

section
variable {ft : Table Word} {nodes : List Node} {root : Nat}

theorem TreeOf.arenaLeaves_eq (h : TreeOf ft nodes root) : arenaLeaves nodes = leavesOf ft := by
  obtain ⟨added, rfl, hadded⟩ := h.exists_append
  have hnone : added.filter (fun n => n.leaf) = [] := List.filter_eq_nil_iff.mpr fun n hn => by simp [hadded n hn]
  have hall : (leavesOf ft).filter (fun n => n.leaf) = leavesOf ft := List.filter_eq_self.mpr fun n hn => by
    obtain ⟨e, -, rfl⟩ := List.mem_map.mp hn
    rfl
  rw [arenaLeaves, List.filter_append, hall, hnone, List.append_nil]

/-- MAXLEN is the greatest length of a code (42_huffman_code.md R160). -/
theorem TreeOf.maxLen_mem (h : TreeOf ft nodes root) (hne : ft ≠ []) (ct : Table Code) :
    (∃ e ∈ ft, (ctEntry ct e.1).len.toNat = maxLen nodes ct) ∧
      ∀ e ∈ ft, (ctEntry ct e.1).len.toNat ≤ maxLen nodes ct := by
  have hfold : maxLen nodes ct = (ft.map fun e => (ctEntry ct e.1).len.toNat).foldl max 0 := by
    rw [maxLen, h.arenaLeaves_eq, leavesOf, List.foldl_map, List.foldl_map]
    rfl
  obtain ⟨g, hg⟩ : ∃ g, (ft.map fun e => (ctEntry ct e.1).len.toNat).max? = some g :=
    Option.ne_none_iff_exists'.mp fun hnone => hne (List.map_eq_nil_iff.mp (List.max?_eq_none_iff.mp hnone))
  rw [hfold, List.foldl_max, hg, Option.getD_some, Nat.zero_max]
  obtain ⟨hmem, hle⟩ := List.max?_eq_some_iff.mp hg
  exact ⟨List.mem_map.mp hmem, fun e he => hle _ (List.mem_map_of_mem he)⟩

theorem TreeOf.weightedSum_eq (h : TreeOf ft nodes root) (ct : Table Code) :
    weightedSum nodes ct = (ft.map fun e => e.2.toNat * (ctEntry ct e.1).len.toNat).sum := by
  rw [weightedSum, h.arenaLeaves_eq, leavesOf, List.foldl_map, List.sum_eq_foldl, List.foldl_map]
  simp only [leafNode_freq_toNat]
  rfl

/-- The weighted length of at most 65536 symbols fits 64 bits (42_huffman_code.md R163). -/
theorem TreeOf.weightedSum_lt (h : TreeOf ft nodes root) (hwf : ft.wf = true) (ct : Table Code) :
    weightedSum nodes ct < 2 ^ 64 := by
  have hbound : weightedSum nodes ct ≤ ft.length * ((2 ^ 32 - 1) * (2 ^ 16 - 1)) := by
    rw [h.weightedSum_eq]
    refine (List.sum_le_card_nsmul _ ((2 ^ 32 - 1) * (2 ^ 16 - 1)) fun x hx => ?_).trans
      (by rw [List.length_map, smul_eq_mul])
    obtain ⟨e, -, rfl⟩ := List.mem_map.mp hx
    exact Nat.mul_le_mul (Nat.le_sub_one_of_lt e.2.isLt) (Nat.le_sub_one_of_lt (ctEntry ct e.1).len.isLt)
  have hlength := Table.length_le hwf
  omega

end

/-- The two words of WSUM are its 64 bits. -/
theorem wsum_words (w : BitVec 64) : w.extractLsb' 32 32 ++ w.extractLsb' 0 32 = w := by
  rw [BitVec.extractLsb'_append_extractLsb'_eq_extractLsb' (by rfl)]
  exact BitVec.extractLsb'_eq_self

/-! ### The command -/

/-- HGEN in IDLE with a valid tree (42_huffman_code.md R160). -/
theorem exec_hgen_of_tree {s : State} (h : s.st = .idle) (htree : s.tvalid = true) {ct : Table Code}
    (hct : codeTable s.nodes s.troot.toNat = some ct) :
    exec .hgen s = .next
      { s with
        ct := ct, cvalid := true, done := true
        res0 := BitVec.ofNat 32 (maxLen s.nodes ct), res1 := BitVec.ofNat 32 (arenaLeaves s.nodes).length
        res2 := (BitVec.ofNat 64 (weightedSum s.nodes ct)).extractLsb' 0 32
        res3 := (BitVec.ofNat 64 (weightedSum s.nodes ct)).extractLsb' 32 32 } := by
  rw [exec, execHgen, idleOnly_of_idle h, htree, if_pos rfl, hct]
  rfl

/-- A valid tree is the tree of the current frequency table (10_state.md R39). -/
theorem MachineInv.treeOf {s : State} (h : MachineInv s) (htree : s.tvalid = true) :
    s.ft ≠ [] ∧ TreeOf s.ft s.nodes s.troot.toNat := by
  obtain ⟨hne, hnodes, hroot⟩ := h.tree_current htree
  refine ⟨hne, ?_⟩
  rw [hnodes, hroot, troot_toNat h.ft_canonical hne]
  exact treeOf_buildTree h.ft_canonical hne

/-- What HGEN finds and leaves in a state of the invariant. -/
theorem MachineInv.exists_hgen {s : State} (h : MachineInv s) (hst : s.st = .idle) (htree : s.tvalid = true) :
    ∃ n t ct, s.nodes[s.troot.toNat]? = some n ∧ Rooted s.nodes n t ∧ nodeSum s.nodes = t.nodeWeights ∧
      codeTable s.nodes s.troot.toNat = some ct ∧ CodedBy s.ft ct t ∧
      exec .hgen s = .next
        { s with
          ct := ct, cvalid := true, done := true
          res0 := BitVec.ofNat 32 (maxLen s.nodes ct), res1 := BitVec.ofNat 32 (arenaLeaves s.nodes).length
          res2 := (BitVec.ofNat 64 (weightedSum s.nodes ct)).extractLsb' 0 32
          res3 := (BitVec.ofNat 64 (weightedSum s.nodes ct)).extractLsb' 32 32 } := by
  obtain ⟨n, t, hroot, hrooted, hsum, ct, hct, hcoded⟩ := (h.treeOf htree).2.exists_coded h.ft_canonical
  exact ⟨n, t, ct, hroot, hrooted, hsum, hct, hcoded, exec_hgen_of_tree hst htree hct⟩

/-- Settles O34, from the paths of the tree and the bits of their codes. -/
theorem hgenRecordsThePaths : Obligations.HgenRecordsThePaths := by
  intro s hinv hst htree
  obtain ⟨n, t, ct, hroot, hrooted, -, -, hcoded, hexec⟩ := hinv.exists_hgen hst htree
  refine ⟨_, hexec, fun sym hsym => hcoded.ctEntry_of_absent hsym, fun sym f hsym htwo => ?path, fun sym f hsym => ?fits,
    rfl⟩
  all_goals
    have hmem := (Table.read_eq_some_iff hinv.ft_canonical).mp hsym
    obtain ⟨path, hpath⟩ := hcoded.exists_path hmem
    have hshort : path.length < 2 ^ 16 := hcoded.short _ hpath
  case fits =>
    exact hcoded.listed ((hcoded.read sym _).mpr ⟨path, hpath, (hcoded.ctEntry_eq hpath).symm⟩)
  case path =>
    rw [hcoded.ctEntry_eq hpath, pathCode_bits hshort]
    cases t with
    | leaf sym' f' =>
      have hone : 1 = s.ft.length := hcoded.leaves.length_eq
      rw [State.nsym] at htwo
      omega
    | node l r =>
      obtain ⟨w, j, f', hw, hfollow, hleaf, hmem'⟩ := hrooted.follow_path hroot hpath
      obtain rfl : f' = f := by
        have hread := (Table.read_eq_some_iff hinv.ft_canonical).mpr (hcoded.leaves.mem_iff.mp hmem')
        exact Option.some.inj (hread.symm.trans hsym)
      obtain rfl : path = w := hw
      exact ⟨j, hfollow, hleaf⟩

/-- Settles O35: the codes are the paths of the tree, which part at a Node. -/
theorem codeTableIsPrefixFree : Obligations.CodeTableIsPrefixFree := by
  intro s u hinv hst htree hexec a b hne ha hb hprefix
  obtain ⟨n, t, ct, -, -, -, -, hcoded, hgen⟩ := hinv.exists_hgen hst htree
  obtain rfl := Host.Outcome.next.inj (hgen.symm.trans hexec)
  have hpath : ∀ {k}, (s.ft.read k).isSome = true → ∃ path, (k, path) ∈ t.codePaths ∧ (ctEntry ct k).bits = path := by
    intro k hk
    obtain ⟨f, hf⟩ := Option.isSome_iff_exists.mp hk
    obtain ⟨path, hmem⟩ := hcoded.exists_path ((Table.read_eq_some_iff hinv.ft_canonical).mp hf)
    exact ⟨path, hmem, by rw [hcoded.ctEntry_eq hmem, pathCode_bits (hcoded.short _ hmem)]⟩
  obtain ⟨pa, hpa, hbitsa⟩ := hpath ha
  obtain ⟨pb, hpb, hbitsb⟩ := hpath hb
  simp only [hbitsa, hbitsb] at hprefix
  exact hne (congrArg Prod.fst (Shape.codePaths_prefix_free hpa hpb hprefix))

/-- RES3:RES2 after HGEN is the exact weighted length. -/
theorem TreeOf.wsum_toNat {ft : Table Word} {nodes : List Node} {root : Nat} (h : TreeOf ft nodes root)
    (hwf : ft.wf = true) (ct : Table Code) :
    ((BitVec.ofNat 64 (weightedSum nodes ct)).extractLsb' 32 32 ++
      (BitVec.ofNat 64 (weightedSum nodes ct)).extractLsb' 0 32).toNat = weightedSum nodes ct := by
  rw [wsum_words, BitVec.toNat_ofNat, Nat.mod_eq_of_lt (h.weightedSum_lt hwf ct)]

/-- Settles O36, from the greatest length, the leaves of the arena and the weighted length. -/
theorem hgenResults : Obligations.HgenResults := by
  intro s hinv hst htree
  obtain ⟨n, t, ct, -, -, -, -, -, hexec⟩ := hinv.exists_hgen hst htree
  obtain ⟨hne, htreeOf⟩ := hinv.treeOf htree
  obtain ⟨⟨e, he, hmax⟩, hle⟩ := htreeOf.maxLen_mem hne ct
  have hfits : maxLen s.nodes ct < 2 ^ 32 := by
    have := (ctEntry ct e.1).len.isLt
    omega
  have hcap := Table.length_le hinv.ft_canonical
  refine ⟨_, hexec, ?_⟩
  simp only [BitVec.toNat_ofNat, Nat.mod_eq_of_lt hfits, htreeOf.arenaLeaves_eq, leavesOf_length, State.nsym,
    htreeOf.wsum_toNat hinv.ft_canonical]
  exact ⟨hle, ⟨e, he, hmax⟩, Nat.mod_eq_of_lt (by omega), htreeOf.weightedSum_eq ct⟩

/-- Settles O37: a frequency is counted once for each bit of its code, and each bit stands for a Node above the leaf. -/
theorem weightedLengthIsTheSumOfNodes : Obligations.WeightedLengthIsTheSumOfNodes := by
  intro s u hinv hst htree htwo hexec
  obtain ⟨n, t, ct, -, -, hsum, -, hcoded, hgen⟩ := hinv.exists_hgen hst htree
  obtain ⟨-, htreeOf⟩ := hinv.treeOf htree
  obtain rfl := Host.Outcome.next.inj (hgen.symm.trans hexec)
  rw [htreeOf.wsum_toNat hinv.ft_canonical, htreeOf.weightedSum_eq]
  refine Eq.trans ?_ hsum.symm
  cases t with
  | leaf sym f =>
    have hone : 1 = s.ft.length := hcoded.leaves.length_eq
    rw [State.nsym] at htwo
    omega
  | node l r =>
    have hlen : ∀ e ∈ (Shape.node l r).paths [], (ctEntry ct e.1).len.toNat = e.2.length := fun e he => by
      rw [hcoded.ctEntry_eq he, pathCode_len (hcoded.short e he)]
    calc (s.ft.map fun e => e.2.toNat * (ctEntry ct e.1).len.toNat).sum
        = ((Shape.node l r).leaves.map fun e => e.2.toNat * (ctEntry ct e.1).len.toNat).sum :=
          (hcoded.leaves.map _).symm.sum_eq
      _ = (Shape.node l r).nodeWeights + (Shape.node l r).weight * [].length :=
          Shape.sum_weighted_paths (len := fun k => (ctEntry ct k).len.toNat) hlen
      _ = (Shape.node l r).nodeWeights := by rw [List.length_nil, Nat.mul_zero, Nat.add_zero]

/-! ### A single symbol -/

/-- Settles O38, by running HBUILD and HGEN on the one leaf. -/
theorem singleSymbolGetsOneBit : Obligations.SingleSymbolGetsOneBit := by
  intro s sym f hst hft
  have hbuild := exec_hbuild_of_idle hst (hft ▸ List.cons_ne_nil _ _)
  have htree : buildTree s.ft = ([leafNode sym f], 0) := by rw [hft]; rfl
  rw [htree] at hbuild
  have hct : codeTable [leafNode sym f] 0 = some [(sym, ⟨1#16, 0⟩)] := rfl
  have hlen : ctEntry [(sym, ⟨1#16, 0⟩)] sym = ⟨1#16, 0⟩ := by simp [ctEntry, Table.read]
  have hwsum : weightedSum [leafNode sym f] [(sym, ⟨1#16, 0⟩)] = f.toNat := by
    have hterm : weightedSum [leafNode sym f] [(sym, ⟨1#16, 0⟩)] =
        0 + (leafNode sym f).freq.toNat * (ctEntry [(sym, ⟨1#16, 0⟩)] sym).len.toNat := rfl
    rw [hterm, hlen, leafNode_freq_toNat]
    exact (Nat.zero_add _).trans (Nat.mul_one _)
  have hmax : maxLen [leafNode sym f] [(sym, ⟨1#16, 0⟩)] = 1 := by
    have hterm : maxLen [leafNode sym f] [(sym, ⟨1#16, 0⟩)] =
        max 0 (ctEntry [(sym, ⟨1#16, 0⟩)] sym).len.toNat := rfl
    rw [hterm, hlen]
    rfl
  refine ⟨_, _, hbuild, exec_hgen_of_tree (by exact hst) rfl (by exact hct), rfl, rfl, rfl, rfl, hlen, fun k hk => ?_, ?_, rfl, ?_, ?_⟩
  · simp [ctEntry, Table.read, hk.symm]
  · simp only [hmax]
  · apply BitVec.eq_of_toNat_eq
    simp only [hwsum, BitVec.extractLsb'_toNat, BitVec.toNat_ofNat, Nat.shiftRight_zero]
    omega
  · apply BitVec.eq_of_toNat_eq
    simp only [hwsum, BitVec.extractLsb'_toNat, BitVec.toNat_ofNat, Nat.shiftRight_eq_div_pow]
    omega

end Sys2Proof.Machine
end

section
/-! SUPPORT. The invariant of the machine (10_state.md R23, R36 to R47): every operation from a state of the invariant answers a next state of the invariant. -/

namespace Sys2Proof.Machine

/-- The answer is a next state of the invariant: neither a fault nor a refusal. -/
def Sound (a : Answer) : Prop := ∃ t, a = .next t ∧ MachineInv t

theorem Sound.next {t : State} (h : MachineInv t) : Sound (.next t) := ⟨t, rfl, h⟩

/-- Settles O58: the tables, the dictionary and the queues are empty, and every flag is 0. -/
theorem invariantHoldsAtReset : Obligations.InvariantHoldsAtReset where
  ft_canonical := rfl
  ct_canonical := rfl
  ct_codes _ _ h := by cases h
  tree_current h := by cases h
  table_current h := by cases h
  dict_falls := rfl
  dict_capped := by decide
  cur_assigned h := by cases h
  prev_assigned h := by cases h
  hascur_state h := by cases h
  hasprev_state h := by cases h
  havelo_state h := by cases h
  error_code := by decide
  error_info _ := rfl
  inq_bounded := Nat.zero_le _
  outq_bounded := Nat.zero_le _

/-- In IDLE and ERROR the core takes no beat (45_sequencer.md R246). -/
theorem consume_of_no_session {s : State} (h : ¬ s.st.inSession = true) (b : InBeat) : consume b s = .next s := by
  cases hst : s.st
  case idle | error => simp only [consume, hst]
  all_goals simp [hst, SeqState.inSession] at h

theorem machineInv_resetCore (s : State) : MachineInv s.resetCore :=
  { invariantHoldsAtReset with inq_bounded := Nat.zero_le _, outq_bounded := Nat.zero_le _ }

theorem codeTable_wf {nodes : List Node} {root : Nat} {ct : Table Code} (h : codeTable nodes root = some ct) :
    ct.wf = true := by
  unfold codeTable at h
  cases hcodes : leafCodes nodes root with
  | none => simp [hcodes] at h
  | some codes =>
    rw [hcodes] at h
    exact Option.some.inj h ▸ tableOf_wf codes

/-- A base code is below NEXT. -/
theorem State.setWidth_lt_next (s : State) (b : Byte) : (b.setWidth 16 : LzwCode).toNat < s.next := by
  have hb := b.isLt
  have hnext : s.next = 256 + s.dict.length := rfl
  rw [BitVec.toNat_setWidth]
  omega

namespace MachineInv

variable {s : State}

/-! ### Errors and the legality of a command -/

theorem errorEntry (h : MachineInv s) {code : ErrCode} (hcode : code ≠ .none) (info : Word) :
    MachineInv (s.errorEntry code info) := by
  have hrecorded : ∀ emit : List OutBeat,
      MachineInv { s with emit := emit, st := .error, errcode := code, errinfo := info } := fun emit =>
    { h with
      hascur_state := fun _ => Or.inr rfl
      hasprev_state := fun _ => Or.inr rfl
      havelo_state := fun _ => Or.inr (Or.inr rfl)
      error_code := iff_of_true hcode rfl
      error_info := fun hne => absurd rfl hne }
  by_cases herror : s.st = .error
  · rwa [State.errorEntry_of_error herror]
  · by_cases hidle : s.st = .idle
    · rw [State.errorEntry_of_idle hidle]
      exact hrecorded s.emit
    · rw [State.errorEntry_of_session ((SeqState.inSession_iff _).mpr ⟨hidle, herror⟩)]
      exact hrecorded _

theorem sound_raise (h : MachineInv s) {code : ErrCode} (hcode : code ≠ .none) (info : Word) :
    Sound (raise code info s) := .next (h.errorEntry hcode info)

/-- A command legal in IDLE only is error entry in a session and discarded in ERROR. -/
theorem sound_idleCommand (h : MachineInv s) {i : Instr} (hi : idleCommand i = true)
    (hidle : s.st = .idle → Sound (exec i s)) : Sound (exec i s) := by
  obtain ⟨body, hbody⟩ := exec_eq_idleOnly hi s
  obtain ⟨hst, -⟩ | ⟨-, heq⟩ | ⟨-, heq⟩ := idleOnly_cases s body
  · exact hidle hst
  · rw [hbody, heq]
    exact .next h
  · rw [hbody, heq]
    exact .next (h.errorEntry (by decide) _)

/-- The recorded error outside ERROR. -/
theorem errcode_eq (h : MachineInv s) (hst : s.st ≠ .error) : s.errcode = .none :=
  not_not.mp fun hne => hst (h.error_code.mp hne)

/-! ### The change of STATE -/

section
variable (h : MachineInv s) (hst : s.st ≠ .error)
include h hst

/-- STATE goes to another state but ERROR, with the session registers that belong there. -/
theorem enter {x : SeqState} (hx : x ≠ .error) (hcur : s.hascur = true → x = .enc)
    (hprev : s.hasprev = true → x = .dec) (hlo : s.havelo = true → x = .dec ∨ x = .unpack) :
    MachineInv (s.enter x) :=
  { h with
    hascur_state := fun hc => Or.inl (hcur hc)
    hasprev_state := fun hp => Or.inl (hprev hp)
    havelo_state := fun hl => (hlo hl).imp_right Or.inl
    error_code := iff_of_false (not_not.mpr (h.errcode_eq hst)) hx
    error_info := fun _ => h.error_info hst }

/-- A session without half-done work ends (45_sequencer.md R248). -/
theorem finish (hcur : s.hascur = false) (hprev : s.hasprev = false) (hlo : s.havelo = false) :
    MachineInv s.finish :=
  have hidle : MachineInv (s.enter .idle) := h.enter hst (by decide) (by simp [hcur]) (by simp [hprev]) (by simp [hlo])
  { hidle with }

end

/-- Outside ENC and ERROR there is no match. -/
theorem hascur_eq (h : MachineInv s) (henc : s.st ≠ .enc) (herror : s.st ≠ .error) : s.hascur = false :=
  Bool.eq_false_iff.mpr fun hc => (h.hascur_state hc).elim henc herror

theorem hasprev_eq (h : MachineInv s) (hdec : s.st ≠ .dec) (herror : s.st ≠ .error) : s.hasprev = false :=
  Bool.eq_false_iff.mpr fun hp => (h.hasprev_state hp).elim hdec herror

theorem havelo_eq (h : MachineInv s) (hdec : s.st ≠ .dec) (hunpack : s.st ≠ .unpack) (herror : s.st ≠ .error) :
    s.havelo = false :=
  Bool.eq_false_iff.mpr fun hl => (h.havelo_state hl).elim hdec fun hl => hl.elim hunpack herror

/-- In IDLE there is no half-done work. -/
theorem idle_session (h : MachineInv s) (hst : s.st = .idle) :
    s.hascur = false ∧ s.hasprev = false ∧ s.havelo = false := by
  refine ⟨h.hascur_eq ?_ ?_, h.hasprev_eq ?_ ?_, h.havelo_eq ?_ ?_ ?_⟩ <;> simp [hst]

/-! ### The commands -/

theorem sound_clrerr (h : MachineInv s) : Sound (exec .clrerr s) := by
  by_cases hst : s.st = .error
  · rw [exec_clrerr_of_error hst]
    exact .next
      { h with
        cur_assigned := fun hc => nomatch hc
        prev_assigned := fun hp => nomatch hp
        hascur_state := fun hc => nomatch hc
        hasprev_state := fun hp => nomatch hp
        havelo_state := fun hl => nomatch hl
        error_code := by simp
        error_info := fun _ => rfl
        inq_bounded := Nat.zero_le _ }
  · rw [exec_clrerr_of_ne_error hst]
    exact .next { h with }

theorem sound_abort (h : MachineInv s) : Sound (exec .abort s) := by
  by_cases herror : s.st = .error
  · rw [exec_abort_of_error herror]
    exact .next h
  · by_cases hidle : s.st = .idle
    · rw [exec_abort_of_idle hidle]
      exact .next { h with }
    · have hdropped : MachineInv (({ s with inq := [] } : State).emitBeat .aborted).clearSession :=
        { h with
          cur_assigned := fun hc => nomatch hc
          prev_assigned := fun hp => nomatch hp
          hascur_state := fun hc => nomatch hc
          hasprev_state := fun hp => nomatch hp
          havelo_state := fun hl => nomatch hl
          inq_bounded := Nat.zero_le _ }
      have hended : MachineInv s.abortSession :=
        hdropped.enter herror (by decide) (fun hc => nomatch hc) (fun hp => nomatch hp) (fun hl => nomatch hl)
      rw [exec_abort_of_session ((SeqState.inSession_iff _).mpr ⟨hidle, herror⟩)]
      exact .next { hended with }

theorem sound_hclr (h : MachineInv s) : Sound (exec .hclr s) := by
  refine h.sound_idleCommand rfl fun hst => ⟨_, exec_hclr_of_idle hst, ?_⟩
  exact { h with
    ft_canonical := rfl
    ct_canonical := rfl
    ct_codes := fun _ _ hread => nomatch hread
    tree_current := fun htree => nomatch htree
    table_current := fun htable => nomatch htable }

theorem sound_hset (h : MachineInv s) (sym : Symbol) : Sound (exec (.hset sym) s) := by
  refine h.sound_idleCommand rfl fun hst => ⟨_, exec_hset_of_idle hst sym, ?_⟩
  exact { h with
    ft_canonical := Table.write_wf s.ft sym _ h.ft_canonical
    tree_current := fun htree => nomatch htree
    table_current := fun htable => nomatch htable }

theorem sound_hget (h : MachineInv s) (sym : Symbol) : Sound (exec (.hget sym) s) := by
  refine h.sound_idleCommand rfl fun hst => ?_
  cases hread : s.ft.read sym with
  | some f => exact ⟨_, exec_hget_of_present hst hread, { h with }⟩
  | none => exact ⟨_, exec_hget_of_absent hst hread, { h with }⟩

/-- HBUILD plants the tree of the current table. -/
theorem sound_hbuild (h : MachineInv s) : Sound (exec .hbuild s) := by
  refine h.sound_idleCommand rfl fun hst => ?_
  by_cases hft : s.ft = []
  · exact ⟨_, exec_hbuild_of_nil hst hft, State.errorEntry_of_idle hst .empty 0#32 ▸ h.errorEntry (by decide) _⟩
  · refine ⟨_, exec_hbuild_of_idle hst hft, ?_⟩
    exact { h with
      tree_current := fun _ => ⟨hft, rfl, rfl⟩
      table_current := fun htable => nomatch htable }

/-- HGEN fills the code table of the current tree. -/
theorem sound_hgen (h : MachineInv s) : Sound (exec .hgen s) := by
  refine h.sound_idleCommand rfl fun hst => ?_
  cases htree : s.tvalid
  · exact ⟨_, exec_hgen_of_stale hst htree, State.errorEntry_of_idle hst .noTree s.pcmd ▸ h.errorEntry (by decide) _⟩
  · obtain ⟨n, t, ct, -, -, -, hct, hcoded, hexec⟩ := h.exists_hgen hst htree
    refine ⟨_, hexec, ?_⟩
    exact { h with
      ct_canonical := codeTable_wf hct
      ct_codes := fun _ _ hread => hcoded.listed hread
      table_current := fun _ => ⟨htree, hct⟩ }

theorem sound_hcode (h : MachineInv s) (sym : Symbol) : Sound (exec (.hcode sym) s) := by
  refine h.sound_idleCommand rfl fun hst => ?_
  cases htable : s.cvalid
  · exact ⟨_, exec_hcode_of_stale hst htable sym,
      State.errorEntry_of_idle hst .noTable s.pcmd ▸ h.errorEntry (by decide) _⟩
  · exact ⟨_, exec_hcode_of_valid hst htable sym, { h with }⟩

theorem sound_hnode (h : MachineInv s) : Sound (exec .hnode s) := by
  refine h.sound_idleCommand rfl fun hst => ?_
  cases htree : s.tvalid
  · exact ⟨_, exec_hnode_of_stale hst htree, State.errorEntry_of_idle hst .noTree s.pcmd ▸ h.errorEntry (by decide) _⟩
  · cases hn : s.nodes[s.arg.toNat]? with
    | some n => exact ⟨_, exec_hnode_of_node hst htree hn, { h with }⟩
    | none => exact ⟨_, exec_hnode_of_no_node hst htree hn, { h with }⟩

/-- Below NEXT every code has a sequence, so DLOOK does not fault. -/
theorem sound_dlook (h : MachineInv s) (code : LzwCode) : Sound (exec (.dlook code) s) := by
  refine h.sound_idleCommand rfl fun hst => ?_
  rcases le_or_gt s.next code.toNat with hnext | hnext
  · exact ⟨_, exec_dlook_of_unassigned hst hnext, { h with }⟩
  · obtain ⟨first, rest, hseq⟩ := Dict.seq_some_of_lt_next h.dict_falls hnext
    exact ⟨_, exec_dlook_of_seq hst hseq, { h with }⟩

theorem sound_enc (h : MachineInv s) : Sound (exec .enc s) := by
  refine h.sound_idleCommand rfl fun hst => ?_
  obtain ⟨-, hprev, hlo⟩ := h.idle_session hst
  have hfresh : MachineInv { s with dict := [], cur := 0#16, hascur := false, strictL := s.strictBit } :=
    { h with
      dict_falls := rfl
      dict_capped := show 256 ≤ 65536 by decide
      cur_assigned := fun hc => nomatch hc
      prev_assigned := fun hp => absurd hp (by simp [hprev])
      hascur_state := fun hc => nomatch hc }
  have hentered := hfresh.enter (x := .enc) (by simp [hst]) (by decide) (fun _ => rfl) (by simp [hprev]) (by simp [hlo])
  exact ⟨_, idleOnly_of_idle hst _, { hentered with }⟩

theorem sound_dec (h : MachineInv s) : Sound (exec .dec s) := by
  refine h.sound_idleCommand rfl fun hst => ?_
  obtain ⟨hcur, -, -⟩ := h.idle_session hst
  have hfresh : MachineInv { s with
      dict := [], prev := 0#16, hasprev := false, lo := 0#8, havelo := false, strictL := s.strictBit } :=
    { h with
      dict_falls := rfl
      dict_capped := show 256 ≤ 65536 by decide
      cur_assigned := fun hc => absurd hc (by simp [hcur])
      prev_assigned := fun hp => nomatch hp
      hasprev_state := fun hp => nomatch hp
      havelo_state := fun hl => nomatch hl }
  have hentered := hfresh.enter (x := .dec) (by simp [hst]) (by decide) (by simp [hcur]) (fun _ => rfl)
    (fun _ => Or.inl rfl)
  exact ⟨_, idleOnly_of_idle hst _, { hentered with }⟩

theorem sound_pack (h : MachineInv s) : Sound (exec .pack s) := by
  refine h.sound_idleCommand rfl fun hst => ?_
  obtain ⟨hcur, hprev, hlo⟩ := h.idle_session hst
  have hentered := h.enter (x := .pack) (by simp [hst]) (by decide) (by simp [hcur]) (by simp [hprev]) (by simp [hlo])
  exact ⟨_, idleOnly_of_idle hst _, { hentered with }⟩

theorem sound_unpack (h : MachineInv s) : Sound (exec .unpack s) := by
  refine h.sound_idleCommand rfl fun hst => ?_
  obtain ⟨hcur, hprev, -⟩ := h.idle_session hst
  have hfresh : MachineInv { s with lo := 0#8, havelo := false } := { h with havelo_state := fun hl => nomatch hl }
  have hentered := hfresh.enter (x := .unpack) (by simp [hst]) (by decide) (by simp [hcur]) (by simp [hprev])
    (fun _ => Or.inr rfl)
  exact ⟨_, idleOnly_of_idle hst _, { hentered with }⟩

theorem sound_exec (h : MachineInv s) (i : Instr) : Sound (exec i s) := by
  cases i with
  | nop => exact .next { h with }
  | srst => exact .next (machineInv_resetCore s)
  | clrerr => exact h.sound_clrerr
  | abort => exact h.sound_abort
  | hclr => exact h.sound_hclr
  | hset sym => exact h.sound_hset sym
  | hget sym => exact h.sound_hget sym
  | hbuild => exact h.sound_hbuild
  | hgen => exact h.sound_hgen
  | hcode sym => exact h.sound_hcode sym
  | hnode => exact h.sound_hnode
  | enc => exact h.sound_enc
  | dec => exact h.sound_dec
  | pack => exact h.sound_pack
  | unpack => exact h.sound_unpack
  | dlook code => exact h.sound_dlook code

theorem sound_execStep (h : MachineInv s) : Sound (execStep exec s) := by
  have hcleared : MachineInv s.clearCmdp := { h with }
  unfold execStep
  cases decode s.pcmd with
  | ok i => exact hcleared.sound_exec i
  | error r => exact hcleared.sound_raise (by decide) _

/-! ### The beats of an encode session -/

theorem restartMatch (h : MachineInv s) (hst : s.st = .enc) (b : Byte) : MachineInv (s.restartMatch b) :=
  { h with
    cur_assigned := fun _ => s.setWidth_lt_next b
    hascur_state := fun _ => Or.inl hst }

theorem insert (h : MachineInv s) (hroom : s.next < 65536) {p : LzwCode} (hp : p.toNat < s.next) (b : Byte) :
    MachineInv (s.insert p b) :=
  { h with
    dict_falls := Dict.wf_insert h.dict_falls hp b
    dict_capped := by rw [State.insert_next]; exact hroom
    cur_assigned := fun hc => by rw [State.insert_next]; exact (h.cur_assigned hc).trans (Nat.lt_succ_self _)
    prev_assigned := fun hp => by rw [State.insert_next]; exact (h.prev_assigned hp).trans (Nat.lt_succ_self _) }

theorem serWrite (h : MachineInv s) (c : LzwCode) : MachineInv (s.serWrite c) := by
  rw [State.serWrite_eq]
  exact { h with }

theorem sound_encExtend (h : MachineInv s) (hst : s.st = .enc) (hcur : s.hascur = true) (b : Byte) :
    Sound (encExtend b s) := by
  obtain ⟨c, hhit, heq⟩ | ⟨-, ⟨hroom, heq⟩ | ⟨-, -, heq⟩ | ⟨-, -, heq⟩⟩ := encExtend_cases b s <;> rw [heq]
  · have hassigned := (Dict.entry_range (Dict.isLeast_of_lookup_eq_some h.dict_capped hhit).1).2
    exact .next { h with cur_assigned := fun _ => hassigned }
  · exact .next (((h.serWrite s.cur).insert hroom (h.cur_assigned hcur) b).restartMatch hst b)
  · exact h.sound_raise (by decide) _
  · have hovf : MachineInv (s.serWrite s.cur).setOvf := { h.serWrite s.cur with }
    exact .next (hovf.restartMatch hst b)

theorem sound_enc_data (h : MachineInv s) (hst : s.st = .enc) (v : Payload) : Sound (consume (.data v) s) := by
  have hcounted : MachineInv s.countIn := { h with }
  cases hcur : s.hascur
  · rw [consume_enc_data_of_no_match hst hcur]
    exact .next (hcounted.restartMatch hst _)
  · rw [consume_enc_data_of_match hst hcur]
    exact hcounted.sound_encExtend hst hcur _

theorem sound_enc_fin (h : MachineInv s) (hst : s.st = .enc) : Sound (consume .fin s) := by
  have hprev : s.hasprev = false := h.hasprev_eq (by simp [hst]) (by simp [hst])
  have hlo : s.havelo = false := h.havelo_eq (by simp [hst]) (by simp [hst]) (by simp [hst])
  cases hcur : s.hascur
  · rw [consume_enc_fin_of_no_match hst hcur]
    exact .next (h.finish (by simp [hst]) hcur hprev hlo)
  · rw [consume_enc_fin_of_match hst hcur, State.serWrite_eq]
    have hflushed : MachineInv { s with
        outcnt := s.outcnt + 2#32, emit := s.emit ++ [.data (s.cur &&& 0xFF#16), .data (s.cur >>> 8)]
        hascur := false } :=
      { h with
        cur_assigned := fun hc => nomatch hc
        hascur_state := fun hc => nomatch hc }
    exact .next (hflushed.finish (by simp [hst]) rfl hprev hlo)

/-! ### The beats of a decode session -/

theorem sound_decodeLater (h : MachineInv s) (hlater : s.hasprev = true) (c : LzwCode) :
    Sound (decodeLater c s) := by
  by_cases hstrict : 65536 ≤ s.next ∧ s.strictL = true
  · rw [decodeLater_of_strict hstrict.1 hstrict.2]
    exact h.sound_raise (by decide) _
  by_cases hdesync : s.next < c.toNat
  · rw [decodeLater_of_desync hstrict hdesync]
    exact h.sound_raise (by decide) _
  have hc : c.toNat ≤ s.next := Nat.not_lt.mp hdesync
  have hcap : s.next ≤ 65536 := h.dict_capped
  obtain ⟨first, rest, hexpansion, -, -⟩ := exists_expansion h.dict_falls (h.prev_assigned hlater) hc
  rw [decodeLater_of_expansion hstrict hc hexpansion]
  have hemitted : MachineInv (s.emitBytes (first :: rest)) := by
    rw [State.emitBytes_eq]
    exact { h with }
  have hnext : (s.emitBytes (first :: rest)).next = s.next := congrArg Dict.next (s.emitBytes_dict _)
  by_cases hfull : s.next = 65536
  · rw [State.growDecoder_of_full (hnext.trans hfull)]
    have hlt : c.toNat < (s.emitBytes (first :: rest)).next := by
      have := c.isLt
      omega
    exact .next { hemitted with prev_assigned := fun _ => hlt }
  · have hroom : (s.emitBytes (first :: rest)).next < 65536 := by omega
    have hprev : s.prev.toNat < (s.emitBytes (first :: rest)).next := hnext ▸ h.prev_assigned hlater
    have hgrown : MachineInv ((s.emitBytes (first :: rest)).insert s.prev first) := hemitted.insert hroom hprev first
    rw [State.growDecoder_of_room hroom, State.emitBytes_prev]
    have hlt : c.toNat < ((s.emitBytes (first :: rest)).insert s.prev first).next := by
      rw [State.insert_next, hnext]
      omega
    exact .next { hgrown with prev_assigned := fun _ => hlt }

theorem sound_decodeCode (h : MachineInv s) (hst : s.st = .dec) (c : LzwCode) : Sound (decodeCode c s) := by
  cases hlater : s.hasprev
  · by_cases hc : c.toNat < 256
    · rw [decodeCode_of_first hlater hc]
      have hnext : s.next = 256 + s.dict.length := rfl
      have hlt : c.toNat < s.next := by omega
      exact .next { h with prev_assigned := fun _ => hlt, hasprev_state := fun _ => Or.inl hst }
    · rw [decodeCode_of_first_desync hlater (Nat.not_lt.mp hc)]
      exact h.sound_raise (by decide) _
  · rw [decodeCode_of_later hlater]
    exact h.sound_decodeLater hlater c

/-- DEC and UNPACK keep the first byte of a pair. -/
theorem sound_first_byte (h : MachineInv s) (hst : s.st = .dec ∨ s.st = .unpack) (hlo : s.havelo = false) (v : Payload) :
    Sound (consume (.data v) s) := by
  rw [consume_data_of_first_byte hst hlo]
  exact .next { h with havelo_state := fun _ => hst.imp_right Or.inl }

theorem sound_dec_data (h : MachineInv s) (hst : s.st = .dec) (v : Payload) : Sound (consume (.data v) s) := by
  cases hlo : s.havelo
  · exact h.sound_first_byte (Or.inl hst) hlo v
  · rw [consume_dec_data_of_second_byte hst hlo]
    have hpaired : MachineInv { s.countIn with havelo := false } := { h with havelo_state := fun hl => nomatch hl }
    exact hpaired.sound_decodeCode hst _

theorem sound_dec_fin (h : MachineInv s) (hst : s.st = .dec) : Sound (consume .fin s) := by
  cases hlo : s.havelo
  · rw [consume_dec_fin hst hlo]
    have hclosed : MachineInv { s with hasprev := false } :=
      { h with
        prev_assigned := fun hp => nomatch hp
        hasprev_state := fun hp => nomatch hp }
    have hcur : s.hascur = false := h.hascur_eq (by simp [hst]) (by simp [hst])
    exact .next (hclosed.finish (by simp [hst]) hcur rfl hlo)
  · rw [consume_fin_of_odd_byte (Or.inl hst) hlo]
    exact h.sound_raise (by decide) _

/-! ### The beats of the serializer -/

theorem sound_pack_data (h : MachineInv s) (hst : s.st = .pack) (v : Payload) : Sound (consume (.data v) s) := by
  have hcounted : MachineInv s.countIn := { h with }
  rw [consume_pack_data hst]
  exact .next (hcounted.serWrite v)

theorem sound_pack_fin (h : MachineInv s) (hst : s.st = .pack) : Sound (consume .fin s) := by
  rw [consume_pack_fin hst]
  refine .next (h.finish ?_ (h.hascur_eq ?_ ?_) (h.hasprev_eq ?_ ?_) (h.havelo_eq ?_ ?_ ?_)) <;> simp [hst]

theorem sound_unpack_data (h : MachineInv s) (hst : s.st = .unpack) (v : Payload) : Sound (consume (.data v) s) := by
  cases hlo : s.havelo
  · exact h.sound_first_byte (Or.inr hst) hlo v
  · rw [consume_unpack_data_of_second_byte hst hlo]
    exact .next { h with havelo_state := fun hl => nomatch hl }

theorem sound_unpack_fin (h : MachineInv s) (hst : s.st = .unpack) : Sound (consume .fin s) := by
  cases hlo : s.havelo
  · rw [consume_unpack_fin hst hlo]
    refine .next (h.finish ?_ (h.hascur_eq ?_ ?_) (h.hasprev_eq ?_ ?_) hlo) <;> simp [hst]
  · rw [consume_fin_of_odd_byte (Or.inr hst) hlo]
    exact h.sound_raise (by decide) _

/-! ### The steps -/

theorem sound_consume (h : MachineInv s) (b : InBeat) : Sound (consume b s) := by
  by_cases hsession : s.st.inSession = true
  · obtain ⟨herr, hrsv⟩ := consume_of_session hsession
    cases b with
    | err => exact herr ▸ h.sound_raise (by decide) _
    | rsv => exact hrsv ▸ h.sound_raise (by decide) _
    | data v =>
      cases hst : s.st with
      | idle | error => simp [hst, SeqState.inSession] at hsession
      | enc => exact h.sound_enc_data hst v
      | dec => exact h.sound_dec_data hst v
      | pack => exact h.sound_pack_data hst v
      | unpack => exact h.sound_unpack_data hst v
    | fin =>
      cases hst : s.st with
      | idle | error => simp [hst, SeqState.inSession] at hsession
      | enc => exact h.sound_enc_fin hst
      | dec => exact h.sound_dec_fin hst
      | pack => exact h.sound_pack_fin hst
      | unpack => exact h.sound_unpack_fin hst
  · rw [consume_of_no_session hsession]
    exact .next h

theorem sound_beatStep (h : MachineInv s) : Sound (beatStep s) := by
  cases hinq : s.inq with
  | nil =>
    simp only [beatStep, hinq]
    exact .next h
  | cons b rest =>
    rw [beatStep_of_inq hinq]
    have hbound := h.inq_bounded
    rw [hinq, List.length_cons] at hbound
    have htaken : MachineInv { s with inq := rest } := { h with inq_bounded := Nat.le_of_succ_le hbound }
    exact htaken.sound_consume b

theorem drainStep (h : MachineInv s) (henabled : s.drainEnabled = true) : MachineInv (drainStep s) := by
  obtain ⟨hemit, hroom⟩ := State.drainEnabled_iff.mp henabled
  obtain ⟨b, bs, hb⟩ := List.exists_cons_of_ne_nil hemit
  rw [drainStep_of_emit hb]
  exact { h with outq_bounded := by simpa using hroom }

/-! ### The host's actions -/

theorem writeReg (h : MachineInv s) (off : Offset) (v : Word) : MachineInv (s.writeReg off v) := by
  unfold State.writeReg
  cases Reg.ofOffset off
  case ctrl | arg | status => exact { h with }
  case cmd =>
    simp only [State.writeCmd]
    split_ifs
    · exact h.errorEntry (by decide) v
    · exact { h with }
  all_goals exact h

theorem sinkError (h : MachineInv s) : MachineInv s.sinkError := by
  unfold State.sinkError
  split_ifs
  · exact h.errorEntry (by decide) _
  · exact h

/-- The host takes the first beat of OUTQ. -/
theorem popBeat (h : MachineInv s) {b : OutBeat} {others : List OutBeat} (houtq : s.outq = b :: others) :
    MachineInv (({ s with outq := others } : State).observe (.beat b)) := by
  have hbound := h.outq_bounded
  rw [houtq, List.length_cons] at hbound
  exact { h with outq_bounded := Nat.le_of_succ_le hbound }

theorem withScript (h : MachineInv s) (rest : List HostAct) : MachineInv (s.withScript rest) := { h with }

theorem performHost (h : MachineInv s) (a : HostAct) (rest : List HostAct) : MachineInv (performHost a rest s) := by
  cases a with
  | read off => exact { h with }
  | write off v => exact (h.writeReg off v).withScript rest
  | push b =>
    rcases lt_or_ge s.inq.length s.params.inDepth with hroom | hfull
    · rw [performHost_push_of_room hroom]
      exact { h with inq_bounded := by simpa [State.pushBeat, State.withScript] using hroom }
    · rw [performHost_push_of_full hfull]
      exact h
  | pop =>
    cases houtq : s.outq with
    | nil =>
      rw [performHost_pop_of_nil houtq]
      exact h
    | cons b others =>
      rw [performHost_pop_of_cons houtq]
      exact (h.popBeat houtq).withScript rest
  | sinkError => exact h.sinkError.withScript rest
  | reset => exact (machineInv_resetCore s).withScript rest
  | readUntil off mask want =>
    have hseen : MachineInv (s.observe (.value off (s.readReg off))) := { h with }
    simp only [Machine.performHost]
    split_ifs
    · exact hseen.withScript rest
    · exact hseen
  | popAll =>
    cases houtq : s.outq with
    | nil =>
      simp only [Machine.performHost, houtq]
      exact h
    | cons b others =>
      simp only [Machine.performHost, houtq]
      split_ifs
      · exact (h.popBeat houtq).withScript rest
      · exact h.popBeat houtq

theorem hostStep (h : MachineInv s) : MachineInv (hostStep s) := by
  unfold Machine.hostStep
  cases s.env.script with
  | nil => exact h
  | cons a rest => exact h.performHost a rest

/-- One step from a state of the invariant answers a next state of the invariant. -/
theorem sound_step (h : MachineInv s) : Sound (step s) := by
  obtain ⟨turns, hpopped⟩ := s.popTurn_eq
  have hinv : MachineInv s.popTurn.2 := hpopped ▸ { h with }
  unfold step advance
  obtain ⟨-, -, heq⟩ | ⟨-, -, heq⟩ | ⟨-, henabled, heq⟩ | ⟨-, heq⟩ | heq :=
    takeTurn_cases exec s.popTurn.1 s.popTurn.2 <;> rw [heq]
  · exact hinv.sound_execStep
  · exact hinv.sound_beatStep
  · exact .next (hinv.drainStep henabled)
  · exact .next hinv.hostStep
  · exact .next hinv

end MachineInv

/-- Settles O59: the next state that a step from the invariant answers meets it. -/
theorem stepKeepsTheInvariant : Obligations.StepKeepsTheInvariant := by
  intro s t hinv hstep
  obtain ⟨u, hu, hsound⟩ := hinv.sound_step
  obtain rfl := Host.Outcome.next.inj (hu.symm.trans hstep)
  exact hsound

/-- Settles O60: a step from the invariant answers a next state. -/
theorem soundStatesAlwaysStep : Obligations.SoundStatesAlwaysStep := by
  intro s hinv
  obtain ⟨t, ht, -⟩ := hinv.sound_step
  exact ⟨t, ht⟩

end Sys2Proof.Machine
end

section
/-! SUPPORT. What a beat of a session can change, and how it marks the output (45_sequencer.md R240, R248). -/

namespace Sys2Proof.Machine

/-- The state with the fields a beat may change blanked out: two states with the same rest differ in those fields only. -/
def State.outsideSession (s : State) : State :=
  { s with
    st := .idle, done := false, ovf := false, errcode := .none, errinfo := 0#32, dict := [], cur := 0#16
    hascur := false, prev := 0#16, hasprev := false, lo := 0#8, havelo := false, incnt := 0#32, outcnt := 0#32
    emit := [] }

/-- The beat that marks how a session went on, ended or failed. -/
def SeqState.mark : SeqState → List OutBeat
  | .idle => [.fin]
  | .error => [.aborted]
  | .enc => []
  | .dec => []
  | .pack => []
  | .unpack => []

theorem SeqState.mark_of_session {x : SeqState} (h : x.inSession = true) : x.mark = [] := by
  cases x
  case idle | error => cases h
  all_goals rfl

/-- What a beat that takes `s` to `t` did: DATA beats and the mark, STATE, nothing outside the session, DONE not cleared. -/
structure BeatResult (s t : State) : Prop where
  marked : ∃ data : List Payload, t.emit = s.emit ++ data.map .data ++ t.st.mark
  state : t.st = s.st ∨ t.st = .idle ∨ t.st = .error
  outside : t.outsideSession = s.outsideSession
  done_kept : s.done = true → t.done = true

/-- The same with the claim that the session goes on. -/
structure BeatGoesOn (s t : State) : Prop where
  emitted : ∃ data : List Payload, t.emit = s.emit ++ data.map .data
  state : t.st = s.st
  outside : t.outsideSession = s.outsideSession
  done_kept : s.done = true → t.done = true

namespace BeatGoesOn

variable {s t u : State}

theorem result (h : BeatGoesOn s t) (hsession : s.st.inSession = true) : BeatResult s t where
  marked := by
    obtain ⟨data, hdata⟩ := h.emitted
    exact ⟨data, by rw [hdata, h.state, SeqState.mark_of_session hsession, List.append_nil]⟩
  state := Or.inl h.state
  outside := h.outside
  done_kept := h.done_kept

theorem trans (h : BeatGoesOn s t) (h' : BeatGoesOn t u) : BeatGoesOn s u where
  emitted := by
    obtain ⟨data, hdata⟩ := h.emitted
    obtain ⟨data', hdata'⟩ := h'.emitted
    exact ⟨data ++ data', by rw [hdata', hdata, List.map_append, List.append_assoc]⟩
  state := h'.state.trans h.state
  outside := h'.outside.trans h.outside
  done_kept hdone := h'.done_kept (h.done_kept hdone)

/-- A beat that first changes the session and then ends or fails. -/
theorem then_result (h : BeatGoesOn s t) (h' : BeatResult t u) : BeatResult s u where
  marked := by
    obtain ⟨data, hdata⟩ := h.emitted
    obtain ⟨data', hdata'⟩ := h'.marked
    exact ⟨data ++ data', by rw [hdata', hdata, List.map_append, List.append_assoc s.emit]⟩
  state := h.state ▸ h'.state
  outside := h'.outside.trans h.outside
  done_kept hdone := h'.done_kept (h.done_kept hdone)

/-- Updates of the session registers emit nothing. -/
theorem silent (hemit : t.emit = s.emit := by rfl) (hst : t.st = s.st := by rfl)
    (houtside : t.outsideSession = s.outsideSession := by rfl) (hdone : t.done = s.done := by rfl) : BeatGoesOn s t :=
  ⟨⟨[], by rw [hemit, List.map_nil, List.append_nil]⟩, hst, houtside, fun h => hdone.trans h⟩

theorem countIn (s : State) : BeatGoesOn s s.countIn := silent

theorem serWrite (s : State) (c : LzwCode) : BeatGoesOn s (s.serWrite c) := by
  rw [State.serWrite_eq]
  exact ⟨⟨[c &&& 0xFF#16, c >>> 8], rfl⟩, rfl, rfl, fun h => h⟩

theorem emitData (s : State) (v : Payload) : BeatGoesOn s (s.emitBeat (.data v)) :=
  ⟨⟨[v], rfl⟩, rfl, rfl, fun h => h⟩

theorem emitBytes (s : State) (bytes : List Byte) : BeatGoesOn s (s.emitBytes bytes) := by
  rw [State.emitBytes_eq]
  exact ⟨⟨bytes.map fun x => x.setWidth 16, by simp⟩, rfl, rfl, fun h => h⟩

end BeatGoesOn

theorem beatResult_finish (s : State) : BeatResult s s.finish :=
  ⟨⟨[], by rw [State.finish_eq]; simp [SeqState.mark]⟩, Or.inr (Or.inl rfl), rfl, fun _ => rfl⟩

theorem beatResult_errorEntry {s : State} (hsession : s.st.inSession = true) (code : ErrCode) (info : Word) :
    BeatResult s (s.errorEntry code info) := by
  rw [State.errorEntry_of_session hsession]
  exact ⟨⟨[], by simp [SeqState.mark]⟩, Or.inr (Or.inr rfl), rfl, fun h => h⟩

section
variable {s t : State}

theorem encExtend_result (hsession : s.st.inSession = true) {b : Byte} (h : encExtend b s = .next t) :
    BeatResult s t := by
  have hwritten := BeatGoesOn.serWrite s s.cur
  obtain ⟨c, -, heq⟩ | ⟨-, ⟨-, heq⟩ | ⟨-, -, heq⟩ | ⟨-, -, heq⟩⟩ := encExtend_cases b s
  all_goals obtain rfl := Host.Outcome.next.inj (heq.symm.trans h)
  · exact (BeatGoesOn.silent).result hsession
  · exact (hwritten.trans .silent).result hsession
  · exact beatResult_errorEntry hsession _ _
  · exact (hwritten.trans .silent).result hsession

theorem growDecoder_goesOn (s : State) (first : Byte) : BeatGoesOn s (s.growDecoder first) := by
  unfold State.growDecoder
  split_ifs <;> exact .silent

/-- A code after the first: an error, or its bytes and the insertion; without a sequence there is no next state. -/
theorem decodeLater_result (hsession : s.st.inSession = true) {c : LzwCode} (h : decodeLater c s = .next t) :
    BeatResult s t := by
  unfold decodeLater at h
  split_ifs at h
  · obtain rfl := Host.Outcome.next.inj h
    exact beatResult_errorEntry hsession _ _
  · obtain rfl := Host.Outcome.next.inj h
    exact beatResult_errorEntry hsession _ _
  · rcases hexpansion : expansion s c with - | - | ⟨first, rest⟩ <;> rw [hexpansion] at h
    · cases h
    · cases h
    · obtain rfl := Host.Outcome.next.inj h
      exact (((BeatGoesOn.emitBytes s (first :: rest)).trans (growDecoder_goesOn _ first)).trans
        .silent).result hsession

theorem decodeCode_result (hsession : s.st.inSession = true) {c : LzwCode} (h : decodeCode c s = .next t) :
    BeatResult s t := by
  unfold decodeCode at h
  split_ifs at h
  · exact decodeLater_result hsession h
  · obtain rfl := Host.Outcome.next.inj h
    exact beatResult_errorEntry hsession _ _
  · obtain rfl := Host.Outcome.next.inj h
    exact ((BeatGoesOn.emitData s c).trans .silent).result hsession

theorem consume_data_result (hsession : s.st.inSession = true) {v : Payload} (h : consume (.data v) s = .next t) :
    BeatResult s t := by
  have hcounted := BeatGoesOn.countIn s
  cases hst : s.st with
  | idle | error => simp [hst, SeqState.inSession] at hsession
  | enc =>
    cases hcur : s.hascur
    · rw [consume_enc_data_of_no_match hst hcur] at h
      obtain rfl := Host.Outcome.next.inj h
      exact (hcounted.trans .silent).result hsession
    · rw [consume_enc_data_of_match hst hcur] at h
      exact hcounted.then_result (encExtend_result hsession h)
  | pack =>
    rw [consume_pack_data hst] at h
    obtain rfl := Host.Outcome.next.inj h
    exact (hcounted.trans (.serWrite _ v)).result hsession
  | dec =>
    cases hlo : s.havelo
    · rw [consume_data_of_first_byte (Or.inl hst) hlo] at h
      obtain rfl := Host.Outcome.next.inj h
      exact (hcounted.trans .silent).result hsession
    · rw [consume_dec_data_of_second_byte hst hlo] at h
      have hpaired : BeatGoesOn s { s.countIn with havelo := false } := .silent
      exact hpaired.then_result (decodeCode_result hsession h)
  | unpack =>
    cases hlo : s.havelo
    · rw [consume_data_of_first_byte (Or.inr hst) hlo] at h
      obtain rfl := Host.Outcome.next.inj h
      exact (hcounted.trans .silent).result hsession
    · rw [consume_unpack_data_of_second_byte hst hlo] at h
      obtain rfl := Host.Outcome.next.inj h
      have hpaired : BeatGoesOn s { s.countIn with havelo := false } := .silent
      exact (hpaired.trans (.emitData _ _)).result hsession

theorem consume_fin_result (hsession : s.st.inSession = true) (h : consume .fin s = .next t) : BeatResult s t := by
  have hodd : (s.st = .dec ∨ s.st = .unpack) → s.havelo = true → BeatResult s t := fun hst hlo => by
    rw [consume_fin_of_odd_byte hst hlo] at h
    obtain rfl := Host.Outcome.next.inj h
    exact beatResult_errorEntry hsession _ _
  cases hst : s.st with
  | idle | error => simp [hst, SeqState.inSession] at hsession
  | enc =>
    cases hcur : s.hascur
    · rw [consume_enc_fin_of_no_match hst hcur] at h
      obtain rfl := Host.Outcome.next.inj h
      exact beatResult_finish s
    · rw [consume_enc_fin_of_match hst hcur] at h
      obtain rfl := Host.Outcome.next.inj h
      exact ((BeatGoesOn.serWrite s s.cur).trans .silent).then_result (beatResult_finish _)
  | pack =>
    rw [consume_pack_fin hst] at h
    obtain rfl := Host.Outcome.next.inj h
    exact beatResult_finish s
  | dec =>
    cases hlo : s.havelo
    · rw [consume_dec_fin hst hlo] at h
      obtain rfl := Host.Outcome.next.inj h
      have hclosed : BeatGoesOn s { s with hasprev := false } := .silent
      exact hclosed.then_result (beatResult_finish _)
    · exact hodd (Or.inl hst) hlo
  | unpack =>
    cases hlo : s.havelo
    · rw [consume_unpack_fin hst hlo] at h
      obtain rfl := Host.Outcome.next.inj h
      exact beatResult_finish s
    · exact hodd (Or.inr hst) hlo

theorem consume_result (hsession : s.st.inSession = true) {b : InBeat} (h : consume b s = .next t) :
    BeatResult s t := by
  obtain ⟨herr, hrsv⟩ := consume_of_session hsession
  cases b with
  | data v => exact consume_data_result hsession h
  | fin => exact consume_fin_result hsession h
  | err =>
    obtain rfl := Host.Outcome.next.inj (herr.symm.trans h)
    exact beatResult_errorEntry hsession _ _
  | rsv =>
    obtain rfl := Host.Outcome.next.inj (hrsv.symm.trans h)
    exact beatResult_errorEntry hsession _ _

end

/-- States that agree outside the session differ in its fields only. -/
theorem State.eq_of_outsideSession {s t : State} (h : t.outsideSession = s.outsideSession) :
    t = { s with
          st := t.st, done := t.done, ovf := t.ovf, errcode := t.errcode, errinfo := t.errinfo, dict := t.dict
          cur := t.cur, hascur := t.hascur, prev := t.prev, hasprev := t.hasprev, lo := t.lo, havelo := t.havelo
          incnt := t.incnt, outcnt := t.outcnt, emit := t.emit } :=
  congrArg (fun rest : State =>
    { rest with
      st := t.st, done := t.done, ovf := t.ovf, errcode := t.errcode, errinfo := t.errinfo, dict := t.dict
      cur := t.cur, hascur := t.hascur, prev := t.prev, hasprev := t.hasprev, lo := t.lo, havelo := t.havelo
      incnt := t.incnt, outcnt := t.outcnt, emit := t.emit }) h

/-- Settles O55, from what each beat of each session did. -/
theorem beatsMarkTheSessionOnce : Obligations.BeatsMarkTheSessionOnce := by
  intro b s t hsession hconsume
  obtain ⟨⟨data, hemit⟩, hstate, houtside, -⟩ := consume_result hsession hconsume
  refine ⟨⟨data, hemit.trans ?_⟩, hstate, State.eq_of_outsideSession houtside⟩
  cases t.st <;> rfl

end Sys2Proof.Machine
end

section
/-! SUPPORT. What a command leaves alone (10_state.md R27, R28, R34): the operands, the queues the host reads, and the results of another command. -/

namespace Sys2Proof.Machine

/-- The commands that write RES0 to RES3 (10_state.md R28). -/
def writesResults (i : Instr) : Prop :=
  i = .hbuild ∨ i = .hgen ∨ i = .hnode ∨ (∃ k, i = .hget k) ∨ (∃ k, i = .hcode k) ∨ ∃ k, i = .dlook k

/-- What a command that takes `s` to `t` left alone. -/
structure CommandFrame (i : Instr) (s t : State) : Prop where
  arg : t.arg = s.arg
  ctrl : t.ctrl = s.ctrl
  outq : t.outq = s.outq
  pcmd : t.pcmd = s.pcmd
  params : t.params = s.params
  env : t.env = s.env
  results : (t.res0, t.res1, t.res2, t.res3) ≠ (s.res0, s.res1, s.res2, s.res3) → t.st = .idle ∧ writesResults i
  done_kept : s.done = true → t.done = true

theorem CommandFrame.refl (i : Instr) (s : State) : CommandFrame i s s :=
  ⟨rfl, rfl, rfl, rfl, rfl, rfl, fun hne => absurd rfl hne, fun h => h⟩

theorem CommandFrame.errorEntry (i : Instr) (s : State) (code : ErrCode) (info : Word) :
    CommandFrame i s (s.errorEntry code info) where
  arg := s.errorEntry_arg code info
  ctrl := s.errorEntry_ctrl code info
  outq := s.errorEntry_outq code info
  pcmd := s.errorEntry_pcmd code info
  params := s.errorEntry_params code info
  env := s.errorEntry_env code info
  results hne := absurd (by simp) hne
  done_kept hdone := (s.errorEntry_done code info).trans hdone

section
variable {i : Instr} {s t : State}

/-- An error recorded in IDLE. -/
theorem CommandFrame.recorded (hst : s.st = .idle) (code : ErrCode) (info : Word) :
    CommandFrame i s { s with st := .error, errcode := code, errinfo := info } :=
  State.errorEntry_of_idle hst code info ▸ .errorEntry i s code info

/-- A command that may write the results, in IDLE. -/
theorem CommandFrame.writes (hst : s.st = .idle) (hi : writesResults i)
    (hsame : (t.arg, t.ctrl, t.outq, t.pcmd, t.params, t.env, t.st, t.done) =
      (s.arg, s.ctrl, s.outq, s.pcmd, s.params, s.env, s.st, true)) : CommandFrame i s t := by
  simp only [Prod.mk.injEq] at hsame
  obtain ⟨harg, hctrl, houtq, hpcmd, hparams, henv, hst', hdone⟩ := hsame
  exact ⟨harg, hctrl, houtq, hpcmd, hparams, henv, fun _ => ⟨hst'.trans hst, hi⟩, fun _ => hdone⟩

/-- A command has one next state. -/
theorem CommandFrame.of_exec {t' : State} (h : exec i s = .next t) (h' : exec i s = .next t')
    (hframe : CommandFrame i s t') : CommandFrame i s t := Host.Outcome.next.inj (h'.symm.trans h) ▸ hframe

/-- The commands that are legal in IDLE only, in IDLE. -/
theorem exec_frame_of_idle (hi : idleCommand i = true) (hst : s.st = .idle) (h : exec i s = .next t) :
    CommandFrame i s t := by
  cases i with
  | nop | srst | clrerr | abort => simp [idleCommand] at hi
  | hclr | hset sym =>
    refine .of_exec h (idleOnly_of_idle hst _) ?_
    exact ⟨rfl, rfl, rfl, rfl, rfl, rfl, fun hne => absurd rfl hne, fun _ => rfl⟩
  | enc | dec | pack | unpack =>
    refine .of_exec h (idleOnly_of_idle hst _) ?_
    exact ⟨rfl, rfl, rfl, rfl, rfl, rfl, fun hne => absurd rfl hne, fun hdone => hdone⟩
  | hget k =>
    have hi : writesResults (.hget k) := by simp [writesResults]
    cases hread : s.ft.read k with
    | some f => exact .of_exec h (exec_hget_of_present hst hread) (.writes hst hi rfl)
    | none => exact .of_exec h (exec_hget_of_absent hst hread) (.writes hst hi rfl)
  | hbuild =>
    by_cases hft : s.ft = []
    · exact .of_exec h (exec_hbuild_of_nil hst hft) (.recorded hst _ _)
    · exact .of_exec h (exec_hbuild_of_idle hst hft) (.writes hst (by simp [writesResults]) rfl)
  | hgen =>
    cases htree : s.tvalid
    · exact .of_exec h (exec_hgen_of_stale hst htree) (.recorded hst _ _)
    · cases hct : codeTable s.nodes s.troot.toNat with
      | none => simp [exec, execHgen, idleOnly_of_idle hst, htree, hct] at h
      | some ct => exact .of_exec h (exec_hgen_of_tree hst htree hct) (.writes hst (by simp [writesResults]) rfl)
  | hcode k =>
    cases htable : s.cvalid
    · exact .of_exec h (exec_hcode_of_stale hst htable k) (.recorded hst _ _)
    · exact .of_exec h (exec_hcode_of_valid hst htable k) (.writes hst (by simp [writesResults]) rfl)
  | hnode =>
    have hi : writesResults .hnode := by simp [writesResults]
    cases htree : s.tvalid
    · exact .of_exec h (exec_hnode_of_stale hst htree) (.recorded hst _ _)
    · cases hn : s.nodes[s.arg.toNat]? with
      | some n => exact .of_exec h (exec_hnode_of_node hst htree hn) (.writes hst hi rfl)
      | none => exact .of_exec h (exec_hnode_of_no_node hst htree hn) (.writes hst hi rfl)
  | dlook c =>
    have hi : writesResults (.dlook c) := by simp [writesResults]
    rcases le_or_gt s.next c.toNat with hnext | hnext
    · exact .of_exec h (exec_dlook_of_unassigned hst hnext) (.writes hst hi rfl)
    · rcases hseq : Dict.seq s.dict c.toNat with - | - | ⟨first, rest⟩
      · simp [exec, execDlook, idleOnly_of_idle hst, Nat.not_le.mpr hnext, hseq] at h
      · exact absurd hseq Dict.seq_ne_nil
      · exact .of_exec h (exec_dlook_of_seq hst hseq) (.writes hst hi rfl)

theorem CommandFrame.setDone (i : Instr) (s : State) : CommandFrame i s s.setDone :=
  ⟨rfl, rfl, rfl, rfl, rfl, rfl, fun hne => absurd rfl hne, fun _ => rfl⟩

theorem CommandFrame.errorReturn (i : Instr) (s : State) : CommandFrame i s s.errorReturn.setDone :=
  ⟨rfl, rfl, rfl, rfl, rfl, rfl, fun hne => absurd rfl hne, fun _ => rfl⟩

theorem CommandFrame.abortSession (i : Instr) (s : State) : CommandFrame i s s.abortSession.setDone := by
  rw [State.abortSession_eq]
  exact ⟨rfl, rfl, rfl, rfl, rfl, rfl, fun hne => absurd rfl hne, fun _ => rfl⟩

theorem exec_abort_frame (h : exec .abort s = .next t) : CommandFrame .abort s t := by
  by_cases herror : s.st = .error
  · exact .of_exec h (exec_abort_of_error herror) (.refl _ s)
  · by_cases hst : s.st = .idle
    · exact .of_exec h (exec_abort_of_idle hst) (.setDone _ s)
    · exact .of_exec h (exec_abort_of_session ((SeqState.inSession_iff s.st).mpr ⟨hst, herror⟩)) (.abortSession _ s)

theorem exec_clrerr_frame (h : exec .clrerr s = .next t) : CommandFrame .clrerr s t := by
  by_cases hst : s.st = .error
  · exact .of_exec h (exec_clrerr_of_error hst) (.errorReturn _ s)
  · exact .of_exec h (exec_clrerr_of_ne_error hst) (.setDone _ s)

/-- Every command but SRST. -/
theorem exec_frame (hi : i ≠ .srst) (h : exec i s = .next t) : CommandFrame i s t := by
  by_cases hidle : idleCommand i = true
  · obtain ⟨body, hbody⟩ := exec_eq_idleOnly hidle s
    obtain ⟨hst, -⟩ | ⟨-, heq⟩ | ⟨-, heq⟩ := idleOnly_cases s body
    · exact exec_frame_of_idle hidle hst h
    · exact .of_exec h (hbody.trans heq) (.refl i s)
    · exact .of_exec h (hbody.trans heq) (.errorEntry i s _ _)
  · cases i with
    | srst => exact absurd rfl hi
    | nop => exact .of_exec h (exec_nop s) (.setDone _ s)
    | clrerr => exact exec_clrerr_frame h
    | abort => exact exec_abort_frame h
    | _ => simp [idleCommand] at hidle

end

/-- Settles O56, from what a command leaves alone and from what is outside a session. -/
theorem operandAndResultRegisters : Obligations.OperandAndResultRegisters := by
  refine ⟨fun i s t hi h => ?_, fun b s t h => ?_⟩
  · obtain ⟨harg, hctrl, houtq, hpcmd, hparams, henv, hresults, -⟩ := exec_frame hi h
    exact ⟨harg, hctrl, houtq, hpcmd, hparams, henv, hresults⟩
  · by_cases hsession : s.st.inSession = true
    · have houtside := (consume_result hsession h).outside
      rw [State.eq_of_outsideSession houtside]
      exact ⟨rfl, rfl, rfl, rfl, rfl, rfl⟩
    · rw [consume_of_no_session hsession] at h
      obtain rfl := Host.Outcome.next.inj h
      exact ⟨rfl, rfl, rfl, rfl, rfl, rfl⟩

end Sys2Proof.Machine
end

section
/-! SUPPORT. What a step can do to STATE, the recorded error and DONE (10_state.md R23, 60_exceptions.md R270 to R273). -/

namespace Sys2Proof.Machine

/-- What the host's action changes: a register write, SINK_ERR, RST, or only the queues and the host's own fields. -/
theorem performHost_cases (a : HostAct) (rest : List HostAct) (s : State) :
    (∃ off v, a = .write off v ∧ performHost a rest s = (s.writeReg off v).withScript rest) ∨
    (a = .sinkError ∧ performHost a rest s = s.sinkError.withScript rest) ∨
    (a = .reset ∧ performHost a rest s = s.resetCore.withScript rest) ∨
    ∃ inq outq env, performHost a rest s = { s with inq := inq, outq := outq, env := env } := by
  cases a with
  | write off v => exact Or.inl ⟨off, v, rfl, rfl⟩
  | sinkError => exact Or.inr (Or.inl ⟨rfl, rfl⟩)
  | reset => exact Or.inr (Or.inr (Or.inl ⟨rfl, rfl⟩))
  | read off => exact Or.inr (Or.inr (Or.inr ⟨_, _, _, rfl⟩))
  | push b =>
    refine Or.inr (Or.inr (Or.inr ?_))
    rcases lt_or_ge s.inq.length s.params.inDepth with hroom | hfull
    · exact ⟨_, _, _, performHost_push_of_room hroom b⟩
    · exact ⟨_, _, _, performHost_push_of_full hfull b⟩
  | pop =>
    refine Or.inr (Or.inr (Or.inr ?_))
    cases houtq : s.outq with
    | nil => exact ⟨_, _, _, performHost_pop_of_nil houtq⟩
    | cons b others => exact ⟨_, _, _, performHost_pop_of_cons houtq⟩
  | readUntil off mask want =>
    refine Or.inr (Or.inr (Or.inr ?_))
    simp only [performHost]
    split_ifs <;> exact ⟨_, _, _, rfl⟩
  | popAll =>
    refine Or.inr (Or.inr (Or.inr ?_))
    cases houtq : s.outq with
    | nil =>
      have hwaits : performHost .popAll rest s = s := by simp only [performHost, houtq]
      exact ⟨_, _, _, hwaits⟩
    | cons b others =>
      simp only [performHost, houtq]
      split_ifs <;> exact ⟨_, _, _, rfl⟩

theorem drainStep_eq (s : State) : ∃ emit outq, drainStep s = { s with emit := emit, outq := outq } := by
  cases hemit : s.emit with
  | nil =>
    have hwaits : drainStep s = s := by simp only [drainStep, hemit]
    exact ⟨_, _, hwaits⟩
  | cons b rest => exact ⟨_, _, drainStep_of_emit hemit⟩

/-- What a step does: one of the core's three steps, an action of the host, or nothing; the popped turn plays no other part. -/
theorem step_cases (s : State) :
    ∃ turns, let u : State := { s with env := { s.env with turns := turns } }
      (s.execEnabled = true ∧ step s = execStep exec u) ∨
      (s.beatEnabled = true ∧ step s = beatStep u) ∨
      (s.drainEnabled = true ∧ step s = .next (drainStep u)) ∨
      (∃ a rest, s.env.script = a :: rest ∧ step s = .next (performHost a rest u)) ∨
      step s = .next u := by
  obtain ⟨turns, hpopped⟩ := s.popTurn_eq
  refine ⟨turns, ?_⟩
  have hcases := takeTurn_cases exec s.popTurn.1 s.popTurn.2
  rw [hpopped] at hcases
  have hstep : step s = takeTurn exec s.popTurn.1 { s with env := { s.env with turns := turns } } := by
    rw [step, advance, hpopped]
  obtain ⟨-, henabled, heq⟩ | ⟨-, henabled, heq⟩ | ⟨-, henabled, heq⟩ | ⟨-, heq⟩ | heq := hcases
  · exact Or.inl ⟨henabled, hstep.trans heq⟩
  · exact Or.inr (Or.inl ⟨henabled, hstep.trans heq⟩)
  · exact Or.inr (Or.inr (Or.inl ⟨henabled, hstep.trans heq⟩))
  · rw [heq] at hstep
    cases hscript : s.env.script with
    | nil =>
      refine Or.inr (Or.inr (Or.inr (Or.inr (hstep.trans (congrArg _ ?_)))))
      exact hostStep_of_no_action hscript
    | cons a rest =>
      refine Or.inr (Or.inr (Or.inr (Or.inl ⟨a, rest, rfl, hstep.trans (congrArg _ ?_)⟩)))
      simp only [hostStep, hscript]
  · exact Or.inr (Or.inr (Or.inr (Or.inr (hstep.trans heq))))

/-! ### ERROR -/

/-- A register write in ERROR keeps the recorded error. -/
theorem writeReg_of_error {s : State} (hst : s.st = .error) (off : Offset) (v : Word) :
    (s.writeReg off v).st = .error ∧ (s.writeReg off v).errcode = s.errcode ∧
      (s.writeReg off v).errinfo = s.errinfo := by
  have hcmd : (s.writeCmd v).st = .error ∧ (s.writeCmd v).errcode = s.errcode ∧ (s.writeCmd v).errinfo = s.errinfo := by
    rw [State.writeCmd, State.errorEntry_of_error hst]
    split_ifs <;> exact ⟨hst, rfl, rfl⟩
  unfold State.writeReg
  cases Reg.ofOffset off
  case cmd => exact hcmd
  all_goals exact ⟨hst, rfl, rfl⟩

/-- EXEC in ERROR: CLRERR and SRST leave it, every other word keeps it. -/
theorem execStep_error_cases {s t : State} (hst : s.st = .error) (h : execStep exec s = .next t) :
    (t.st = .error ∧ t.errcode = s.errcode ∧ t.errinfo = s.errinfo) ∨
    (t.st = .idle ∧ t.errcode = .none ∧ t.errinfo = 0#32 ∧
      (decode s.pcmd = .ok .clrerr ∨ decode s.pcmd = .ok .srst)) := by
  by_cases hclrerr : decode s.pcmd = .ok .clrerr
  · rw [execStep_of_decode exec hclrerr, exec_clrerr_of_error (s := s.clearCmdp) hst] at h
    obtain rfl := Host.Outcome.next.inj h
    exact Or.inr ⟨rfl, rfl, rfl, Or.inl hclrerr⟩
  by_cases hsrst : decode s.pcmd = .ok .srst
  · rw [execStep_of_decode exec hsrst] at h
    obtain rfl := Host.Outcome.next.inj h
    exact Or.inr ⟨rfl, rfl, rfl, Or.inr hsrst⟩
  refine Or.inl ?_
  by_cases hnop : decode s.pcmd = .ok .nop
  · rw [execStep_of_decode exec hnop] at h
    obtain rfl := Host.Outcome.next.inj h
    exact ⟨hst, rfl, rfl⟩
  · rw [execStep_of_error hst hnop hsrst hclrerr] at h
    obtain rfl := Host.Outcome.next.inj h
    exact ⟨hst, rfl, rfl⟩

/-- Settles O19, by the step: EXEC, DRAIN or the host; ERROR enables no BEAT. -/
theorem onlyClearingLeavesError : Obligations.OnlyClearingLeavesError := by
  intro s t hst hstep
  obtain ⟨turns, ⟨henabled, heq⟩ | ⟨henabled, -⟩ | ⟨-, heq⟩ | ⟨a, rest, hscript, heq⟩ | heq⟩ := step_cases s
  · rcases execStep_error_cases (by exact hst) (heq.symm.trans hstep) with hkept | ⟨hidle, hcode, hinfo, hword⟩
    · exact Or.inl hkept
    · exact Or.inr ⟨hidle, hcode, hinfo, Or.inl ⟨(State.execEnabled_iff.mp henabled).1, hword⟩⟩
  · have hsession := (State.beatEnabled_iff.mp henabled).1
    simp [hst, SeqState.inSession] at hsession
  · obtain rfl := Host.Outcome.next.inj (heq.symm.trans hstep)
    obtain ⟨emit, outq, hdrained⟩ := drainStep_eq { s with env := { s.env with turns := turns } }
    rw [hdrained]
    exact Or.inl ⟨hst, rfl, rfl⟩
  · obtain rfl := Host.Outcome.next.inj (heq.symm.trans hstep)
    obtain ⟨off, v, -, hdone⟩ | ⟨-, hdone⟩ | ⟨rfl, hdone⟩ | ⟨inq, outq, env, hdone⟩ :=
      performHost_cases a rest { s with env := { s.env with turns := turns } } <;> rw [hdone]
    · exact Or.inl (writeReg_of_error (by exact hst) off v)
    · rw [State.sinkError_of_not_session (by simp [hst, SeqState.inSession])]
      exact Or.inl ⟨hst, rfl, rfl⟩
    · exact Or.inr ⟨rfl, rfl, rfl, Or.inr ⟨rest, hscript⟩⟩
    · exact Or.inl ⟨hst, rfl, rfl⟩
  · obtain rfl := Host.Outcome.next.inj (heq.symm.trans hstep)
    exact Or.inl ⟨hst, rfl, rfl⟩

/-! ### DONE -/

theorem execStep_done_kept {s t : State} (hsrst : decode s.pcmd ≠ .ok .srst) (hdone : s.done = true)
    (h : execStep exec s = .next t) : t.done = true := by
  cases hdecode : decode s.pcmd with
  | ok i =>
    rw [execStep_of_decode exec hdecode] at h
    exact (exec_frame (fun hi => hsrst (hi ▸ hdecode)) h).done_kept hdone
  | error r =>
    simp only [execStep, hdecode] at h
    obtain rfl := Host.Outcome.next.inj h
    exact (State.errorEntry_done _ _ _).trans hdone

theorem beatStep_done_kept {s t : State} (hdone : s.done = true) (h : beatStep s = .next t) : t.done = true := by
  cases hinq : s.inq with
  | nil =>
    simp only [beatStep, hinq] at h
    exact Host.Outcome.next.inj h ▸ hdone
  | cons b rest =>
    rw [beatStep_of_inq hinq] at h
    by_cases hsession : s.st.inSession = true
    · exact (consume_result (by exact hsession) h).done_kept hdone
    · rw [consume_of_no_session (by exact hsession)] at h
      obtain rfl := Host.Outcome.next.inj h
      exact hdone

/-- A register write clears DONE only by bit 4 of a write to STATUS. -/
theorem writeReg_done {s : State} {off : Offset} {v : Word} (hdone : s.done = true)
    (h : (s.writeReg off v).done = false) : Reg.ofOffset off = .status ∧ v.getLsbD 4 = true := by
  unfold State.writeReg at h
  cases hreg : Reg.ofOffset off <;> rw [hreg] at h
  case status =>
    refine ⟨rfl, ?_⟩
    simpa [State.writeStatus, hdone] using h
  case cmd =>
    simp only [State.writeCmd] at h
    split_ifs at h <;> simp [hdone] at h
  all_goals
    have : s.done = false := h
    simp [hdone] at this

/-- Settles O57, by the step: a command but SRST, a beat, DRAIN and the host's other actions keep DONE. -/
theorem doneIsSticky : Obligations.DoneIsSticky := by
  intro s t hdone hstep hcleared
  have hfalse : t.done ≠ true := by simp [hcleared]
  obtain ⟨turns, ⟨henabled, heq⟩ | ⟨-, heq⟩ | ⟨-, heq⟩ | ⟨a, rest, hscript, heq⟩ | heq⟩ := step_cases s
  · by_cases hsrst : decode s.pcmd = .ok .srst
    · exact Or.inr (Or.inr ⟨(State.execEnabled_iff.mp henabled).1, hsrst⟩)
    · exact absurd (execStep_done_kept (by exact hsrst) (by exact hdone) (heq.symm.trans hstep)) hfalse
  · exact absurd (beatStep_done_kept (by exact hdone) (heq.symm.trans hstep)) hfalse
  · obtain rfl := Host.Outcome.next.inj (heq.symm.trans hstep)
    obtain ⟨emit, outq, hdrained⟩ := drainStep_eq { s with env := { s.env with turns := turns } }
    rw [hdrained] at hfalse
    exact absurd hdone hfalse
  · obtain rfl := Host.Outcome.next.inj (heq.symm.trans hstep)
    obtain ⟨off, v, rfl, hact⟩ | ⟨-, hact⟩ | ⟨rfl, -⟩ | ⟨inq, outq, env, hact⟩ :=
      performHost_cases a rest { s with env := { s.env with turns := turns } }
    · rw [hact] at hcleared
      exact Or.inl ⟨off, v, rest, hscript, writeReg_done (by exact hdone) hcleared⟩
    · rw [hact, State.sinkError_withEnv] at hfalse
      unfold State.sinkError at hfalse
      split_ifs at hfalse <;> simp [hdone] at hfalse
    · exact Or.inr (Or.inl ⟨rest, hscript⟩)
    · rw [hact] at hfalse
      exact absurd hdone hfalse
  · obtain rfl := Host.Outcome.next.inj (heq.symm.trans hstep)
    exact absurd hdone hfalse

end Sys2Proof.Machine
end

section
/-! SUPPORT. A whole session beat by beat: what one beat contributes, the bytes of a code, and the serializer's round trip (44_serializer.md R230). -/

namespace Sys2Proof.Machine

/-! ### Feeding beats -/

section
variable {s t u : State} {b : InBeat} {rest : List InBeat} {out : List OutBeat}

theorem feed_cons_iff (h : consume b s = .next t) :
    feed (b :: rest) s = some (u, out) ↔
      ∃ out', feed rest { t with emit := [] } = some (u, out') ∧ out = t.emit ++ out' := by
  simp only [feed, h]
  cases feed rest { t with emit := [] } with
  | none => simp
  | some result =>
    obtain ⟨v, out'⟩ := result
    simp [eq_comm]

theorem feed_cons (h : consume b s = .next t) (hrest : feed rest { t with emit := [] } = some (u, out)) :
    feed (b :: rest) s = some (u, t.emit ++ out) := (feed_cons_iff h).mpr ⟨out, hrest, rfl⟩

/-- A beat that emits nothing. -/
theorem feed_cons_of_silent (h : consume b s = .next t) (hemit : t.emit = [])
    (hrest : feed rest t = some (u, out)) : feed (b :: rest) s = some (u, out) := by
  have hsame : ({ t with emit := [] } : State) = t := by rw [← hemit]
  have hfed := feed_cons h (hsame.symm ▸ hrest)
  rwa [hemit, List.nil_append] at hfed

/-- The END beat of a session. -/
theorem feed_fin (h : consume .fin s = .next t) : feed [.fin] s = some ({ t with emit := [] }, t.emit) :=
  (feed_cons_iff h).mpr ⟨[], rfl, (List.append_nil _).symm⟩

end

theorem session_of_exec {i : Instr} {s t : State} (h : exec i s = .next t) (input : List Payload) :
    session i input s = feed (input.map .data ++ [.fin]) t := by
  simp only [session, h]

/-! ### Bytes and codes -/

theorem completed_append (xs ys : List Payload) : completed (xs ++ ys) = xs.map .data ++ completed ys := by
  simp [completed]

theorem bytePayloads_append (xs ys : List Byte) : bytePayloads (xs ++ ys) = bytePayloads xs ++ bytePayloads ys :=
  List.map_append

theorem codeBytes_cons (c : LzwCode) (codes : List LzwCode) :
    codeBytes (c :: codes) = [c.extractLsb' 0 8, c.extractLsb' 8 8] ++ codeBytes codes := rfl

theorem codeBytes_length (codes : List LzwCode) : (codeBytes codes).length = 2 * codes.length := by
  induction codes with
  | nil => rfl
  | cons c codes ih =>
    rw [codeBytes_cons, List.length_append, ih]
    simp only [List.length_cons, List.length_nil]
    omega

/-- The two beats of a code, the low byte first (20_memory.md R81). -/
theorem bytePayloads_codeBytes_cons (c : LzwCode) (codes : List LzwCode) :
    bytePayloads (codeBytes (c :: codes)) = [c &&& 0xFF#16, c >>> 8] ++ bytePayloads (codeBytes codes) := by
  rw [codeBytes_cons, bytePayloads_append, ← setWidth_extractLsb'_low, ← setWidth_extractLsb'_high]
  rfl

theorem payloadByte_setWidth (b : Byte) : payloadByte (b.setWidth 16) = b := by
  have hb := b.isLt
  apply BitVec.eq_of_toNat_eq
  rw [payloadByte_toNat, BitVec.toNat_setWidth]
  omega

/-- The two bytes of a code make the code again (44_serializer.md R223). -/
theorem pairCode_bytes (c : LzwCode) : pairCode (payloadByte (c >>> 8)) (payloadByte (c &&& 0xFF#16)) = c := by
  have hc := c.isLt
  apply BitVec.eq_of_toNat_eq
  rw [← setWidth_extractLsb'_low, ← setWidth_extractLsb'_high, payloadByte_setWidth, payloadByte_setWidth,
    pairCode_toNat, BitVec.extractLsb'_toNat, BitVec.extractLsb'_toNat, Nat.shiftRight_eq_div_pow,
    Nat.shiftRight_eq_div_pow]
  omega

/-! ### The serializer -/

theorem feed_pack (codes : List LzwCode) {s : State} (hst : s.st = .pack) (hemit : s.emit = []) :
    ∃ t, feed (codes.map .data ++ [.fin]) s = some (t, completed (bytePayloads (codeBytes codes))) ∧ t.st = .idle := by
  induction codes generalizing s with
  | nil =>
    have hfed := feed_fin (consume_pack_fin hst)
    rw [State.finish_eq, hemit] at hfed
    exact ⟨_, hfed, rfl⟩
  | cons c codes ih =>
    have hbeat := consume_pack_data hst c
    rw [State.serWrite_eq] at hbeat
    obtain ⟨t, hrest, hidle⟩ := ih (s := { s.countIn with outcnt := s.countIn.outcnt + 2#32, emit := [] }) hst rfl
    refine ⟨t, (feed_cons hbeat hrest).trans ?_, hidle⟩
    rw [bytePayloads_codeBytes_cons, completed_append]
    simp [hemit]

/-- The two bytes of a code in DEC and UNPACK: the first one is kept, the second one completes the code. -/
theorem feed_code_bytes {s t u : State} {c : LzwCode} {rest : List InBeat} {out : List OutBeat}
    (hst : s.st = .dec ∨ s.st = .unpack) (hlo : s.havelo = false) (hemit : s.emit = [])
    (hsecond : consume (.data (c >>> 8)) { s.countIn with lo := payloadByte (c &&& 0xFF#16), havelo := true } = .next t)
    (hrest : feed rest { t with emit := [] } = some (u, out)) :
    feed (.data (c &&& 0xFF#16) :: .data (c >>> 8) :: rest) s = some (u, t.emit ++ out) :=
  feed_cons_of_silent (consume_data_of_first_byte hst hlo _) hemit (feed_cons hsecond hrest)

/-- The second byte of a code in UNPACK emits the code. -/
theorem consume_unpack_second_byte {s : State} (hst : s.st = .unpack) (hemit : s.emit = []) (c : LzwCode) :
    ∃ t, consume (.data (c >>> 8)) { s.countIn with lo := payloadByte (c &&& 0xFF#16), havelo := true } = .next t ∧
      t.st = .unpack ∧ t.havelo = false ∧ t.emit = [.data c] := by
  have hsecond := consume_unpack_data_of_second_byte
    (s := { s.countIn with lo := payloadByte (c &&& 0xFF#16), havelo := true }) hst rfl (c >>> 8)
  rw [pairCode_bytes] at hsecond
  refine ⟨_, hsecond, ?_, ?_, ?_⟩
  · simpa using hst
  · simp
  · simp [hemit]

theorem feed_unpack (codes : List LzwCode) {s : State} (hst : s.st = .unpack) (hlo : s.havelo = false)
    (hemit : s.emit = []) :
    ∃ u, feed ((bytePayloads (codeBytes codes)).map .data ++ [.fin]) s = some (u, completed codes) ∧ u.st = .idle := by
  induction codes generalizing s with
  | nil =>
    have hfed := feed_fin (consume_unpack_fin hst hlo)
    rw [State.finish_eq, hemit] at hfed
    exact ⟨_, hfed, rfl⟩
  | cons c codes ih =>
    obtain ⟨t, hsecond, hst', hlo', hemit'⟩ := consume_unpack_second_byte hst hemit c
    obtain ⟨u, hrest, hidle⟩ := ih (s := { t with emit := [] }) hst' hlo' rfl
    have hfed := feed_code_bytes (Or.inr hst) hlo hemit hsecond hrest
    rw [hemit'] at hfed
    rw [bytePayloads_codeBytes_cons]
    exact ⟨u, hfed, hidle⟩

/-- Settles O54, by induction on the codes for both sessions. -/
theorem serializerRoundTrip : Obligations.SerializerRoundTrip := by
  intro codes s s' hst hemit hst' hemit'
  rw [session_of_exec (exec_pack_of_idle hst), session_of_exec (exec_unpack_of_idle hst')]
  obtain ⟨t, hpack, ht⟩ := feed_pack codes (s := s.clearCounts.enter .pack) rfl hemit
  obtain ⟨u, hunpack, hu⟩ := feed_unpack codes
    (s := ({ s' with lo := 0#8, havelo := false } : State).clearCounts.enter .unpack) rfl rfl hemit'
  exact ⟨t, u, hpack, ht, codeBytes_length codes, hunpack, hu⟩

end Sys2Proof.Machine
end

section
/-! SUPPORT. A whole encode session (43_lzw.md R190 to R196): in non-strict mode it always ends in IDLE. -/

namespace Sys2Proof.Machine

/-- The state in which ENC starts a session (43_lzw.md R180). -/
def State.encStart (s : State) : State :=
  ({ s with dict := [], cur := 0#16, hascur := false, strictL := s.strictBit } : State).clearCounts.enter .enc

/-- The state in which DEC starts a session (43_lzw.md R181). -/
def State.decStart (s : State) : State :=
  ({ s with
      dict := [], prev := 0#16, hasprev := false, lo := 0#8, havelo := false, strictL := s.strictBit } :
      State).clearCounts.enter .dec

theorem exec_enc_of_idle {s : State} (h : s.st = .idle) : exec .enc s = .next s.encStart := idleOnly_of_idle h _

theorem exec_dec_of_idle {s : State} (h : s.st = .idle) : exec .dec s = .next s.decStart := idleOnly_of_idle h _

/-- A byte of a non-strict encode session never ends it, and keeps NEXT at most 65536. -/
theorem consume_enc_data_frozen {s : State} (hst : s.st = .enc) (hstrict : s.strictL = false)
    (hcap : s.next ≤ 65536) (v : Payload) :
    ∃ t, consume (.data v) s = .next t ∧ t.st = .enc ∧ t.strictL = false ∧ t.next ≤ 65536 := by
  unfold State.next at hcap ⊢
  cases hcur : s.hascur
  · exact ⟨_, consume_enc_data_of_no_match hst hcur v, by simpa using hst, by simpa using hstrict, by simpa using hcap⟩
  · rw [consume_enc_data_of_match hst hcur]
    obtain ⟨c, -, heq⟩ | ⟨-, ⟨hroom, heq⟩ | ⟨-, hopen, -⟩ | ⟨-, -, heq⟩⟩ := encExtend_cases (payloadByte v) s.countIn
    · exact ⟨_, heq, by simpa using hst, by simpa using hstrict, by simpa using hcap⟩
    · have hinserted : Dict.next s.dict + 1 ≤ 65536 := hroom
      exact ⟨_, heq, by simpa using hst, by simpa using hstrict, by simpa using hinserted⟩
    · exact absurd (hopen.symm.trans hstrict) (by decide)
    · exact ⟨_, heq, by simpa using hst, by simpa using hstrict, by simpa using hcap⟩

theorem consume_enc_fin_ends {s : State} (hst : s.st = .enc) :
    ∃ t, consume .fin s = .next t ∧ t.st = .idle ∧ t.done = true ∧ t.next = s.next := by
  cases hcur : s.hascur
  · exact ⟨_, consume_enc_fin_of_no_match hst hcur, rfl, rfl, rfl⟩
  · rw [consume_enc_fin_of_match hst hcur, State.serWrite_eq]
    exact ⟨_, rfl, rfl, rfl, rfl⟩

theorem feed_enc_frozen (x : List Byte) {s : State} (hst : s.st = .enc) (hstrict : s.strictL = false)
    (hcap : s.next ≤ 65536) :
    ∃ t out, feed ((bytePayloads x).map .data ++ [.fin]) s = some (t, out) ∧ t.st = .idle ∧ t.done = true ∧
      t.next ≤ 65536 := by
  induction x generalizing s with
  | nil =>
    obtain ⟨t, hfin, hidle, hdone, hnext⟩ := consume_enc_fin_ends hst
    exact ⟨_, _, feed_fin hfin, hidle, hdone, hnext.trans_le hcap⟩
  | cons b x ih =>
    obtain ⟨t, hbeat, hst', hstrict', hcap'⟩ := consume_enc_data_frozen hst hstrict hcap (b.setWidth 16)
    obtain ⟨u, out, hrest, hend⟩ := ih (s := { t with emit := [] }) hst' hstrict' hcap'
    exact ⟨u, _, feed_cons hbeat hrest, hend⟩

/-- Settles O52, by induction on the bytes. -/
theorem frozenEncoderAlwaysEnds : Obligations.FrozenEncoderAlwaysEnds := by
  intro x s hst _ hstrict
  rw [session_of_exec (exec_enc_of_idle hst)]
  exact feed_enc_frozen x rfl hstrict (by decide : 256 ≤ 65536)

end Sys2Proof.Machine
end

section
/-! SUPPORT. The LZW round trip (43_lzw.md R208): the decoder follows the encoder one entry behind. -/

namespace Sys2Proof.Machine

/-! ### The decoder on one code -/

/-- A decoder between two codes. -/
structure DecoderReady (d : State) : Prop where
  st : d.st = .dec
  havelo : d.havelo = false
  emit : d.emit = []

/-! ### The encoder and its decoder -/

/-- The decoder `d` has taken the codes the encoder `e` has emitted.
Before the first code both dictionaries are empty. After it the decoder lacks the encoder's newest entry, whose suffix is the first byte of the current match; with the dictionary full and frozen the two are equal. -/
structure Follows (e d : State) : Prop where
  st : e.st = .enc
  hascur : e.hascur = true
  emit : e.emit = []
  ready : DecoderReady d
  falls : Dict.wf e.dict = true
  capped : e.next ≤ 65536
  linked :
    (e.dict = [] ∧ d.dict = [] ∧ d.hasprev = false) ∨
    (d.hasprev = true ∧
      ((∃ first rest, e.dict = ⟨d.prev, first⟩ :: d.dict ∧ Dict.seq e.dict e.cur.toNat = some (first :: rest)) ∨
       (d.dict = e.dict ∧ 65536 ≤ e.next ∧ d.strictL = false)))
  strict : d.strictL = e.strictL

/-- The decoder `d'` has taken the code `e.cur` too: it holds all entries of the encoder. -/
structure CaughtUp (e d' : State) : Prop where
  ready : DecoderReady d'
  dict : d'.dict = e.dict
  hasprev : d'.hasprev = true
  prev : d'.prev = e.cur
  strict : d'.strictL = e.strictL

/-- The encoder `e'` goes on from `e` with another match or dictionary, its output drained. -/
structure EncoderKept (e e' : State) : Prop where
  st : e'.st = .enc
  hascur : e'.hascur = true
  emit : e'.emit = []
  strictL : e'.strictL = e.strictL

/-- A base code as the byte the decoder emits for it. -/
theorem setWidth_ofNat_of_base {c : LzwCode} (h : c.toNat < 256) : (BitVec.ofNat 8 c.toNat).setWidth 16 = c := by
  apply BitVec.eq_of_toNat_eq
  rw [BitVec.toNat_setWidth, BitVec.toNat_ofNat]
  omega

/-- The base code of a byte stands for that byte. -/
theorem seq_setWidth (dict : List DictEntry) (b : Byte) :
    Dict.seq dict (b.setWidth 16 : LzwCode).toNat = some [b] := by
  have hvalue : (b.setWidth 16 : LzwCode).toNat = b.toNat := BitVec.toNat_setWidth_of_le (by decide)
  rw [hvalue, Dict.seq_of_base b.isLt, BitVec.ofNat_toNat, BitVec.setWidth_eq]

/-- The newest entry repeats the first byte of the previous sequence, so the decoder can expand a code it has no entry for yet (43_lzw.md R207). -/
theorem expansion_of_newest {d : State} {first : Byte} {rest : List Byte} {c : LzwCode}
    (hseq : Dict.seq (⟨d.prev, first⟩ :: d.dict) c.toNat = some (first :: rest)) :
    expansion d c = some (first :: rest) := by
  by_cases hc : c.toNat = d.next
  · have hnew := hseq
    rw [show c.toNat = Dict.next d.dict from hc, Dict.seq, if_pos rfl] at hnew
    cases hprev : Dict.seq d.dict d.prev.toNat with
    | none => simp [hprev] at hnew
    | some p =>
      rw [hprev] at hnew
      obtain ⟨first', tail, rfl⟩ := List.exists_cons_of_ne_nil (l := p) fun hnil => Dict.seq_ne_nil (hnil ▸ hprev)
      obtain ⟨rfl, rfl⟩ := List.cons.inj (Option.some.inj hnew)
      exact expansion_of_next hc hprev
  · have hold : Dict.seq d.dict c.toNat = some (first :: rest) := (Dict.seq_cons_of_ne hc).symm.trans hseq
    exact (expansion_of_assigned (Dict.lt_next_of_seq hold)).trans hold

namespace Follows

variable {e d : State}

/-- The decoder takes the code of the current match: it emits the match's sequence and has all entries of the encoder. -/
theorem decodes (h : Follows e d) {w : List Byte} (hw : Dict.seq e.dict e.cur.toNat = some w) {d₂ : State}
    (hdict : d₂.dict = d.dict) (hprev : d₂.prev = d.prev) (hhasprev : d₂.hasprev = d.hasprev)
    (hstrict : d₂.strictL = d.strictL) (hemit : d₂.emit = []) :
    ∃ t, decodeCode e.cur d₂ = .next t ∧ t.emit = (bytePayloads w).map .data ∧ t.dict = e.dict ∧ t.hasprev = true ∧
      t.prev = e.cur ∧ t.strictL = d₂.strictL ∧ t.st = d₂.st ∧ t.havelo = d₂.havelo := by
  have hcap := h.capped
  obtain ⟨hnone, hempty, hfirst⟩ | ⟨hlater, hlinked⟩ := h.linked
  · have hbase : e.cur.toNat < 256 := by
      have hlt := Dict.lt_next_of_seq hw
      rwa [hnone, Dict.next_nil] at hlt
    rw [Dict.seq_of_base hbase] at hw
    obtain rfl := Option.some.inj hw
    refine ⟨_, decodeCode_of_first (hhasprev.trans hfirst) hbase, ?_, ?_, rfl, rfl, ?_, ?_, ?_⟩
    · rw [bytePayloads, List.map_singleton, setWidth_ofNat_of_base hbase]
      simp [hemit]
    · simp [hdict, hempty, hnone]
    all_goals simp
  · obtain ⟨first, rest, rfl⟩ := List.exists_cons_of_ne_nil (l := w) fun hnil => Dict.seq_ne_nil (hnil ▸ hw)
    have hexpansion : ¬ (65536 ≤ d₂.next ∧ d₂.strictL = true) ∧ d₂.next ≤ 65536 ∧ e.cur.toNat ≤ d₂.next ∧
        expansion d₂ e.cur = some (first :: rest) ∧
        (if d₂.next = 65536 then d₂.dict else ⟨d₂.prev, first⟩ :: d₂.dict) = e.dict := by
      unfold State.next at hcap ⊢
      obtain ⟨first', rest', hnewest, hseq⟩ | ⟨hsame, hfull, hopen⟩ := hlinked
      · obtain ⟨rfl, rfl⟩ := List.cons.inj (Option.some.inj (hseq.symm.trans hw))
        rw [← hdict, ← hprev] at hnewest
        have hlt := Dict.lt_next_of_seq hw
        rw [hnewest, Dict.next_cons] at hcap hlt
        rw [hnewest] at hseq ⊢
        exact ⟨by omega, by omega, by omega, expansion_of_newest hseq, if_neg (by omega)⟩
      · rw [← hdict] at hsame
        rw [← hsame] at hw hcap
        have hfull' : Dict.next d₂.dict = 65536 := hcap.antisymm (hsame ▸ hfull)
        have hlt := Dict.lt_next_of_seq hw
        exact ⟨fun hboth => by simp [hstrict, hopen] at hboth, hcap, hlt.le, (expansion_of_assigned hlt).trans hw,
          (if_pos hfull').trans hsame⟩
    obtain ⟨hopen, hcap₂, hc, hexpansion, hdict'⟩ := hexpansion
    have hdecoded := decodeLater_of_expansion hopen hc hexpansion
    rw [State.growDecoder_emitBytes hcap₂, hdict', ← decodeCode_of_later (hhasprev.trans hlater)] at hdecoded
    refine ⟨_, hdecoded, ?_, rfl, hhasprev.trans hlater, rfl, rfl, rfl, rfl⟩
    simp [hemit, bytePayloads]

/-- Fed the two bytes of that code, the decoder catches up. -/
theorem takes_code (h : Follows e d) {w : List Byte} (hw : Dict.seq e.dict e.cur.toNat = some w) :
    ∃ d', CaughtUp e d' ∧ ∀ {rest u out}, feed rest d' = some (u, out) →
      feed (.data (e.cur &&& 0xFF#16) :: .data (e.cur >>> 8) :: rest) d =
        some (u, (bytePayloads w).map .data ++ out) := by
  obtain ⟨hst, hlo, hemit⟩ := h.ready
  have hsecond := consume_dec_data_of_second_byte
    (s := { d.countIn with lo := payloadByte (e.cur &&& 0xFF#16), havelo := true }) hst rfl (e.cur >>> 8)
  obtain ⟨t, ht, htemit, htdict, hthasprev, htprev, htstrict, htst, htlo⟩ := h.decodes hw
    (d₂ := { ({ d.countIn with lo := payloadByte (e.cur &&& 0xFF#16), havelo := true } : State).countIn with
      havelo := false }) rfl rfl rfl rfl hemit
  rw [pairCode_bytes] at hsecond
  refine ⟨{ t with emit := [] }, ⟨⟨htst.trans hst, htlo, rfl⟩, htdict, hthasprev, htprev, htstrict.trans h.strict⟩,
    fun hrest => ?_⟩
  have hfed := feed_code_bytes (Or.inl hst) hlo hemit (hsecond.trans ht) hrest
  rwa [htemit] at hfed

/-- The decoder follows the encoder on a hit. -/
theorem after_hit (h : Follows e d) {w : List Byte} (hw : Dict.seq e.dict e.cur.toNat = some w) {b : Byte}
    {e' : State} (hkept : EncoderKept e e') (hdict : e'.dict = e.dict)
    (hhit : Dict.lookup e.dict e.cur b = some e'.cur) :
    Follows e' d ∧ Dict.seq e'.dict e'.cur.toNat = some (w ++ [b]) := by
  have hseq : Dict.seq e'.dict e'.cur.toNat = some (w ++ [b]) :=
    hdict ▸ Dict.seq_of_lookup h.falls h.capped hw hhit
  refine ⟨⟨hkept.st, hkept.hascur, hkept.emit, h.ready, hdict ▸ h.falls, ?_, ?_, h.strict.trans hkept.strictL.symm⟩,
    hseq⟩
  · rw [State.next, hdict]
    exact h.capped
  · rw [State.next, hseq, hdict]
    refine h.linked.imp_right fun ⟨hlater, hlinked⟩ => ⟨hlater, hlinked.imp_left fun ⟨first, rest, hnewest, hold⟩ => ?_⟩
    obtain rfl : w = first :: rest := Option.some.inj (hw.symm.trans hold)
    exact ⟨first, rest ++ [b], hnewest, rfl⟩

/-- A decoder that has caught up follows the encoder after a miss with room. -/
theorem after_insert (h : Follows e d) {d' : State} (hd' : CaughtUp e d') {b : Byte} (hroom : e.next < 65536)
    (hcur : e.cur.toNat < e.next) {e' : State} (hkept : EncoderKept e e') (hdict : e'.dict = ⟨e.cur, b⟩ :: e.dict)
    (hcur' : e'.cur = b.setWidth 16) : Follows e' d' where
  st := hkept.st
  hascur := hkept.hascur
  emit := hkept.emit
  ready := hd'.ready
  falls := hdict ▸ Dict.wf_insert h.falls hcur b
  capped := by
    rw [State.next, hdict, Dict.next_cons]
    exact hroom
  linked := by
    refine Or.inr ⟨hd'.hasprev, Or.inl ⟨b, [], ?_, ?_⟩⟩
    · rw [hdict, hd'.prev, hd'.dict]
    · rw [hcur', seq_setWidth]
  strict := hd'.strict.trans hkept.strictL.symm

/-- A decoder that has caught up follows the encoder after a miss with the dictionary frozen. -/
theorem after_frozen (h : Follows e d) {d' : State} (hd' : CaughtUp e d') (hfull : 65536 ≤ e.next)
    (hopen : e.strictL = false) {e' : State} (hkept : EncoderKept e e') (hdict : e'.dict = e.dict) : Follows e' d' where
  st := hkept.st
  hascur := hkept.hascur
  emit := hkept.emit
  ready := hd'.ready
  falls := hdict ▸ h.falls
  capped := by
    rw [State.next, hdict]
    exact h.capped
  linked := by
    refine Or.inr ⟨hd'.hasprev, Or.inr ⟨hd'.dict.trans hdict.symm, ?_, hd'.strict.trans hopen⟩⟩
    rw [State.next, hdict]
    exact hfull
  strict := hd'.strict.trans hkept.strictL.symm

end Follows

/-! ### The encoder on one byte -/

/-- What a byte of an encode session with a match does: a hit, a code with an insertion or with the dictionary frozen, or an error. -/
theorem consume_enc_cases {e : State} (hst : e.st = .enc) (hcur : e.hascur = true) (hemit : e.emit = []) (b : Byte) :
    ∃ t, consume (.data (b.setWidth 16)) e = .next t ∧
      (t.st = .error ∨
       (EncoderKept e { t with emit := [] } ∧
        ((t.emit = [] ∧ t.dict = e.dict ∧ Dict.lookup e.dict e.cur b = some t.cur) ∨
         (t.emit = [.data (e.cur &&& 0xFF#16), .data (e.cur >>> 8)] ∧ t.cur = b.setWidth 16 ∧
          ((e.next < 65536 ∧ t.dict = ⟨e.cur, b⟩ :: e.dict) ∨
           (65536 ≤ e.next ∧ e.strictL = false ∧ t.dict = e.dict)))))) := by
  have hbeat := consume_enc_data_of_match hst hcur (b.setWidth 16)
  rw [payloadByte_setWidth] at hbeat
  obtain ⟨c, hhit, heq⟩ | ⟨-, ⟨hroom, heq⟩ | ⟨-, -, heq⟩ | ⟨hfull, hopen, heq⟩⟩ := encExtend_cases b e.countIn
  · exact ⟨_, hbeat.trans heq, Or.inr ⟨⟨hst, hcur, rfl, rfl⟩, Or.inl ⟨hemit, rfl, hhit⟩⟩⟩
  · rw [State.serWrite_eq] at heq
    exact ⟨_, hbeat.trans heq, Or.inr ⟨⟨hst, rfl, rfl, rfl⟩,
      Or.inr ⟨congrArg (· ++ _) hemit, rfl, Or.inl ⟨hroom, rfl⟩⟩⟩⟩
  · exact ⟨_, hbeat.trans heq, Or.inl (State.errorEntry_st _ _ _)⟩
  · rw [State.serWrite_eq] at heq
    exact ⟨_, hbeat.trans heq, Or.inr ⟨⟨hst, rfl, rfl, rfl⟩,
      Or.inr ⟨congrArg (· ++ _) hemit, rfl, Or.inr ⟨hfull, hopen, rfl⟩⟩⟩⟩

/-- The END beat emits the code of the match. -/
theorem feed_enc_fin {e : State} (hst : e.st = .enc) (hcur : e.hascur = true) (hemit : e.emit = []) :
    ∃ t, feed [.fin] e = some (t, completed (bytePayloads (codeBytes [e.cur]))) := by
  have hbeat := consume_enc_fin_of_match hst hcur
  rw [State.serWrite_eq, State.finish_eq, hemit] at hbeat
  exact ⟨_, (feed_fin hbeat).trans (by rw [bytePayloads_codeBytes_cons]; rfl)⟩

theorem feed_dec_fin {d : State} (h : DecoderReady d) : ∃ u, feed [.fin] d = some (u, completed []) ∧ u.st = .idle := by
  have hfed := feed_fin (consume_dec_fin h.st h.havelo)
  rw [State.finish_eq, h.emit] at hfed
  exact ⟨_, hfed, rfl⟩

/-- A core in ERROR takes no beat, so a session that failed does not end in IDLE. -/
theorem feed_of_error {beats : List InBeat} {s t : State} {out : List OutBeat} (hst : s.st = .error)
    (h : feed beats s = some (t, out)) : t.st = .error := by
  induction beats generalizing s out with
  | nil =>
    obtain ⟨rfl, -⟩ := Prod.mk.inj (Option.some.inj h)
    exact hst
  | cons b rest ih =>
    have hidle : consume b s = .next s := consume_of_no_session (by simp [hst, SeqState.inSession]) b
    obtain ⟨out', hrest, -⟩ := (feed_cons_iff hidle).mp h
    exact ih (s := { s with emit := [] }) hst hrest

/-! ### The round trip -/

/-- From an encoder with the match `w` and a decoder that follows it: the rest of the encode session gives codes from which the decoder gives back `w` and the rest of the bytes. -/
theorem feed_follows (x : List Byte) {e d t : State} {w : List Byte} {out : List OutBeat} (h : Follows e d)
    (hw : Dict.seq e.dict e.cur.toNat = some w)
    (hfeed : feed ((bytePayloads x).map .data ++ [.fin]) e = some (t, out)) (hidle : t.st = .idle) :
    ∃ codes, out = completed (bytePayloads (codeBytes codes)) ∧
      ∃ u, feed ((bytePayloads (codeBytes codes)).map .data ++ [.fin]) d =
        some (u, completed (bytePayloads (w ++ x))) ∧ u.st = .idle := by
  induction x generalizing e d w out with
  | nil =>
    obtain ⟨t', hfin⟩ := feed_enc_fin h.st h.hascur h.emit
    obtain ⟨rfl, rfl⟩ := Prod.mk.inj (Option.some.inj (hfin.symm.trans hfeed))
    obtain ⟨d', hd', htake⟩ := h.takes_code hw
    obtain ⟨u, hend, hu⟩ := feed_dec_fin hd'.ready
    refine ⟨[e.cur], rfl, u, ?_, hu⟩
    rw [bytePayloads_codeBytes_cons, List.append_nil]
    exact htake hend
  | cons b x ih =>
    obtain ⟨t₁, hbeat, hcases⟩ := consume_enc_cases h.st h.hascur h.emit b
    obtain ⟨out', hrest, rfl⟩ := (feed_cons_iff hbeat).mp hfeed
    rcases hcases with herror | ⟨hkept, ⟨hemit, hdict, hhit⟩ | ⟨hemit, hcur, hmiss⟩⟩
    · have := feed_of_error (s := { t₁ with emit := [] }) herror hrest
      simp [hidle] at this
    · obtain ⟨hfollows, hseq⟩ := h.after_hit hw hkept hdict hhit
      obtain ⟨codes, rfl, u, hdecoded, hu⟩ := ih hfollows hseq hrest
      exact ⟨codes, by rw [hemit, List.nil_append], u, by rw [hdecoded, List.append_assoc, List.singleton_append], hu⟩
    · obtain ⟨d', hd', htake⟩ := h.takes_code hw
      have hfollows : Follows { t₁ with emit := [] } d' := by
        rcases hmiss with ⟨hroom, hdict⟩ | ⟨hfull, hopen, hdict⟩
        · exact h.after_insert hd' hroom (Dict.lt_next_of_seq hw) hkept hdict hcur
        · exact h.after_frozen hd' hfull hopen hkept hdict
      have hseq : Dict.seq t₁.dict t₁.cur.toNat = some [b] := by rw [hcur, seq_setWidth]
      obtain ⟨codes, rfl, u, hdecoded, hu⟩ := ih hfollows hseq hrest
      refine ⟨e.cur :: codes, ?_, u, ?_, hu⟩
      · rw [hemit, bytePayloads_codeBytes_cons, completed_append]
        rfl
      · rw [bytePayloads_codeBytes_cons, bytePayloads_append, completed_append]
        exact htake hdecoded

/-- An encoder and a decoder at the start of their sessions, with the same strict mode (43_lzw.md R180, R181). -/
structure Fresh (e d : State) : Prop where
  st : e.st = .enc
  hascur : e.hascur = false
  emit : e.emit = []
  dict : e.dict = []
  ready : DecoderReady d
  dict' : d.dict = []
  hasprev : d.hasprev = false
  strict : d.strictL = e.strictL

/-- With the first byte as its match the encoder has emitted no code yet. -/
theorem Fresh.follows {e d : State} (h : Fresh e d) (b : Byte) :
    Follows { e.countIn.restartMatch b with emit := [] } d where
  st := h.st
  hascur := rfl
  emit := rfl
  ready := h.ready
  falls := (congrArg Dict.wf h.dict).trans rfl
  capped := (congrArg Dict.next h.dict).trans_le (by decide)
  linked := Or.inl ⟨h.dict, h.dict', h.hasprev⟩
  strict := h.strict

/-- The round trip from the start of both sessions: without a byte each is one END beat, and after the first byte the decoder follows. -/
theorem feed_fresh (x : List Byte) {e d t : State} {out : List OutBeat} (h : Fresh e d)
    (hfeed : feed ((bytePayloads x).map .data ++ [.fin]) e = some (t, out)) (hidle : t.st = .idle) :
    ∃ codes, out = completed (bytePayloads (codeBytes codes)) ∧
      ∃ u, feed ((bytePayloads (codeBytes codes)).map .data ++ [.fin]) d =
        some (u, completed (bytePayloads x)) ∧ u.st = .idle := by
  cases x with
  | nil =>
    have hfin := feed_fin (consume_enc_fin_of_no_match h.st h.hascur)
    rw [State.finish_eq, h.emit] at hfin
    obtain ⟨-, rfl⟩ := Prod.mk.inj (Option.some.inj (hfin.symm.trans hfeed))
    exact ⟨[], rfl, feed_dec_fin h.ready⟩
  | cons b x =>
    have hfirst := consume_enc_data_of_no_match h.st h.hascur (b.setWidth 16)
    rw [payloadByte_setWidth] at hfirst
    obtain ⟨out', hrest, rfl⟩ := (feed_cons_iff hfirst).mp hfeed
    have hsilent : (e.countIn.restartMatch b).emit = [] := h.emit
    rw [hsilent, List.nil_append]
    exact feed_follows x (h.follows b) (seq_setWidth _ b) hrest hidle

/-- Settles O51, from the starts of the two sessions. -/
theorem lzwRoundTrip : Obligations.LzwRoundTrip := by
  intro x s t s' out hst hemit hsession hidle hst' hemit' hstrict
  rw [session_of_exec (exec_enc_of_idle hst)] at hsession
  simp only [session_of_exec (exec_dec_of_idle hst')]
  have hfresh : Fresh s.encStart s'.decStart := ⟨rfl, rfl, hemit, rfl, ⟨rfl, rfl, hemit'⟩, rfl, rfl, hstrict⟩
  exact feed_fresh x hfresh hsession hidle

end Sys2Proof.Machine
end
